-- ==== Sys2Proof/Word.lean ====
section
/-! DEFINITION. The words of the pa04 codec core and their plainest arithmetic (00_scope.md R7, R8, R9). -/

namespace Sys2Proof

/-- One byte of buffer memory or of a packet stream (R61). -/
abbrev Byte := BitVec 8

/-- A buffer-memory byte address, `ADDR_W` = 32 bits (R7). -/
abbrev Addr := BitVec 32

/-- A byte length or capacity, `LEN_W` = 32 bits (R7). -/
abbrev Len := BitVec 32

/-- A payload bit count, `BITS_W` = 35 bits (R7). -/
abbrev BitCount := BitVec 35

/-- One 64-bit slot of the register block (R80). -/
abbrev Slot := BitVec 64

/-- A canonical code, `MAX_CODE_LEN` = 255 bits (R7, R44). -/
abbrev CodeWord := BitVec 255

/-- `cdiv(a, b) = ceil(a / b)` (R8). -/
def cdiv (a b : Nat) : Nat := (a + b - 1) / b

/-- A table of `n` entries from its entry function. -/
def tabulate {α : Type} (n : Nat) (f : Nat → α) : Vector α n :=
  ⟨((List.range n).map f).toArray, by simp⟩

end Sys2Proof
end

