-- ==== Sys2Proof/Syntax.lean ====
section
/-! DEFINITION. The instructions: one constructor per mnemonic of spec/opcode_table.json (30_encoding.md R83 to R87). -/

namespace Sys2Proof

/-- The commands (R83) and the packets of the RLE stream (R84 to R87). Every operand of a command is in a
register of its own (R82); a packet carries its count field. -/
inductive Instr where
  /-- `RLE_ENCODE` (R111) -/
  | rleEncode
  /-- `RLE_DECODE` (R120) -/
  | rleDecode
  /-- `HUF_ENCODE` (R150) -/
  | hufEncode
  /-- `HUF_DECODE` (R192) -/
  | hufDecode
  /-- `HUF_RELEASE` (R213) -/
  | hufRelease
  /-- `RESERVED_OP`: any opcode that names no command (R212); the table's seven rows split its range by
  mask only (notes/assumptions/11.md). -/
  | reservedOp (op : Byte)
  /-- `LIT`, a Literal packet's control byte with `COUNTM1` (R85, R121) -/
  | lit (countM1 : BitVec 7)
  /-- `RUN`, a Run packet's control byte with `COUNTM1` (R86, R122) -/
  | run (countM1 : BitVec 7)
  deriving DecidableEq, Repr

/-- Where an instruction's encoding is read: the command register (R82), or the compressed stream in buffer
memory (R84). The two encodings use the same numbers. -/
inductive Port where
  | commandRegister
  | rleStream
  deriving DecidableEq, Repr

/-- The place an instruction is read from. -/
def Instr.port : Instr → Port
  | .rleEncode | .rleDecode | .hufEncode | .hufDecode | .hufRelease | .reservedOp _ => .commandRegister
  | .lit _ | .run _ => .rleStream

/-- A whole packet of the RLE stream with its payload (R14, R85, R86). -/
inductive Packet where
  /-- a Literal packet and the bytes it copies verbatim -/
  | lit (bytes : List Byte)
  /-- a Run packet: `value` repeated `count` times -/
  | run (count : Nat) (value : Byte)
  deriving DecidableEq, Repr

/-- A packet's count (R85, R86). -/
def Packet.count : Packet → Nat
  | .lit bytes => bytes.length
  | .run count _ => count

/-- Whether a packet is a Run, the `TYPE` of its control byte (R84). -/
def Packet.isRun : Packet → Bool
  | .lit _ => false
  | .run _ _ => true

/-- The bytes a packet stands for (R125). -/
def Packet.span : Packet → List Byte
  | .lit bytes => bytes
  | .run count value => List.replicate count value

end Sys2Proof
end

