-- ==== Sys2Proof/WellFormed.lean ====
section
/-! DEFINITION. When an instruction or a packet is well formed (30_encoding.md R83, R85 to R87, R96). -/

namespace Sys2Proof

/-- Whether an opcode is one of the reserved values 0x00 and 0x06 to 0xFF (R83, R96(a)). -/
def reservedOpcode (op : Byte) : Bool := op.toNat == 0 || 6 ≤ op.toNat

/-- A `RESERVED_OP` must carry a reserved opcode; every other term is well formed, since every value of a
7-bit count field is legal (R88). -/
def Instr.wf : Instr → Bool
  | .reservedOp op => reservedOpcode op
  | .rleEncode | .rleDecode | .hufEncode | .hufDecode | .hufRelease | .lit _ | .run _ => true

/-- A packet's count is in `[1, 128]` (R87). -/
def Packet.wf : Packet → Bool
  | .lit bytes => 1 ≤ bytes.length && bytes.length ≤ 128
  | .run count _ => 1 ≤ count && count ≤ 128

end Sys2Proof
end

