-- ==== Sys2Proof/Decode.lean ====
section
/-! DEFINITION. Decoding command words and control bytes, and the encoder (30_encoding.md R82 to R89). -/

namespace Sys2Proof

/-- The command an opcode names (R83); every other value is reserved (R96(a)). -/
def decodeOpcode (op : Byte) : Instr :=
  match op.toNat with
  | 1 => .rleEncode
  | 2 => .rleDecode
  | 3 => .hufEncode
  | 4 => .hufDecode
  | 5 => .hufRelease
  | _ => .reservedOp op

/-- The opcode field of a command word: bits [7:0]; bits [63:8] are ignored (R82). -/
def opcodeField (w : Slot) : Byte := w.setWidth 8

/-- The command a 64-bit command word names (R82, R83). -/
def decodeCommand (w : Slot) : Instr := decodeOpcode (opcodeField w)

/-- The `TYPE` field of a control byte: bit [7] (R84). -/
def ctlType (ctl : Byte) : Bool := ctl.getLsbD 7

/-- The `COUNTM1` field of a control byte: bits [6:0] (R84). -/
def ctlCountM1 (ctl : Byte) : BitVec 7 := ctl.setWidth 7

/-- The packet a control byte starts: `TYPE` 0 is a Literal, 1 a Run; no control byte is reserved (R84, R88). -/
def decodeCtl (ctl : Byte) : Instr :=
  if ctlType ctl then .run (ctlCountM1 ctl) else .lit (ctlCountM1 ctl)

/-- `count = zext_8(ctl[6:0]) + 1` (R87). -/
def packetCount (countM1 : BitVec 7) : Nat := countM1.toNat + 1

/-- Why the decoder gives no instruction. -/
inductive Reject where
  /-- there is no byte to read -/
  | noByte
  deriving DecidableEq, Repr

/-- What the decoder answers: an instruction with the bytes left, or a rejection by name. -/
inductive Decoded where
  | instr (i : Instr) (rest : List Byte)
  | reject (r : Reject)
  deriving DecidableEq, Repr

/-- The decoder, total on any bytes: one byte names the instruction at either port (R82, R89). -/
def decode (p : Port) (bs : List Byte) : Decoded :=
  match bs with
  | [] => .reject .noByte
  | b :: rest =>
    match p with
    | .commandRegister => .instr (decodeOpcode b) rest
    | .rleStream => .instr (decodeCtl b) rest

/-- The byte that encodes an instruction at its port (R83, R84). -/
def encodeByte : Instr → Byte
  | .rleEncode => 0x01
  | .rleDecode => 0x02
  | .hufEncode => 0x03
  | .hufDecode => 0x04
  | .hufRelease => 0x05
  | .reservedOp op => op
  | .lit countM1 => 0#1 ++ countM1
  | .run countM1 => 1#1 ++ countM1

/-- The encoder. -/
def encode (i : Instr) : List Byte := [encodeByte i]

/-- A packet's control byte: `ctl = (TYPE << 7) | (count - 1)` (R87). -/
def packetCtl : Packet → Byte
  | .lit bytes => encodeByte (.lit (BitVec.ofNat 7 (bytes.length - 1)))
  | .run count _ => encodeByte (.run (BitVec.ofNat 7 (count - 1)))

/-- A packet's bytes in the stream: a Literal is `ctl` and its bytes (R85), a Run `ctl` and its value (R86). -/
def Packet.encode (p : Packet) : List Byte :=
  packetCtl p ::
    match p with
    | .lit bytes => bytes
    | .run _ value => [value]

/-- The stream of a list of packets: no header, no terminator (R88). -/
def encodeStream (ps : List Packet) : List Byte := ps.flatMap Packet.encode

/-- The packet at the head of a stream and the stream after it: the control byte alone tells the packet's length, and
a packet that would extend past the end is none (R89). -/
def splitPacket (stream : List Byte) : Option (Packet × List Byte) :=
  match stream with
  | [] => none
  | ctl :: rest =>
    let count := packetCount (ctlCountM1 ctl)
    if ctlType ctl then
      match rest with
      | [] => none
      | value :: rest => some (.run count value, rest)
    else if count ≤ rest.length then some (.lit (rest.take count), rest.drop count)
    else none

/-- The packets of a whole stream, `none` when one is truncated (R88, R89); `fuel` is at least the stream's
length. -/
def parsePackets : (fuel : Nat) → List Byte → Option (List Packet)
  | _, [] => some []
  | 0, _ :: _ => none
  | fuel + 1, stream =>
    match splitPacket stream with
    | none => none
    | some (p, rest) => (parsePackets fuel rest).map (p :: ·)

/-- The packets of a stream (R88, R89). -/
def parseStream (stream : List Byte) : Option (List Packet) := parsePackets stream.length stream

/-- The decoder on a row of spec/opcode_table.json: the bits `w` are the value written to `CMD`. A packet's
control byte is read at the other port, so it is never this word's reading (notes/assumptions/10.md). -/
def decodeTableWord (nbits w : Nat) : Option Instr :=
  if nbits = 0 then none else some (decodeCommand (BitVec.ofNat 64 w))

end Sys2Proof
end

