-- ==== Sys2Proof/Machine/Working.lean ====
section
/-! DEFINITION. The core's internal working state (10_state.md R40 to R47), with the widths those rules give.
No host access reads or writes it (R48). -/

namespace Sys2Proof.Machine

/-- RLE encoder working state (R40). -/
structure RleEncWork where
  /-- next input byte to classify -/
  ipos : Len
  /-- output bytes written -/
  opos : Len
  /-- first input byte of the Literal packet being accumulated -/
  litStart : Len
  /-- run length measured at `ipos` -/
  r : BitVec 8
  deriving DecidableEq, Repr, Inhabited

/-- RLE decoder working state (R41). -/
structure RleDecWork where
  /-- offset of the next control byte in the compressed stream -/
  ipos : Len
  /-- decoded bytes written -/
  opos : Len
  /-- the current control byte -/
  ctl : Byte
  deriving DecidableEq, Repr, Inhabited

/-- The kind of an arena node, with what only that kind holds (R43). -/
inductive NodeKind where
  | leaf (sym : Byte)
  | internal (child0 child1 : BitVec 9)
  deriving DecidableEq, Repr, Inhabited

/-- One node of the tree builder's arena, under its 9-bit key (R43). -/
structure ArenaNode where
  key : BitVec 9
  weight : BitVec 32
  kind : NodeKind
  /-- whether the node is still in the priority set -/
  live : Bool
  deriving DecidableEq, Repr, Inhabited

/-- Bit packer state (R45). -/
structure PackWork where
  /-- the payload byte being filled -/
  acc : Byte
  /-- bits already in `acc`, 0 to 7 -/
  nacc : BitVec 3
  /-- payload bits emitted so far -/
  bpos : BitCount
  /-- payload bytes written -/
  opos : Len
  deriving DecidableEq, Repr, Inhabited

/-- Bit unpacker state (R46). -/
structure UnpackWork where
  /-- next payload bit to read -/
  bpos : BitCount
  /-- the bits of the codeword read so far -/
  code : CodeWord
  /-- the number of bits in `code` -/
  depth : BitVec 8
  /-- decoded bytes written -/
  opos : Len
  deriving DecidableEq, Repr, Inhabited

/-- Decoder tables (R47); entry `l - 1` of the first three belongs to code length `l`, 1 to 255. -/
structure DecTables where
  blCount : Vector (BitVec 9) 255
  first : Vector CodeWord 255
  index : Vector (BitVec 9) 255
  sorted : Vector Byte 256
  maxLen : BitVec 8
  deriving DecidableEq, Repr, Inhabited

/-- All of the internal working state (R40 to R47). -/
structure Work where
  rleEnc : RleEncWork
  rleDec : RleDecWork
  /-- `FREQ[0..255]` (R42) -/
  freq : Vector (BitVec 32) 256
  /-- the node arena, up to 511 nodes (R43) -/
  arena : List ArenaNode
  /-- `LEN[0..255]` (R44) -/
  len : Vector (BitVec 8) 256
  /-- `CODE[0..255]`, meaningful only where `LEN[s] > 0` (R44) -/
  code : Vector CodeWord 256
  pack : PackWork
  unpack : UnpackWork
  tables : DecTables
  deriving DecidableEq, Repr, Inhabited

/-- The working state of the power-on state: the spec leaves it unspecified (R50), so this is a
DESIGN CHOICE (unsafe, notes/assumptions/1.md). -/
def Work.zero : Work where
  rleEnc := ⟨0, 0, 0, 0⟩
  rleDec := ⟨0, 0, 0⟩
  freq := tabulate 256 fun _ => 0
  arena := []
  len := tabulate 256 fun _ => 0
  code := tabulate 256 fun _ => 0
  pack := ⟨0, 0, 0, 0⟩
  unpack := ⟨0, 0, 0, 0⟩
  tables :=
    { blCount := tabulate 255 fun _ => 0
      first := tabulate 255 fun _ => 0
      index := tabulate 255 fun _ => 0
      sorted := tabulate 256 fun _ => 0
      maxLen := 0 }

end Sys2Proof.Machine
end

