-- ==== Sys2Proof/Config.lean ====
section
/-! DEFINITION. The implementation parameters (00_scope.md R7) and the free values: constants with no body
that stand for what the spec leaves unspecified (93_implementation_defined.md, treatment `any value`). -/

namespace Sys2Proof.Config

/-- The number of buffer-memory addresses, `2^ADDR_W` (R7, R61). -/
abbrev addrSpace : Nat := 2 ^ 32

/-- `MAX_LIT`, the largest Literal packet count (R7). -/
abbrev maxLit : Nat := 128

/-- `MAX_RUN`, the largest Run packet count (R7). -/
abbrev maxRun : Nat := 128

/-- `T_RUN`, the shortest run the encoder emits as a Run packet (R7, R114). -/
abbrev tRun : Nat := 3

/-- `NSYM`, the number of byte symbols (R7). -/
abbrev nSym : Nat := 256

/-- `HDR_LEN`, the Huffman header length in bytes (R7). -/
abbrev hdrLen : Nat := 256

/-- `MAX_CODE_LEN`, the largest code length (R7). -/
abbrev maxCodeLen : Nat := 255

/-- `HUF_MAX_IN = 2^LEN_W - 257`, the largest HUF_ENCODE input length (R7). -/
abbrev hufMaxIn : Nat := 2 ^ 32 - 257

/-- `REG_BASE`, the bus address of the register block: an OPEN parameter (R7, R74). Host accesses of the
model carry their byte offset from it (notes/assumptions/18.md). -/
opaque regBase : Nat

/-- `N_INST`, the number of core instances on a platform: an OPEN parameter (R7, R230). A State is one
instance (notes/assumptions/18.md). -/
opaque nInst : Nat

/-- A free value: an unspecified byte, the `n`-th drawn (R222(a), R251; notes/assumptions/3.md, 15.md). -/
opaque freeByte : Nat → Byte

/-- A free value: unspecified working state, the `n`-th drawn (R48, R250; notes/assumptions/2.md). -/
opaque freeWork : Nat → Machine.Work

/-- A free value: the allocator's answer when State holds no answer for it, the `n`-th drawn; `none` is
`Fail` (R71; notes/assumptions/8.md). -/
opaque freeAnswer : Nat → Option Addr

end Sys2Proof.Config
end

