-- ==== Sys2Proof/Machine/State.lean ====
section
/-! DEFINITION. The state of one core instance (10_state.md R20 to R50), the events the world outside can cause,
the reasons a step can stop, and the state after reset. -/

namespace Sys2Proof.Machine

/-- `STATUS.CODE` (R220); values 5 to 15 are never written, so they have no name here. -/
inductive Code where
  | ok
  | capacityExceeded
  | malformedInput
  | allocationFailure
  | invalidArgument
  deriving DecidableEq, Repr

/-- `STATUS.DETAIL` (R221); values outside its table are never written, so they have no name here. -/
inductive Detail where
  | none
  | outCapacity
  | rleTruncated
  | hufShort
  | hufBadHeader
  | hufTruncatedCode
  | hufInvalidCodeword
  | allocFail
  | illegalOp
  | nullBuffer
  | range
  | overlap
  | bitsRange
  | lengthRange
  deriving DecidableEq, Repr

/-- The fields of `STATUS` (R23). Its reserved bits read as 0 and no write reaches the register. -/
structure Status where
  busy : Bool
  done : Bool
  code : Code
  detail : Detail
  deriving DecidableEq, Repr

/-- The five operand registers (R24 to R28). -/
structure Operands where
  srcBase : Addr
  srcLen : Len
  srcBits : BitCount
  dstBase : Addr
  dstCap : Len
  deriving DecidableEq, Repr

/-- The three result registers (R29 to R31). -/
structure Results where
  len : Len
  bits : BitCount
  base : Addr
  deriving DecidableEq, Repr

/-- A region `[base, base + len)` of buffer memory, in exact arithmetic (R62). -/
structure Window where
  base : Nat
  len : Nat
  deriving DecidableEq, Repr

/-- Which sub-block of the running command acts next (R2; the pseudocode of R111, R120, R150, R192).
The spec implies it: a command is in progress exactly while `BUSY = 1` (notes/assumptions/7.md). -/
inductive Stage where
  /-- no command is running -/
  | idle
  /-- issued, nothing done yet (R210) -/
  | issued
  /-- RLE_ENCODE emits its next packet (R111) -/
  | rleEncode
  /-- RLE_DECODE takes its next packet (R120) -/
  | rleDecode
  /-- HUF_ENCODE counts frequencies (R140) -/
  | hufCount
  /-- HUF_ENCODE builds the tree and the code lengths (R141 to R145) -/
  | hufTree
  /-- HUF_ENCODE assigns the codes (R147) -/
  | hufCode
  /-- HUF_ENCODE requests its buffer (R154) -/
  | hufAlloc
  /-- HUF_ENCODE writes the header into the region it was given (R148) -/
  | hufHeader (base : Addr) (size : Nat)
  /-- HUF_ENCODE packs the payload (R151) -/
  | hufPack (base : Addr) (size : Nat)
  /-- HUF_ENCODE hands the region over and completes (R150, R155) -/
  | hufDone (base : Addr) (size : Nat)
  /-- HUF_DECODE reads the header (R182) -/
  | hufRead
  /-- HUF_DECODE checks the header and builds its tables (R183 to R185) -/
  | hufCheck
  /-- HUF_DECODE walks its next codeword (R187) -/
  | hufWalk
  deriving DecidableEq, Repr

/-- A request the core sends on the allocator port (R71). -/
inductive PortRequest where
  | alloc (size : Nat)
  | release (base : Addr)
  deriving DecidableEq, Repr

/-- What happens next, as the outside world and the core's pace decide it (notes/assumptions/6.md, 7.md). -/
inductive Event where
  /-- the host writes a register: width in bits, byte offset from `REG_BASE`, value (R81) -/
  | regWrite (width offset : Nat) (value : Slot)
  /-- the host reads a register (R81) -/
  | regRead (width offset : Nat)
  /-- the host, or another agent, writes a byte of buffer memory (R61, R256) -/
  | memWrite (a : Addr) (v : Byte)
  /-- the host reads a byte of buffer memory -/
  | memRead (a : Addr)
  /-- the reset input is asserted (R250) -/
  | reset
  /-- the platform changes: the windows of the commands other instances are running, and the regions that
  are not plain coherent memory (R230, R66, R69) -/
  | platform (otherWindows nonPlain : List Window)
  /-- the core carries the running command to its completion (R67) -/
  | core
  /-- the core does one sub-block, one packet or one symbol of the running command -/
  | corePart
  deriving DecidableEq, Repr

/-- Buffer memory (R61): the bytes that differ from what an unlisted address reads as, by rising address. -/
abbrev Memory := List Host.Cell

/-- Why a step stops. -/
inductive Fault where
  /-- raised by `step` when `HOSTFAULT` is set: the run has no meaning (R38). Safe: it stops where the
  hardware goes on (notes/assumptions/12.md). -/
  | hostDutyBroken
  /-- raised by the packets LIT and RUN when a window does not fit the address space (R62), which CheckArgs
  rules out in every run. Safe (notes/assumptions/14.md). -/
  | outsideMemory
  deriving DecidableEq, Repr

/-- Why an instruction has no meaning. -/
inductive Refusal where
  /-- raised by exec's arm of an instruction that is not modelled yet; no arm of this model does. Safe. -/
  | notModelled (mnemonic : String)
  deriving DecidableEq, Repr

/-- The state of one core instance (R20), with the model's own fields last. -/
structure State where
  /-- `CMD.OP` (R22) -/
  op : Byte
  /-- `STATUS` (R23) -/
  status : Status
  /-- the operand registers (R24 to R28) -/
  regs : Operands
  /-- the operands latched at issue (R32) -/
  latched : Operands
  /-- the result registers (R29 to R31) -/
  res : Results
  /-- buffer memory (R61) -/
  mem : Memory
  /-- the internal working state (R40 to R47) -/
  work : Work
  /-- where the running command stands -/
  stage : Stage
  /-- `LIVE` (R38) -/
  live : List Window
  /-- `HOSTFAULT` (R38) -/
  hostFault : Bool
  /-- MODEL: bytes of released regions that the host has neither written anew nor been given again, for HD5 (R256) -/
  released : List Nat
  /-- MODEL: windows of the commands other instances are running, for HD6 (R256) -/
  otherWindows : List Window
  /-- MODEL: regions that are not plain coherent memory, for HD3 (R256) -/
  nonPlain : List Window
  /-- MODEL: the allocator's coming answers, `none` for `Fail` (R71) -/
  allocAnswers : List (Option Addr)
  /-- MODEL: the requests sent on the allocator port, newest first (R71) -/
  portLog : List PortRequest
  /-- MODEL: the data the last host read returned -/
  busData : Slot
  /-- MODEL: the events still to come, oldest first -/
  agenda : List Event
  /-- MODEL: how many free values have been drawn -/
  draws : Nat
  deriving DecidableEq, Repr

/-- `STATUS` after reset: the whole register 0 (R50). -/
def Status.reset : Status := ⟨false, false, .ok, .none⟩

/-- The operand registers after reset (R50). -/
def Operands.zero : Operands := ⟨0, 0, 0, 0, 0⟩

/-- The result registers after reset (R50). -/
def Results.zero : Results := ⟨0, 0, 0⟩

/-- The machine right after reset (R50, R250). The spec states no value for the working state, for the
memory at power-on and for the model's own fields (notes/assumptions/1.md, 2.md, 5.md, 6.md, 8.md, 13.md, 16.md). -/
def State.reset : State where
  op := 0
  status := Status.reset
  regs := Operands.zero
  latched := Operands.zero
  res := Results.zero
  mem := []
  work := Work.zero
  stage := .idle
  live := []
  hostFault := false
  released := []
  otherWindows := []
  nonPlain := []
  allocAnswers := []
  portLog := []
  busData := 0
  agenda := []
  draws := 0

end Sys2Proof.Machine
end

