-- ==== Sys2Proof/Machine/Flags.lean ====
section
/-! DEFINITION. The core's only flags: the fields of `STATUS`, their values and the whole register
(10_state.md R23, R37; 60_exceptions.md R220, R221). -/

namespace Sys2Proof.Machine

/-- The value of `STATUS.CODE` (R220). -/
def Code.value : Code → BitVec 4
  | .ok => 0
  | .capacityExceeded => 1
  | .malformedInput => 2
  | .allocationFailure => 3
  | .invalidArgument => 4

/-- The value of `STATUS.DETAIL` (R221). -/
def Detail.value : Detail → BitVec 8
  | .none => 0x00
  | .outCapacity => 0x01
  | .rleTruncated => 0x10
  | .hufShort => 0x11
  | .hufBadHeader => 0x12
  | .hufTruncatedCode => 0x13
  | .hufInvalidCodeword => 0x14
  | .allocFail => 0x20
  | .illegalOp => 0x30
  | .nullBuffer => 0x31
  | .range => 0x32
  | .overlap => 0x33
  | .bitsRange => 0x34
  | .lengthRange => 0x35

/-- The code a detail belongs to (R221). -/
def Detail.code : Detail → Code
  | .none => .ok
  | .outCapacity => .capacityExceeded
  | .rleTruncated | .hufShort | .hufBadHeader | .hufTruncatedCode | .hufInvalidCodeword => .malformedInput
  | .allocFail => .allocationFailure
  | .illegalOp | .nullBuffer | .range | .overlap | .bitsRange | .lengthRange => .invalidArgument

/-- The whole `STATUS` register: BUSY [0], DONE [1], CODE [11:8], DETAIL [23:16], the rest 0 (R23). -/
def Status.word (s : Status) : BitVec 24 :=
  s.detail.value ++ (0#4 ++ (s.code.value ++ (0#6 ++ (BitVec.ofBool s.done ++ BitVec.ofBool s.busy))))

/-- `STATUS` from issue to completion (R210). -/
def Status.running : Status := ⟨true, false, .ok, .none⟩

/-- `STATUS` after a completion with detail `d` (R211). -/
def Status.completed (d : Detail) : Status := ⟨false, true, d.code, d⟩

end Sys2Proof.Machine
end

