-- ==== Sys2Proof/Machine/Operands.lean ====
section
/-! DEFINITION. The operand forms of the commands: their windows and the argument checks (60_exceptions.md R225;
20_memory.md R62, R63; 30_encoding.md R83). -/

namespace Sys2Proof.Machine

/-- `[b1, b1 + l1)` and `[b2, b2 + l2)` share an address, both with length above 0 (R225). -/
def Window.overlaps (v w : Window) : Bool :=
  0 < v.len && 0 < w.len && v.base < w.base + w.len && w.base < v.base + v.len

/-- Whether an address lies in a window. -/
def Window.has (w : Window) (a : Nat) : Bool := w.base ≤ a && a < w.base + w.len

/-- `base = 0` and `len > 0` (R225). -/
def Window.nullBad (w : Window) : Bool := w.base == 0 && 0 < w.len

/-- `base + len > 2^ADDR_W`, computed exactly (R225). -/
def Window.rangeBad (w : Window) : Bool := Config.addrSpace < w.base + w.len

/-- The window lies in the address space (R62). -/
def Window.inSpace (w : Window) : Bool := w.base + w.len ≤ Config.addrSpace

/-- The part of a window that has addresses (R61): all of it, unless the window is range-bad. -/
def Window.clipped (w : Window) : Window := ⟨w.base, min w.len (Config.addrSpace - w.base)⟩

/-- The source window `(SRC_BASE, SRC_LEN)` (R63). -/
def Operands.src (o : Operands) : Window := ⟨o.srcBase.toNat, o.srcLen.toNat⟩

/-- The destination window `(DST_BASE, DST_CAP)` (R63). -/
def Operands.dst (o : Operands) : Window := ⟨o.dstBase.toNat, o.dstCap.toNat⟩

/-- The commands that read a source window (R83). -/
def usesSrc : Instr → Bool
  | .rleEncode | .rleDecode | .hufEncode | .hufDecode => true
  | .hufRelease | .reservedOp _ | .lit _ | .run _ => false

/-- The commands that write a destination window (R63, R225). -/
def usesDst : Instr → Bool
  | .rleEncode | .rleDecode | .hufDecode => true
  | .hufEncode | .hufRelease | .reservedOp _ | .lit _ | .run _ => false

/-- `CheckArgs(C)`: the first check that fails, in the order of R224 and R225. -/
def checkArgs (c : Instr) (o : Operands) : Option Detail :=
  if o.src.nullBad then some .nullBuffer
  else if usesDst c && o.dst.nullBad then some .nullBuffer
  else if o.src.rangeBad then some .range
  else if usesDst c && o.dst.rangeBad then some .range
  else if usesDst c && o.src.overlaps o.dst then some .overlap
  else if c == .hufEncode && Config.hufMaxIn < o.srcLen.toNat then some .lengthRange
  else none

/-- The windows a command is given: its source, then its destination (R63). -/
def commandWindows (c : Instr) (o : Operands) : List Window :=
  (if usesSrc c then [o.src] else []) ++ (if usesDst c then [o.dst] else [])

end Sys2Proof.Machine
end

