-- ==== Sys2Proof/Machine/Ops.lean ====
section
/-! DEFINITION. The operations every instruction is written over: buffer memory (20_memory.md R61 to R66), the
allocator port (R71), issue, completion and failure (43_control.md R210, R211; 60_exceptions.md R222). -/

namespace Sys2Proof.Machine

/-! ### Buffer memory -/

/-- What an unlisted byte reads as: a DESIGN CHOICE, unsafe (notes/assumptions/5.md). -/
def blankByte : Byte := 0

/-- `MemRead(a, 1)` (R11, R64). -/
def Memory.read : Memory → Nat → Byte
  | [], _ => blankByte
  | (k, v) :: rest, a => if k = a then v else Memory.read rest a

/-- Lists a byte at its place in the rising order of addresses. -/
def Memory.insert : Memory → Nat → Byte → Memory
  | [], a, v => [(a, v)]
  | (k, w) :: rest, a, v => if a < k then (a, v) :: (k, w) :: rest else (k, w) :: Memory.insert rest a v

/-- `MemWrite(a, 1, v)` (R11, R64): what was listed at `a` is gone, and `v` is listed unless it is what an
unlisted byte reads as. -/
def Memory.write (m : Memory) (a : Nat) (v : Byte) : Memory :=
  let others := m.filter fun cell => cell.1 ≠ a
  if v = blankByte then others else Memory.insert others a v

/-- The canonical form: addresses strictly rising, and no entry equal to what an unlisted byte reads as. -/
def Memory.wf : Memory → Bool
  | [] => true
  | (k, v) :: rest => v != blankByte && rest.all (fun cell => k < cell.1) && Memory.wf rest

/-- Every listed byte has an address (R61). -/
def Memory.inSpace (m : Memory) : Bool := m.all fun cell => cell.1 < Config.addrSpace

/-- The `n` bytes from `a` upward, read one at a time (R64). -/
def Memory.readBytes (m : Memory) (a n : Nat) : List Byte := (List.range n).map fun k => m.read (a + k)

/-- Bytes written one at a time from `a` upward (R64). -/
def Memory.writeBytes : Memory → Nat → List Byte → Memory
  | m, _, [] => m
  | m, a, b :: bs => Memory.writeBytes (m.write a b) (a + 1) bs

/-- The core or the host stores bytes from `a` upward (R64). -/
def State.store (s : State) (a : Nat) (bs : List Byte) : State := { s with mem := s.mem.writeBytes a bs }

/-- `n` free bytes, from the `d`-th draw on. -/
def freeBytes (d n : Nat) : List Byte := (List.range n).map fun k => Config.freeByte (d + k)

/-- Every byte of a window takes an unspecified value (R222(a), R251; notes/assumptions/3.md). -/
def State.spoil (s : State) (w : Window) : State :=
  { s with mem := s.mem.writeBytes w.base (freeBytes s.draws w.len), draws := s.draws + w.len }

/-! ### The bytes a command reads -/

/-- The source bytes from offset `i` to the end of the source window (R63). -/
def State.srcFrom (s : State) (i : Nat) : List Byte :=
  s.mem.readBytes (s.latched.srcBase.toNat + i) (s.latched.srcLen.toNat - i)

/-- The source bytes `in[0:n)` (R111, R140). -/
def State.srcBytes (s : State) : List Byte := s.srcFrom 0

/-! ### The allocator port -/

/-- What the model assumes of an answer `Ok(base)` (R71). -/
def allocContract (s : State) (size : Nat) (base : Addr) : Bool :=
  let region : Window := ⟨base.toNat, size⟩
  base != 0 && region.inSpace && !region.overlaps s.latched.src
    && s.live.all (fun w => !region.overlaps w) && s.nonPlain.all (fun w => !region.overlaps w)

/-- The allocator's next answer: the one State holds for it, else a free draw (R71; notes/assumptions/8.md). -/
def State.nextAnswer (s : State) : Option Addr :=
  match s.allocAnswers with
  | answer :: _ => answer
  | [] => Config.freeAnswer s.draws

/-- The answer to `Alloc(size)`; one that breaks what R71 assumes counts as `Fail` (notes/assumptions/8.md). -/
def State.allocAnswer (s : State) (size : Nat) : Option Addr := s.nextAnswer.filter (allocContract s size)

/-- The request `Alloc(size)` is sent and its answer used up (R71, R154). -/
def State.requestAlloc (s : State) (size : Nat) : State :=
  { s with
    portLog := .alloc size :: s.portLog
    allocAnswers := s.allocAnswers.tail
    draws := s.draws + 1 }

/-- The request `Release(base)` is sent (R71). -/
def State.requestRelease (s : State) (base : Addr) : State :=
  { s with portLog := .release base :: s.portLog }

/-! ### Issue, completion and failure -/

/-- Issue (R210): `CMD.OP` is stored, the operands are latched (R32), `BUSY` is set, the other flags cleared. -/
def State.issue (s : State) (op : Byte) : State :=
  { s with op := op, latched := s.regs, status := Status.running, stage := .issued }

/-- Completion (R211): the results and the flags are written in one step. The working state is unspecified
from here on (R48). -/
def State.complete (s : State) (d : Detail) (len bits : Nat) (base : Addr) : State :=
  { s with
    res := ⟨BitVec.ofNat 32 len, BitVec.ofNat 35 bits, base⟩
    status := Status.completed d
    stage := .idle
    work := Config.freeWork s.draws
    draws := s.draws + 1 }

/-- A successful completion (R211). -/
def State.succeed (s : State) (len bits : Nat) (base : Addr) : State := s.complete .none len bits base

/-- Every byte of the destination window of command `c` is unspecified, if `c` writes one: what a failure and a reset
leave of it (R222(a), R251), whatever the command had done (notes/assumptions/4.md, 15.md). -/
def State.spoilDst (s : State) (c : Instr) : State := if usesDst c then s.spoil s.latched.dst.clipped else s

/-- `raise E(d)` in command `c` (R12, R222), this hardware's only exception: the command ends with the error's code
and detail and all results 0, and its destination window is unspecified. -/
def State.fail (s : State) (c : Instr) (d : Detail) : State := (s.spoilDst c).complete d 0 0 0

/-- `CheckArgs(c)`, then the command's own start (R225). -/
def State.afterChecks (s : State) (c : Instr) (start : State → State) : State :=
  match checkArgs c s.latched with
  | some d => s.fail c d
  | none => start s

end Sys2Proof.Machine
end

