-- ==== Sys2Proof/Machine/Control.lean ====
section
/-! DEFINITION. Command control: HUF_RELEASE and the reserved opcodes (43_control.md R212, R213). -/

namespace Sys2Proof.Machine

/-- The region of `LIVE` with this base (R38, R213). -/
def State.liveRegion (s : State) (base : Addr) : Option Window := s.live.find? fun w => w.base == base.toNat

/-- `HUF_RELEASE` (R213): the null base releases nothing; any other base is sent to the allocator and leaves
`LIVE`, and one that is not in `LIVE` breaks HD4. The region's bytes are stale from here on (HD5, R256). The
command is one part, so no reset falls between its request and its completion (notes/assumptions/15.md). -/
def hufRelease (s : State) : State :=
  let base := s.latched.srcBase
  if base = 0 then s.succeed 0 0 0
  else
    let region := s.liveRegion base
    let s := s.requestRelease base
    { s with
      hostFault := s.hostFault || region.isNone
      live := s.live.filter fun w => w.base != base.toNat
      released := region.elim [] (fun w => List.range' w.base w.len) ++ s.released }.succeed 0 0 0

/-- A reserved opcode: `raise InvalidArgument(ILLEGAL_OP)` (R212). -/
def reservedOpcodeStep (s : State) : State := s.fail (.reservedOp s.op) .illegalOp

end Sys2Proof.Machine
end

