-- ==== Sys2Proof/Machine/BitStream.lean ====
section
/-! DEFINITION. Payload bits: the bit order, the bit packer and the codeword walk (30_encoding.md R92 to R94;
41_huffman_encode.md R151; 42_huffman_decode.md R186, R187): functions of bits alone. -/

namespace Sys2Proof.Machine

/-! ### Packing -/

/-- A codeword's bits, most significant first (R93). -/
def codeBits (len : Nat) (code : CodeWord) : List Bool := (List.range len).map fun t => code.getLsbD (len - 1 - t)

/-- The bit packer as it runs (R45, R151), with the bytes written so far. -/
structure Packer where
  acc : Byte
  nacc : Nat
  bpos : Nat
  out : List Byte
  deriving DecidableEq, Repr

/-- The packer at the start (R151). -/
def Packer.start : Packer := ⟨0, 0, 0, []⟩

/-- One bit goes in at bit `7 - nacc`; a full byte is written (R151). -/
def Packer.push (p : Packer) (bit : Bool) : Packer :=
  let acc := if bit then p.acc ||| BitVec.twoPow 8 (7 - p.nacc) else p.acc
  if p.nacc + 1 = 8 then ⟨0, 0, p.bpos + 1, p.out ++ [acc]⟩ else ⟨acc, p.nacc + 1, p.bpos + 1, p.out⟩

/-- A part-filled byte is written; its low bits are the zero padding (R151, R94). -/
def Packer.flush (p : Packer) : Packer := if 0 < p.nacc then { p with out := p.out ++ [p.acc] } else p

/-- The packer after a whole payload (R151). -/
def packBits (bits : List Bool) : Packer := (bits.foldl Packer.push Packer.start).flush

/-- Payload bit `j` of a byte function: bit `7 - (j mod 8)` of byte `floor(j / 8)` (R92, R186). -/
def payloadBit (byte : Nat → Byte) (j : Nat) : Bool := (byte (j / 8)).getLsbD (7 - j % 8)

/-! ### Walking a codeword -/

/-- How `DecodeSymbol()` ends (R187). -/
inductive Walk where
  /-- a codeword of `depth` bits and value `code` matched symbol `sym` -/
  | symbol (sym depth code : Nat)
  /-- `MAXLEN` bits were read with no match -/
  | invalid
  /-- the bit budget ended inside a codeword -/
  | truncated
  deriving DecidableEq, Repr

/-- `DecodeSymbol()` with `n` bits of the budget left, at payload position `bpos`, after `depth` bits of value
`code` (R187). The test for an invalid codeword comes first. -/
def walkCode (symbolAt : Nat → Nat → Option Nat) (maxLen : Nat) (bit : Nat → Bool) :
    (n bpos depth code : Nat) → Walk
  | 0, _, depth, _ => if depth = maxLen then .invalid else .truncated
  | n + 1, bpos, depth, code =>
    if depth = maxLen then .invalid
    else
      let code := 2 * code + (bit bpos).toNat
      match symbolAt (depth + 1) code with
      | some sym => .symbol sym (depth + 1) code
      | none => walkCode symbolAt maxLen bit n (bpos + 1) (depth + 1) code

end Sys2Proof.Machine
end

