-- ==== Sys2Proof/Machine/HuffmanCode.lean ====
section
/-! DEFINITION. The Huffman code: frequencies, tree, code lengths, canonical codes, header validity and decode table
(41_huffman_encode.md R140 to R149; 42_huffman_decode.md R183 to R185): functions of bytes and lengths alone. -/

namespace Sys2Proof.Machine

/-! ### Frequencies and the tree -/

/-- `FREQ[s]` for `s` in `[0, 256)` (R140). -/
def freqOf (input : List Byte) : List Nat :=
  (List.range Config.nSym).map fun s => input.countP fun b => b.toNat == s

/-- A node of the tree with what is below it (R142, R43): a leaf's key is its symbol, an internal node's key is
`256 + m` in order of creation (R141, R143). -/
inductive Tree where
  | leaf (sym weight : Nat)
  | internal (key weight : Nat) (child0 child1 : Tree)
  deriving DecidableEq, Repr

/-- The key of a node (R141, R143). -/
def Tree.key : Tree → Nat
  | .leaf sym _ => sym
  | .internal key _ _ _ => key

/-- The weight of a node (R141, R142). -/
def Tree.weight : Tree → Nat
  | .leaf _ weight => weight
  | .internal _ weight _ _ => weight

/-- The priority order: the lexicographic order on `(weight, key)` (R143). -/
def Tree.before (a b : Tree) : Bool := a.weight < b.weight || (a.weight == b.weight && a.key < b.key)

/-- The live node with the least `(weight, key)`, and the other live nodes (R142, R143). -/
def extractLeast : List Tree → Option (Tree × List Tree)
  | [] => none
  | t :: rest =>
    match extractLeast rest with
    | none => some (t, [])
    | some (least, others) => if t.before least then some (t, least :: others) else some (least, t :: others)

/-- The merges of `BuildTree()` (R142): `m` internal nodes exist, `live` is the priority set, and `fuel` is at
least its size. The first node extracted becomes `child0`. -/
def mergeAll : (fuel m : Nat) → (live : List Tree) → Option Tree
  | 0, _, live => live.head?
  | fuel + 1, m, live =>
    match extractLeast live with
    | none => none
    | some (a, live) =>
      match extractLeast live with
      | none => some a
      | some (b, live) => mergeAll fuel (m + 1) (.internal (256 + m) (a.weight + b.weight) a b :: live)

/-- The leaf set: one leaf per symbol that occurs (R141). -/
def leavesOf (freq : List Nat) : List Tree :=
  (freq.zipIdx.filter fun p => p.1 ≠ 0).map fun p => .leaf p.2 p.1

/-- The root `BuildTree()` leaves (R142). -/
def buildTree (freq : List Nat) : Option Tree := mergeAll (leavesOf freq).length 0 (leavesOf freq)

/-- The depth of the leaf of symbol `s` below the root (R145). -/
def Tree.depth? (s : Nat) : Tree → Option Nat
  | .leaf sym _ => if sym = s then some 0 else none
  | .internal _ _ child0 child1 => ((child0.depth? s).or (child1.depth? s)).map (· + 1)

/-- The code length a root gives symbol `s`: 1 for a lone leaf, else the leaf's depth, and 0 for an absent symbol
(R144, R145). -/
def Tree.lengthOf (root : Tree) (s : Nat) : Nat :=
  match root with
  | .leaf sym _ => if sym = s then 1 else 0
  | .internal key weight child0 child1 => ((Tree.internal key weight child0 child1).depth? s).getD 0

/-- `LEN[s]` for `s` in `[0, 256)`; all 0 when no symbol occurs (R144, R145). -/
def codeLengths (freq : List Nat) : List Nat :=
  match buildTree freq with
  | none => List.replicate Config.nSym 0
  | some root => (List.range Config.nSym).map root.lengthOf

/-- The nodes of a tree as the arena holds them once it is built; only the root is still live (R43, R142). -/
def Tree.arena (live : Bool) : Tree → List ArenaNode
  | .leaf sym weight => [⟨BitVec.ofNat 9 sym, BitVec.ofNat 32 weight, .leaf (BitVec.ofNat 8 sym), live⟩]
  | .internal key weight child0 child1 =>
    ⟨BitVec.ofNat 9 key, BitVec.ofNat 32 weight,
        .internal (BitVec.ofNat 9 child0.key) (BitVec.ofNat 9 child1.key), live⟩
      :: (child0.arena false ++ child1.arena false)

/-- The payload bit count `B = sum over s of FREQ[s] * LEN[s]` (R149). -/
def payloadBits (freq lens : List Nat) : Nat := ((freq.zip lens).map fun p => p.1 * p.2).sum

/-! ### Canonical codes -/

/-- A present symbol with its code length and its code. -/
structure CodeEntry where
  sym : Nat
  len : Nat
  code : Nat
  deriving DecidableEq, Repr

/-- The present symbols as `(length, symbol)`, by symbol (R147). -/
def presentOf (lens : List Nat) : List (Nat × Nat) := lens.zipIdx.filter fun p => p.1 ≠ 0

/-- The present symbols by `(length, symbol)`: lengths 1 to 255 ascending, symbols ascending in each (R147). -/
def canonOrder (lens : List Nat) : List (Nat × Nat) :=
  (List.range' 1 Config.maxCodeLen).flatMap fun l => (presentOf lens).filter fun p => p.1 = l

/-- The codes after a symbol of length `prevLen` and code `code`: each is the code before it plus 1, shifted left
when the length grows (R147). -/
def canonFrom (code prevLen : Nat) : List (Nat × Nat) → List CodeEntry
  | [] => []
  | (l, s) :: rest =>
    let next := (code + 1) <<< (l - prevLen)
    ⟨s, l, next⟩ :: canonFrom next l rest

/-- `Canon(LEN)` (R147): the first symbol takes the all-zero code of its length. -/
def canon (lens : List Nat) : List CodeEntry :=
  match canonOrder lens with
  | [] => []
  | (l, s) :: rest => ⟨s, l, 0⟩ :: canonFrom 0 l rest

/-- `CODE[0..255]` (R44, R147); 0 where the symbol is absent, an entry no rule gives a meaning
(notes/assumptions/24.md). -/
def codeTable (lens : List Nat) : Vector CodeWord 256 :=
  let entries := canon lens
  tabulate 256 fun s => BitVec.ofNat 255 (((entries.find? fun e => e.sym == s).map (·.code)).getD 0)

/-! ### Header validity and decoder tables -/

/-- The Kraft sum of the present lengths, times `2^255` (R183). -/
def kraftSum (lens : List Nat) : Nat := ((presentOf lens).map fun p => 2 ^ (255 - p.1)).sum

/-- `KraftOK(LEN)` (R183). -/
def kraftOK (lens : List Nat) : Bool := kraftSum lens ≤ 2 ^ 255

/-- `Match(depth, code)`: the symbol with `LEN[s] = depth` and `CODE[s] = code`, if one exists (R185). -/
def matchCode (lens : List Nat) (codes : List CodeWord) (depth code : Nat) : Option Nat :=
  ((lens.zip codes).zipIdx.find? fun p => p.1.1 == depth && p.1.1 != 0 && p.1.2.toNat == code).map (·.2)

/-- The largest code length, 0 for the all-zero header (R185). -/
def maxLenOf (lens : List Nat) : Nat := lens.foldl max 0

/-- The number of symbols of length `l` (R185). -/
def blCountOf (lens : List Nat) (l : Nat) : Nat := lens.countP (· == l)

/-- The number of present symbols shorter than `l` (R185). -/
def indexOf (lens : List Nat) (l : Nat) : Nat := lens.countP fun n => n ≠ 0 && n < l

/-- `BuildDecodeTables()` (R185). Entries the rule leaves unset are 0 (notes/assumptions/24.md). -/
def buildDecodeTables (lens : List Nat) : DecTables :=
  let order := canonOrder lens
  let entries := canon lens
  { blCount := tabulate 255 fun i => BitVec.ofNat 9 (blCountOf lens (i + 1))
    first := tabulate 255 fun i =>
      BitVec.ofNat 255 (((entries.find? fun e => e.len == i + 1).map (·.code)).getD 0)
    index := tabulate 255 fun i => BitVec.ofNat 9 (indexOf lens (i + 1))
    sorted := tabulate 256 fun i => BitVec.ofNat 8 ((order[i]?.map (·.2)).getD 0)
    maxLen := BitVec.ofNat 8 (maxLenOf lens) }

/-- `Match(d, c)` by the length-indexed tables (R185). -/
def tableMatch (t : DecTables) (d c : Nat) : Option Nat :=
  if d = 0 then none
  else
    let count := (t.blCount.toList.getD (d - 1) 0).toNat
    let first := (t.first.toList.getD (d - 1) 0).toNat
    let index := (t.index.toList.getD (d - 1) 0).toNat
    if 0 < count ∧ first ≤ c ∧ c < first + count then
      some ((t.sorted.toList.getD (index + c - first) 0).toNat)
    else none

end Sys2Proof.Machine
end

