-- ==== Sys2Proof/Machine/HufEncode.lean ====
section
/-! DEFINITION. HUF_ENCODE, one sub-block at a time (41_huffman_encode.md R140 to R155). -/

namespace Sys2Proof.Machine

/-- `FREQ` as numbers. -/
def Work.freqs (w : Work) : List Nat := w.freq.toList.map BitVec.toNat

/-- `LEN` as numbers. -/
def Work.lens (w : Work) : List Nat := w.len.toList.map BitVec.toNat

/-- HUF_ENCODE from issue: the checks (R150). -/
def beginHufEncode (s : State) : State := s.afterChecks .hufEncode fun s => { s with stage := .hufCount }

/-- The frequency accumulator, `FreqCount()` (R140). -/
def hufCountStep (s : State) : State :=
  let freq := freqOf s.srcBytes
  { s with
    stage := .hufTree
    work := { s.work with freq := tabulate 256 fun i => BitVec.ofNat 32 (freq.getD i 0) } }

/-- What the tree builder leaves in the arena: the tree, its root alone still live (R142). With fewer than two symbols
`BuildTree` is not run (R144), and the arena keeps its unspecified contents (R48; notes/assumptions/24.md). -/
def arenaAfter (freq : List Nat) (before : List ArenaNode) : List ArenaNode :=
  if (leavesOf freq).length < 2 then before else (buildTree freq).elim before (Tree.arena true)

/-- The tree builder and the code lengths (R141 to R145). -/
def hufTreeStep (s : State) : State :=
  let freq := s.work.freqs
  let lens := codeLengths freq
  { s with
    stage := .hufCode
    work := { s.work with
      arena := arenaAfter freq s.work.arena
      len := tabulate 256 fun i => BitVec.ofNat 8 (lens.getD i 0) } }

/-- The canonical code assignment, `CODE <- Canon(LEN)` (R147, R150). -/
def hufCodeStep (s : State) : State :=
  { s with stage := .hufAlloc, work := { s.work with code := codeTable s.work.lens } }

/-- `B`, the payload bit count (R149). -/
def Work.payloadBitCount (w : Work) : Nat := payloadBits w.freqs w.lens

/-- `size = 256 + cdiv(B, 8)` (R154). -/
def Work.artifactSize (w : Work) : Nat := Config.hdrLen + cdiv w.payloadBitCount 8

/-- Whether a window meets one of a command that another instance is running, which breaks HD6 (R230, R256). -/
def State.meetsOther (s : State) (w : Window) : Bool := s.otherWindows.any w.overlaps

/-- The exact-size allocation: one request; `Fail` ends the command (R154). A region that meets a window of another
instance's running command breaks HD6 (R230). -/
def hufAllocStep (s : State) : State :=
  let size := s.work.artifactSize
  match s.allocAnswer size with
  | some base =>
    { s.requestAlloc size with
      stage := .hufHeader base size
      hostFault := s.hostFault || s.meetsOther ⟨base.toNat, size⟩ }
  | none => (s.requestAlloc size).fail .hufEncode .allocFail

/-- The code serializer: artifact byte `s` is `LEN[s]` (R148). -/
def hufHeaderStep (base : Addr) (size : Nat) (s : State) : State :=
  { s.store base.toNat s.work.len.toList with stage := .hufPack base size }

/-- The payload's bits: each source byte's codeword, in input order, with no gap (R93, R151). -/
def Work.payload (w : Work) (input : List Byte) : List Bool :=
  input.flatMap fun b => codeBits (w.len[b.toNat]'b.isLt).toNat (w.code[b.toNat]'b.isLt)

/-- The bit packer, `Pack(base)` (R151). -/
def hufPackStep (base : Addr) (size : Nat) (s : State) : State :=
  let p := packBits (s.work.payload s.srcBytes)
  let s := s.store (base.toNat + Config.hdrLen) p.out
  { s with
    stage := .hufDone base size
    work := { s.work with
      pack := ⟨p.acc, BitVec.ofNat 3 p.nacc, BitVec.ofNat 35 p.bpos, BitVec.ofNat 32 p.out.length⟩ } }

/-- The region is handed to the host and the command completes (R72, R150, R155). Its bytes belong to the host again,
so they are no longer those of a released region (HD5; notes/assumptions/13.md). -/
def hufDoneStep (base : Addr) (size : Nat) (s : State) : State :=
  let region : Window := ⟨base.toNat, size⟩
  { s with
    live := region :: s.live
    released := s.released.filter fun x => !region.has x }.succeed size s.work.payloadBitCount base

end Sys2Proof.Machine
end

