-- ==== Sys2Proof/Machine/HufDecode.lean ====
section
/-! DEFINITION. HUF_DECODE: framing checks, code deserializer and bit unpacker (42_huffman_decode.md R180 to R193). -/

namespace Sys2Proof.Machine

/-- HUF_DECODE from issue: the argument checks, then the framing checks (R192, R180, R181). -/
def beginHufDecode (s : State) : State :=
  s.afterChecks .hufDecode fun s =>
    if s.latched.srcLen.toNat < Config.hdrLen then s.fail .hufDecode .hufShort
    else if 8 * (s.latched.srcLen.toNat - Config.hdrLen) < s.latched.srcBits.toNat then s.fail .hufDecode .bitsRange
    else { s with stage := .hufRead }

/-- The header is read into `LEN` (R182). -/
def hufReadStep (s : State) : State :=
  let header := s.mem.readBytes s.latched.srcBase.toNat Config.hdrLen
  { s with stage := .hufCheck, work := { s.work with len := tabulate 256 fun i => header.getD i 0 } }

/-- The header is checked; the codes and tables are regenerated from it (R183 to R185), and `bpos <- 0; opos <- 0`
(R192). What R192 does not initialise keeps its unspecified value (R48; notes/assumptions/24.md). -/
def hufCheckStep (s : State) : State :=
  let lens := s.work.lens
  if kraftOK lens then
    { s with
      stage := .hufWalk
      work := { s.work with
        code := codeTable lens
        tables := buildDecodeTables lens
        unpack := { s.work.unpack with bpos := 0, opos := 0 } } }
  else s.fail .hufDecode .hufBadHeader

/-- `GetBit(j)` (R186). -/
def getBit (s : State) (j : Nat) : Bool :=
  payloadBit (fun k => s.mem.read (s.latched.srcBase.toNat + Config.hdrLen + k)) j

/-- `DecodeSymbol()` from the current payload position (R187). -/
def decodeSymbol (s : State) : Walk :=
  let bpos := s.work.unpack.bpos.toNat
  walkCode (matchCode s.work.lens s.work.code.toList) s.work.tables.maxLen.toNat (getBit s)
    (s.latched.srcBits.toNat - bpos) bpos 0 0

/-- One turn of HUF_DECODE's loop: the next symbol, tested against the capacity once it is complete, or
completion when the bit budget is used up (R188, R192, R193). -/
def hufWalkStep (s : State) : State :=
  let u := s.work.unpack
  if u.bpos.toNat < s.latched.srcBits.toNat then
    match decodeSymbol s with
    | .invalid => s.fail .hufDecode .hufInvalidCodeword
    | .truncated => s.fail .hufDecode .hufTruncatedCode
    | .symbol sym depth code =>
      if u.opos.toNat = s.latched.dstCap.toNat then s.fail .hufDecode .outCapacity
      else
        let s := s.store (s.latched.dstBase.toNat + u.opos.toNat) [BitVec.ofNat 8 sym]
        { s with
          work := { s.work with
            unpack :=
              { bpos := BitVec.ofNat 35 (u.bpos.toNat + depth)
                code := BitVec.ofNat 255 code
                depth := BitVec.ofNat 8 depth
                opos := BitVec.ofNat 32 (u.opos.toNat + 1) } } }
  else s.succeed u.opos.toNat 0 0

end Sys2Proof.Machine
end

