-- ==== Sys2Proof/Machine/RlePackets.lean ====
section
/-! DEFINITION. How the RLE encoder splits its input into packets (40_rle.md R110, R114, R115): functions of the
bytes alone. -/

namespace Sys2Proof.Machine

/-- `RunLen` at the head of the remaining input: the bytes equal to the first, at most `MAX_RUN`, never past
the end of the input (R110). -/
def runLen : List Byte → Nat
  | [] => 0
  | v :: rest => 1 + ((rest.take (Config.maxRun - 1)).takeWhile (· == v)).length

/-- How many bytes a Literal packet takes from the head of the remaining input, with room for `room` more:
it stops at the end of input, when full, and before a qualifying run (R115). -/
def litLen : (room : Nat) → List Byte → Nat
  | 0, _ => 0
  | _ + 1, [] => 0
  | room + 1, v :: rest => if Config.tRun ≤ runLen (v :: rest) then 0 else 1 + litLen room rest

/-- The packet the encoder emits at the head of the remaining input: a Run when the run qualifies, else a
Literal (R114). -/
def nextPacket (input : List Byte) : Packet :=
  if Config.tRun ≤ runLen input then .run (runLen input) (input.headD 0)
  else .lit (input.take (litLen Config.maxLit input))

/-- The packets of a whole input, in order (R111); `fuel` is at least the input's length. -/
def packetsOf : (fuel : Nat) → List Byte → List Packet
  | 0, _ => []
  | _ + 1, [] => []
  | fuel + 1, input =>
    let p := nextPacket input
    p :: packetsOf fuel (input.drop p.span.length)

/-- The packets RLE_ENCODE makes of an input (R111). -/
def rlePackets (input : List Byte) : List Packet := packetsOf input.length input

end Sys2Proof.Machine
end

