-- ==== Sys2Proof/Machine/Rle.lean ====
section
/-! DEFINITION. The RLE codec: the encoder's packet steps (40_rle.md R111 to R116) and the decoder's packets LIT and
RUN (R120 to R126). -/

namespace Sys2Proof.Machine

/-! ### Encoder -/

/-- RLE_ENCODE from issue to its first packet: the checks, then `ipos <- 0; opos <- 0` (R111). `lit_start` and `r`,
which R111 does not initialise, keep their unspecified values (R48; notes/assumptions/24.md). -/
def beginRleEncode (s : State) : State :=
  s.afterChecks .rleEncode fun s =>
    { s with stage := .rleEncode, work := { s.work with rleEnc := { s.work.rleEnc with ipos := 0, opos := 0 } } }

/-- Emits one packet at `opos` if all of it fits in `DST_CAP`, else fails (R112, R113). The sum is exact. -/
def emitPacket (s : State) (p : Packet) : State :=
  let e := s.work.rleEnc
  let bytes := p.encode
  if s.latched.dstCap.toNat < e.opos.toNat + bytes.length then s.fail .rleEncode .outCapacity
  else
    let s := s.store (s.latched.dstBase.toNat + e.opos.toNat) bytes
    { s with
      work := { s.work with
        rleEnc :=
          { e with
            ipos := BitVec.ofNat 32 (e.ipos.toNat + p.span.length)
            opos := BitVec.ofNat 32 (e.opos.toNat + bytes.length) } } }

/-- The run measured at `ipos`, and where a Literal starting there starts, noted in the working state (R40). Before a
Run, `lit_start` keeps what it held (notes/assumptions/24.md). -/
def noteRun (s : State) (input : List Byte) : State :=
  let e := s.work.rleEnc
  let litStart := if Config.tRun ≤ runLen input then e.litStart else e.ipos
  { s with work := { s.work with rleEnc := { e with r := BitVec.ofNat 8 (runLen input), litStart := litStart } } }

/-- One turn of RLE_ENCODE's loop: the next packet, or completion at the end of input (R111, R116). -/
def rleEncodeStep (s : State) : State :=
  let e := s.work.rleEnc
  if e.ipos.toNat < s.latched.srcLen.toNat then
    let input := s.srcFrom e.ipos.toNat
    emitPacket (noteRun s input) (nextPacket input)
  else s.succeed e.opos.toNat 0 0

/-! ### Decoder -/

/-- RLE_DECODE from issue to its first packet: the checks, then `ipos <- 0; opos <- 0` (R120). `ctl`, which R120 does
not initialise, keeps its unspecified value (R48; notes/assumptions/24.md). -/
def beginRleDecode (s : State) : State :=
  s.afterChecks .rleDecode fun s =>
    { s with stage := .rleDecode, work := { s.work with rleDec := { s.work.rleDec with ipos := 0, opos := 0 } } }

/-- The decoder moves past a packet of `size` stream bytes that wrote `bytes` (R121, R122). -/
def advanceDecoder (s : State) (size : Nat) (bytes : List Byte) : State :=
  let d := s.work.rleDec
  let s := s.store (s.latched.dstBase.toNat + d.opos.toNat) bytes
  { s with
    work := { s.work with
      rleDec :=
        { d with
          ipos := BitVec.ofNat 32 (d.ipos.toNat + size)
          opos := BitVec.ofNat 32 (d.opos.toNat + bytes.length) } } }

/-- A packet with `payload` payload bytes that decodes to `count` bytes: the truncation test, then the capacity
test, before anything is written (R123, R124). -/
def guardPacket (s : State) (payload count : Nat) (go : State → State) : State :=
  let d := s.work.rleDec
  if s.latched.srcLen.toNat < d.ipos.toNat + 1 + payload then s.fail .rleDecode .rleTruncated
  else if s.latched.dstCap.toNat < d.opos.toNat + count then s.fail .rleDecode .outCapacity
  else go s

/-- `DecodeLit(count)`: copies the payload (R121). -/
def decodeLit (count : Nat) (s : State) : State :=
  guardPacket s count count fun s =>
    let d := s.work.rleDec
    advanceDecoder s (1 + count) (s.mem.readBytes (s.latched.srcBase.toNat + d.ipos.toNat + 1) count)

/-- `DecodeRun(count)`: writes the one payload byte `count` times (R122). -/
def decodeRun (count : Nat) (s : State) : State :=
  guardPacket s 1 count fun s =>
    let d := s.work.rleDec
    advanceDecoder s 2 (List.replicate count (s.mem.read (s.latched.srcBase.toNat + d.ipos.toNat + 1)))

/-- Whether the stream has a control byte left (R120). -/
def moreStream (s : State) : Bool := s.work.rleDec.ipos.toNat < s.latched.srcLen.toNat

/-- The control byte at `ipos` (R120). -/
def ctlAt (s : State) : Byte := s.mem.read (s.latched.srcBase.toNat + s.work.rleDec.ipos.toNat)

/-- The control byte is read into `ctl` (R120, R41). -/
def fetchCtl (s : State) : State :=
  { s with work := { s.work with rleDec := { s.work.rleDec with ctl := ctlAt s } } }

/-- What a packet does (R120); the commands are no packets. -/
def runPacket (i : Instr) (s : State) : State :=
  match i with
  | .lit countM1 => decodeLit (packetCount countM1) s
  | .run countM1 => decodeRun (packetCount countM1) s
  | .rleEncode | .rleDecode | .hufEncode | .hufDecode | .hufRelease | .reservedOp _ => s

/-- One turn of RLE_DECODE's loop: the next packet, or completion at the end of the stream (R120, R126). -/
def rleDecodeStep (s : State) : State :=
  if moreStream s then runPacket (decodeCtl (ctlAt s)) (fetchCtl s)
  else s.succeed s.work.rleDec.opos.toNat 0 0

end Sys2Proof.Machine
end

