-- ==== Sys2Proof/Machine/Stages.lean ====
section
/-! DEFINITION. The running command, one sub-block at a time and as a whole (00_scope.md R2, R6; 20_memory.md R67). -/

namespace Sys2Proof.Machine

/-- A command's own start, from the state its issue left (R210). HUF_RELEASE and the reserved opcodes are done at
once; a packet is no command. -/
def begin (i : Instr) (s : State) : State :=
  match i with
  | .rleEncode => beginRleEncode s
  | .rleDecode => beginRleDecode s
  | .hufEncode => beginHufEncode s
  | .hufDecode => beginHufDecode s
  | .hufRelease => hufRelease s
  | .reservedOp _ => reservedOpcodeStep s
  | .lit _ | .run _ => s

/-- What the running command does next. -/
def stageStep (s : State) : State :=
  match s.stage with
  | .idle => s
  | .issued => begin (decodeOpcode s.op) s
  | .rleEncode => rleEncodeStep s
  | .rleDecode => rleDecodeStep s
  | .hufCount => hufCountStep s
  | .hufTree => hufTreeStep s
  | .hufCode => hufCodeStep s
  | .hufAlloc => hufAllocStep s
  | .hufHeader base size => hufHeaderStep base size s
  | .hufPack base size => hufPackStep base size s
  | .hufDone base size => hufDoneStep base size s
  | .hufRead => hufReadStep s
  | .hufCheck => hufCheckStep s
  | .hufWalk => hufWalkStep s

/-- At most `n` stage steps, stopping when the command has completed. -/
def runStages : Nat → State → State
  | 0, s => s
  | n + 1, s => if s.stage = .idle then s else runStages n (stageStep s)

/-- More stage steps than any command has: one per source byte or payload bit at most, and the fixed ones (R215). -/
def stageBound (s : State) : Nat := s.latched.srcLen.toNat + s.latched.srcBits.toNat + 16

/-- The running command carried to its completion (R67, R262). -/
def finish (s : State) : State := runStages (stageBound s) s

end Sys2Proof.Machine
end

