-- ==== Sys2Proof/Machine/Commands.lean ====
section
/-! DEFINITION. The meaning of each instruction: a command's whole transaction (00_scope.md R6), a packet's effect
on the running RLE_DECODE. -/

namespace Sys2Proof.Machine

/-- `RLE_ENCODE` (R111). -/
def execRleEncode (s : State) : Host.Outcome State Fault Refusal := .next (finish (beginRleEncode s))

/-- `RLE_DECODE` (R120). -/
def execRleDecode (s : State) : Host.Outcome State Fault Refusal := .next (finish (beginRleDecode s))

/-- `HUF_ENCODE` (R150). -/
def execHufEncode (s : State) : Host.Outcome State Fault Refusal := .next (finish (beginHufEncode s))

/-- `HUF_DECODE` (R192). -/
def execHufDecode (s : State) : Host.Outcome State Fault Refusal := .next (finish (beginHufDecode s))

/-- `HUF_RELEASE` (R213). -/
def execHufRelease (s : State) : Host.Outcome State Fault Refusal := .next (hufRelease s)

/-- A reserved opcode (R212); its own value plays no part. -/
def execReservedOp (_ : Byte) (s : State) : Host.Outcome State Fault Refusal := .next (reservedOpcodeStep s)

/-- A packet acts on windows that lie in the address space, as CheckArgs leaves them (R62, R225;
notes/assumptions/14.md). -/
def inWindows (s : State) (go : State → State) : Host.Outcome State Fault Refusal :=
  if s.latched.src.inSpace && s.latched.dst.inSpace then .next (go s) else .fault .outsideMemory

/-- `LIT`: `DecodeLit(count)` (R121). -/
def execLit (countM1 : BitVec 7) (s : State) : Host.Outcome State Fault Refusal :=
  inWindows s (decodeLit (packetCount countM1))

/-- `RUN`: `DecodeRun(count)` (R122). -/
def execRun (countM1 : BitVec 7) (s : State) : Host.Outcome State Fault Refusal :=
  inWindows s (decodeRun (packetCount countM1))

end Sys2Proof.Machine
end

