-- ==== Sys2Proof/Machine/Dispatch.lean ====
section
/-! DEFINITION. One arm per instruction of spec/opcode_table.json. -/

namespace Sys2Proof.Machine

def exec (i : Instr) (s : State) : Host.Outcome State Fault Refusal :=
  match i with
  | .rleEncode => Sys2Proof.Machine.execRleEncode s
  | .rleDecode => Sys2Proof.Machine.execRleDecode s
  | .hufEncode => Sys2Proof.Machine.execHufEncode s
  | .hufDecode => Sys2Proof.Machine.execHufDecode s
  | .hufRelease => Sys2Proof.Machine.execHufRelease s
  | .reservedOp op => Sys2Proof.Machine.execReservedOp op s
  | .lit countM1 => Sys2Proof.Machine.execLit countM1 s
  | .run countM1 => Sys2Proof.Machine.execRun countM1 s

end Sys2Proof.Machine
end

