-- ==== Sys2Proof/Machine/HostPort.lean ====
section
/-! DEFINITION. What the outside world does to the core: register accesses (30_encoding.md R80 to R82; 10_state.md R22,
R33, R34), buffer-memory accesses, the reset input (70_reset_and_hazards.md R250 to R252) and the host duties
(R256). -/

namespace Sys2Proof.Machine

/-! ### Register map -/

/-- The registers of the block and its reserved slots (R80). -/
inductive Reg where
  | cmd | status | srcBase | srcLen | srcBits | dstBase | dstCap | resLen | resBits | resBase | reserved
  deriving DecidableEq, Repr

/-- The register of the slot a byte offset falls in (R80, R81). -/
def regAt (offset : Nat) : Reg :=
  match offset / 8 with
  | 0 => .cmd
  | 1 => .status
  | 2 => .srcBase
  | 3 => .srcLen
  | 4 => .srcBits
  | 5 => .dstBase
  | 6 => .dstCap
  | 7 => .resLen
  | 8 => .resBits
  | 9 => .resBase
  | _ => .reserved

/-- The accesses the interface allows: 64-bit at a multiple of 8, 32-bit at a multiple of 4, inside offsets 0x00
to 0x5F (R81). -/
def legalAccess (width offset : Nat) : Bool :=
  offset < 0x60 && ((width == 64 && offset % 8 == 0) || (width == 32 && offset % 4 == 0))

/-- The operands the host reads: the latched ones while a command runs (R33). -/
def State.visibleOperands (s : State) : Operands := if s.status.busy then s.latched else s.regs

/-- The 64-bit slot of a register, zero-extended (R80); reserved slots read as 0. -/
def State.slot (s : State) : Reg → Slot
  | .cmd => s.op.setWidth 64
  | .status => s.status.word.setWidth 64
  | .srcBase => s.visibleOperands.srcBase.setWidth 64
  | .srcLen => s.visibleOperands.srcLen.setWidth 64
  | .srcBits => s.visibleOperands.srcBits.setWidth 64
  | .dstBase => s.visibleOperands.dstBase.setWidth 64
  | .dstCap => s.visibleOperands.dstCap.setWidth 64
  | .resLen => s.res.len.setWidth 64
  | .resBits => s.res.bits.setWidth 64
  | .resBase => s.res.base.setWidth 64
  | .reserved => 0

/-- Whether an access reaches bits [31:0] of its slot (R81). -/
def reachesLow (offset : Nat) : Bool := offset % 8 == 0

/-- What a legal read returns: the slot, or the 32-bit half the offset names (R81). -/
def State.readReg (s : State) (width offset : Nat) : Slot :=
  let v := s.slot (regAt offset)
  if width = 64 then v
  else if reachesLow offset then (v.extractLsb' 0 32).setWidth 64
  else (v.extractLsb' 32 32).setWidth 64

/-- The slot after a legal write: all of it, or the half the offset names (R81). -/
def mergeWrite (width offset : Nat) (old value : Slot) : Slot :=
  if width = 64 then value
  else if reachesLow offset then old.extractLsb' 32 32 ++ value.extractLsb' 0 32
  else value.extractLsb' 0 32 ++ old.extractLsb' 0 32

/-! ### Host duties -/

/-- Whether an issue of command `c` breaks HD3 (windows of plain memory), HD5 (no released source for a decode) or
HD6 (no window another instance is running on) (R256; notes/assumptions/13.md). -/
def issueBreach (s : State) (c : Instr) (o : Operands) : Bool :=
  let windows := commandWindows c o
  windows.any (fun w => s.nonPlain.any w.overlaps || s.meetsOther w)
    || ((c == .rleDecode || c == .hufDecode) && s.released.any o.src.has)

/-- The region a running HUF_ENCODE has been given so far (R63; notes/assumptions/21.md). -/
def State.allocatedRegion (s : State) : List Window :=
  match s.stage with
  | .hufHeader base size | .hufPack base size | .hufDone base size => [⟨base.toNat, size⟩]
  | .idle | .issued | .rleEncode | .rleDecode | .hufCount | .hufTree | .hufCode | .hufAlloc | .hufRead
  | .hufCheck | .hufWalk => []

/-- The windows the running command writes: its destination and its allocated region (R63). -/
def State.writeWindows (s : State) : List Window :=
  if s.status.busy then
    (if usesDst (decodeOpcode s.op) then [s.latched.dst] else []) ++ s.allocatedRegion
  else []

/-- The windows the running command reads (R63). -/
def State.readWindows (s : State) : List Window :=
  if s.status.busy && usesSrc (decodeOpcode s.op) then [s.latched.src] else []

/-! ### Accesses and reset -/

/-- A write to `CMD` that issues: `OP` is bits [7:0] of the value (R82, R210). -/
def State.issueWord (s : State) (value : Slot) : State :=
  let op := opcodeField value
  { s.issue op with hostFault := s.hostFault || issueBreach s (decodeOpcode op) s.regs }

/-- A legal write to an idle core's register (R22, R23, R34, R81): `CMD` issues when bits [31:0] are written,
an operand register keeps its width of the slot, any other register ignores it. -/
def State.writeReg (s : State) (width offset : Nat) (value : Slot) : State :=
  let r := regAt offset
  let v := mergeWrite width offset (s.slot r) value
  match r with
  | .cmd => if reachesLow offset then s.issueWord value else s
  | .srcBase => { s with regs := { s.regs with srcBase := v.setWidth 32 } }
  | .srcLen => { s with regs := { s.regs with srcLen := v.setWidth 32 } }
  | .srcBits => { s with regs := { s.regs with srcBits := v.setWidth 35 } }
  | .dstBase => { s with regs := { s.regs with dstBase := v.setWidth 32 } }
  | .dstCap => { s with regs := { s.regs with dstCap := v.setWidth 32 } }
  | .status | .resLen | .resBits | .resBase | .reserved => s

/-- A host write to the register block (R33, R81): refused if it is not a legal access (HD2), without effect while
a command runs. -/
def hostWrite (width offset : Nat) (value : Slot) (s : State) : State :=
  if legalAccess width offset then
    if s.status.busy then s else s.writeReg width offset value
  else { s with hostFault := true }

/-- A host read of the register block (R33, R81): it changes no state of the core. -/
def hostRead (width offset : Nat) (s : State) : State :=
  if legalAccess width offset then { s with busData := s.readReg width offset } else { s with hostFault := true }

/-- The host, or another agent, writes a byte of buffer memory; one in a window of the running command breaks HD1 (R256).
The byte has been written anew, so it is no longer one of a released region (HD5). DESIGN CHOICE, unsafe: HD5 names a
write by the host, and a write by another agent counts as one here (notes/assumptions/13.md). -/
def hostStore (a : Addr) (v : Byte) (s : State) : State :=
  { s.store a.toNat [v] with
    released := s.released.filter fun x => x != a.toNat
    hostFault := s.hostFault || (s.readWindows ++ s.writeWindows).any fun w => w.has a.toNat }

/-- The host reads a byte of buffer memory; one in a window the running command writes breaks HD1 (R256). -/
def hostLoad (a : Addr) (s : State) : State :=
  { s with
    busData := (s.mem.read a.toNat).setWidth 64
    hostFault := s.hostFault || s.writeWindows.any fun w => w.has a.toNat }

/-- The platform changes; a window of the running command that it now meets breaks HD3 or HD6 (R256). -/
def platformChange (otherWindows nonPlain : List Window) (s : State) : State :=
  { s with
    otherWindows := otherWindows
    nonPlain := nonPlain
    hostFault := s.hostFault ||
      (s.readWindows ++ s.writeWindows).any fun w => nonPlain.any w.overlaps || otherWindows.any w.overlaps }

/-- What reset leaves of a running command's writes: its destination window and its allocated region hold unspecified
values (R251, R252). DESIGN CHOICE, unsafe: a reset before HUF_RELEASE or the part that sends `Alloc` has run abandons
the command with nothing sent on the allocator port, and no region joins `released` (notes/assumptions/15.md). -/
def State.abandon (s : State) : State :=
  match s.stage with
  | .issued | .rleEncode | .rleDecode | .hufRead | .hufCheck | .hufWalk => s.spoilDst (decodeOpcode s.op)
  | .hufHeader base size | .hufPack base size | .hufDone base size => s.spoil ⟨base.toNat, size⟩
  | .idle | .hufCount | .hufTree | .hufCode | .hufAlloc => s

/-- The reset input (R250, R251): registers and bookkeeping take their reset values, the working state is
unspecified, buffer memory keeps what the abandoned command did not hold. A released region stays released (HD5). -/
def resetInput (s : State) : State :=
  let s := s.abandon
  { s with
    op := 0
    status := Status.reset
    regs := Operands.zero
    latched := Operands.zero
    res := Results.zero
    work := Config.freeWork s.draws
    stage := .idle
    live := []
    hostFault := false
    draws := s.draws + 1 }

end Sys2Proof.Machine
end

