-- ==== Sys2Proof/Machine/Turn.lean ====
section
/-! DEFINITION. The core's turns and the events (20_memory.md R60, R67; 70_reset_and_hazards.md R262), and how a
command word is placed for the next step. -/

namespace Sys2Proof.Machine

/-- The core carries the running command to its completion (R67, R262). A command that has just been issued is the
instruction `CMD.OP` names. An idle core stays as it is (R231). -/
def coreTurn (s : State) : Host.Outcome State Fault Refusal :=
  if s.stage = .idle then .next s
  else if s.stage = .issued then exec (decodeOpcode s.op) s
  else .next (finish s)

/-- The core does one sub-block, one packet or one symbol of the running command (R2, R67). A running RLE_DECODE
fetches the control byte at `ipos` and runs the packet it starts (R120). -/
def corePart (s : State) : Host.Outcome State Fault Refusal :=
  if s.stage = .rleDecode ∧ moreStream s then exec (decodeCtl (ctlAt s)) (fetchCtl s)
  else .next (stageStep s)

/-- What an event does; the agenda has already moved on. -/
def event (e : Event) (s : State) : Host.Outcome State Fault Refusal :=
  match e with
  | .regWrite width offset value => .next (hostWrite width offset value s)
  | .regRead width offset => .next (hostRead width offset s)
  | .memWrite a v => .next (hostStore a v s)
  | .memRead a => .next (hostLoad a s)
  | .reset => .next (resetInput s)
  | .platform otherWindows nonPlain => .next (platformChange otherWindows nonPlain s)
  | .core => coreTurn s
  | .corePart => corePart s

/-- A run with `HOSTFAULT` set has no meaning until reset (R38, R250; notes/assumptions/12.md). -/
def hostGuard (s : State) (e : Event) (go : Host.Outcome State Fault Refusal) : Host.Outcome State Fault Refusal :=
  if s.hostFault ∧ e ≠ .reset then .fault .hostDutyBroken else go

/-- The next event of the agenda; when it is used up, the core has its turn (R262; notes/assumptions/6.md). -/
def takeTurn (s : State) : Host.Outcome State Fault Refusal :=
  match s.agenda with
  | [] => hostGuard s .core (coreTurn s)
  | e :: rest => hostGuard s e (event e { s with agenda := rest })

/-- The state in which the command word `w` has just been issued and the core has the next turn
(notes/assumptions/9.md). -/
def placeCommand (s : State) (w : Nat) : State :=
  { s.issueWord (BitVec.ofNat 64 w) with hostFault := false, agenda := .core :: s.agenda }

end Sys2Proof.Machine
end

