-- ==== Sys2Proof/Safety.lean ====
section
/-! DEFINITION. The terms claims are stated in: what a step leaves alone, how a command ends, and the invariant of
every run that keeps the host duties. -/

namespace Sys2Proof.Machine

/-! ### Frames and endings -/

/-- Every byte outside the windows reads as before (R63, R222(b)). -/
def SameOutside (windows : List Window) (s t : State) : Prop :=
  ∀ a, (∀ w ∈ windows, w.has a = false) → t.mem.read a = s.mem.read a

/-- Every byte of buffer memory reads as before. -/
def SameMemory (s t : State) : Prop := ∀ a, t.mem.read a = s.mem.read a

/-- What no command changes: `CMD`, the operand registers, the latched operands, and the model's own fields that
belong to the world outside. -/
structure SameSetting (s t : State) : Prop where
  op : t.op = s.op
  regs : t.regs = s.regs
  latched : t.latched = s.latched
  otherWindows : t.otherWindows = s.otherWindows
  nonPlain : t.nonPlain = s.nonPlain
  busData : t.busData = s.busData
  agenda : t.agenda = s.agenda

/-- What only HUF_ENCODE and HUF_RELEASE change: the bookkeeping of allocated regions, with the model's own field
`released` that judges HD5 (notes/assumptions/13.md), and the allocator port. -/
structure SameRegions (s t : State) : Prop where
  live : t.live = s.live
  hostFault : t.hostFault = s.hostFault
  released : t.released = s.released
  allocAnswers : t.allocAnswers = s.allocAnswers
  portLog : t.portLog = s.portLog

/-- The command has completed with detail `d` and these results (R211). -/
structure Completed (t : State) (d : Detail) (r : Results) : Prop where
  status : t.status = Status.completed d
  res : t.res = r
  stage : t.stage = .idle

/-- The commands: the instructions of the command register (R83, R212). -/
def isCommand (i : Instr) : Bool := i.port == .commandRegister

/-- The window a command writes in memory that is its own before it starts (R63). -/
def destination (i : Instr) (o : Operands) : List Window := if usesDst i then [o.dst] else []

/-! ### What a Huffman artifact holds -/

/-- The code lengths the encoder gives an input (R140 to R145). -/
def inputLengths (input : List Byte) : List Nat := codeLengths (freqOf input)

/-- `B`, the payload bit count of an input (R149). -/
def inputBits (input : List Byte) : Nat := payloadBits (freqOf input) (inputLengths input)

/-- The artifact length of an input, `256 + cdiv(B, 8)` (R90, R154). -/
def inputSize (input : List Byte) : Nat := Config.hdrLen + cdiv (inputBits input) 8

/-- The bits of a symbol's codeword under canonical codes of these lengths (R93, R147). -/
def codeword (lens : List Nat) (b : Byte) : List Bool :=
  codeBits (lens.getD b.toNat 0) ((codeTable lens)[b.toNat]'b.isLt)

/-- The payload bits of a sequence of symbols (R93). -/
def payloadOf (lens : List Nat) (symbols : List Byte) : List Bool := symbols.flatMap (codeword lens)

/-- The header bytes of code lengths (R91, R148). -/
def headerOf (lens : List Nat) : List Byte := lens.map (BitVec.ofNat 8)

/-- The artifact of an input: header, then packed payload (R90). -/
def artifactOf (input : List Byte) : List Byte :=
  headerOf (inputLengths input) ++ (packBits (payloadOf (inputLengths input) input)).out

/-- The code lengths the header at the source names (R182). -/
def State.headerLengths (s : State) : List Nat :=
  (s.mem.readBytes s.latched.srcBase.toNat Config.hdrLen).map BitVec.toNat

/-- The payload bits of the bit budget (R186, R192). -/
def State.budgetBits (s : State) : List Bool := (List.range s.latched.srcBits.toNat).map (getBit s)

/-- HUF_DECODE gets past its framing checks (R180, R181, R183, R225). -/
structure DecodableHeader (s : State) : Prop where
  checked : checkArgs .hufDecode s.latched = none
  holdsHeader : Config.hdrLen ≤ s.latched.srcLen.toNat
  holdsBits : s.latched.srcBits.toNat ≤ 8 * (s.latched.srcLen.toNat - Config.hdrLen)
  valid : kraftOK s.headerLengths = true

/-! ### The invariant -/

/-- Which stages a command passes through. -/
def stageFits (c : Instr) : Stage → Bool
  | .idle | .issued => true
  | .rleEncode => c == .rleEncode
  | .rleDecode => c == .rleDecode
  | .hufCount | .hufTree | .hufCode | .hufAlloc | .hufHeader _ _ | .hufPack _ _ | .hufDone _ _ => c == .hufEncode
  | .hufRead | .hufCheck | .hufWalk => c == .hufDecode

/-- The stages in which `FREQ` holds the counts of the source bytes (R140). -/
def Stage.counted : Stage → Bool
  | .hufTree | .hufCode | .hufAlloc | .hufHeader _ _ | .hufPack _ _ | .hufDone _ _ => true
  | .idle | .issued | .rleEncode | .rleDecode | .hufCount | .hufRead | .hufCheck | .hufWalk => false

/-- The stages in which the Huffman artifact's framing has been checked (R180, R181). -/
def Stage.framed : Stage → Bool
  | .hufRead | .hufCheck | .hufWalk => true
  | .idle | .issued | .rleEncode | .rleDecode | .hufCount | .hufTree | .hufCode | .hufAlloc | .hufHeader _ _
  | .hufPack _ _ | .hufDone _ _ => false

/-- What holds of the allocated region of a running HUF_ENCODE: it is free for the core to fill, and of the exact
size (R71, R154). -/
structure RegionFits (s : State) (base : Addr) (size : Nat) : Prop where
  nonNull : base ≠ 0
  inSpace : base.toNat + size ≤ Config.addrSpace
  exact : size = s.work.artifactSize
  apartFromSource : (Window.mk base.toNat size).overlaps s.latched.src = false
  apartFromLive : ∀ w ∈ s.live, (Window.mk base.toNat size).overlaps w = false

/-- The invariant of the machine. The last three clauses are about runs that keep the host duties: a host that has
broken one can have changed a running command's source. -/
structure State.Inv (s : State) : Prop where
  /-- buffer memory is in canonical form -/
  canonical : s.mem.wf = true
  /-- every listed byte has an address (R61, R62) -/
  memInSpace : s.mem.inSpace = true
  /-- BUSY holds exactly while a command is in progress (R23) -/
  busyStage : s.status.busy = true ↔ s.stage ≠ .idle
  /-- while BUSY, the other flags are clear (R33) -/
  running : s.status.busy = true → s.status = Status.running
  /-- while idle, the flags are those of reset or of a completion (R37) -/
  settled : s.status.busy = false → s.status = Status.reset ∨ ∃ d, s.status = Status.completed d
  /-- the latched operands equal the registers for the whole command (R32) -/
  latched : s.status.busy = true → s.latched = s.regs
  /-- the stage belongs to the command being executed -/
  fits : stageFits (decodeOpcode s.op) s.stage = true
  /-- past its start, the command has passed its argument checks (R225) -/
  checked : s.stage ≠ .idle → s.stage ≠ .issued → checkArgs (decodeOpcode s.op) s.latched = none
  /-- the encoder's positions are inside its windows (R40, R223) -/
  rleEncode : s.stage = .rleEncode →
    s.work.rleEnc.ipos.toNat ≤ s.latched.srcLen.toNat ∧ s.work.rleEnc.opos.toNat ≤ s.latched.dstCap.toNat
  /-- the decoder's positions are inside its windows (R41, R223) -/
  rleDecode : s.stage = .rleDecode →
    s.work.rleDec.ipos.toNat ≤ s.latched.srcLen.toNat ∧ s.work.rleDec.opos.toNat ≤ s.latched.dstCap.toNat
  /-- the unpacker's positions are inside its bit budget and its window (R46, R223) -/
  hufWalk : s.stage = .hufWalk →
    s.work.unpack.bpos.toNat ≤ s.latched.srcBits.toNat ∧ s.work.unpack.opos.toNat ≤ s.latched.dstCap.toNat
  /-- the artifact holds its header and the bit budget (R180, R181) -/
  framed : s.stage.framed = true →
    Config.hdrLen ≤ s.latched.srcLen.toNat ∧
      s.latched.srcBits.toNat ≤ 8 * (s.latched.srcLen.toNat - Config.hdrLen)
  /-- live regions lie in the address space, away from the null address (R71, R38) -/
  liveInSpace : ∀ w ∈ s.live, 0 < w.base ∧ Config.hdrLen ≤ w.len ∧ w.base + w.len ≤ Config.addrSpace
  /-- live regions are disjoint (R71) -/
  liveApart : s.live.Pairwise fun v w => v.overlaps w = false
  /-- the allocated region of a running HUF_ENCODE -/
  region : ∀ base size, s.stage = .hufHeader base size ∨ s.stage = .hufPack base size ∨ s.stage = .hufDone base size →
    RegionFits s base size
  /-- `FREQ` holds the counts of the source, which no one has changed since (R140, HD1) -/
  counted : s.hostFault = false → s.stage.counted = true → s.work.freqs = freqOf s.srcBytes

/-- `k` steps of the machine (Host.Core.run). -/
abbrev run (k : Nat) (s : State) : Host.Outcome State Fault Refusal := core.run k s

end Sys2Proof.Machine
end

