-- ==== Sys2Proof/Certificates/Slice0/Obligations.lean ====
section
/-! DEFINITION. The statements for the provers. -/

open Sys2Proof Sys2Proof.Machine

/-! ### Encodings -/

/-- Decoding an encoded well-formed instruction gives it back, at its own port (30_encoding.md R82, R84, R87). -/
def Obligations.DecodeOfEncode : Prop :=
  ∀ (i : Instr) (rest : List Byte), i.wf = true → decode i.port (encode i ++ rest) = .instr i rest

/-- Every byte is the encoding of exactly the well-formed instruction the decoder gives at each port (R83, R88,
R96): no byte is refused, and only the empty input is. -/
def Obligations.EncodeOfDecode : Prop :=
  (∀ (p : Port) (b : Byte) (rest : List Byte),
    ∃ i, decode p (b :: rest) = .instr i rest ∧ i.wf = true ∧ i.port = p ∧ encode i = [b]) ∧
  ∀ p : Port, decode p [] = .reject .noByte

/-- Words written out from the opcode map (R83), from R22's note on bits above 7 and from R87's examples decode to
what the spec says they stand for. -/
def Obligations.SpecWordsDecode : Prop :=
  decodeCommand 0x01 = .rleEncode ∧ decodeCommand 0x02 = .rleDecode ∧ decodeCommand 0x03 = .hufEncode ∧
  decodeCommand 0x04 = .hufDecode ∧ decodeCommand 0x05 = .hufRelease ∧ decodeCommand 0x105 = .hufRelease ∧
  decodeCommand 0x00 = .reservedOp 0x00 ∧ decodeCommand 0x06 = .reservedOp 0x06 ∧
  decodeCommand 0xFF = .reservedOp 0xFF ∧ decodeCtl 0x00 = .lit 0 ∧ decodeCtl 0x7F = .lit 127 ∧
  decodeCtl 0x80 = .run 0 ∧ decodeCtl 0x82 = .run 2 ∧ decodeCtl 0x91 = .run 17 ∧ decodeCtl 0xFF = .run 127

/-- R87: `ctl = (TYPE << 7) | (count - 1)` for a count in `[1, 128]`, the count is assembled back from `ctl[6:0]`, and
the six examples. -/
def Obligations.ControlByteCount : Prop :=
  (∀ p : Packet, p.wf = true →
    (packetCtl p).toNat = (if p.isRun then 1 <<< 7 else 0) ||| (p.count - 1) ∧
    packetCount (ctlCountM1 (packetCtl p)) = p.count ∧ ctlType (packetCtl p) = p.isRun) ∧
  (∀ ctl : Byte, packetCount (ctlCountM1 ctl) = ctl.toNat % 128 + 1) ∧
  (∀ v : Byte, packetCtl (.lit [v]) = 0x00) ∧ (∀ v : Byte, packetCtl (.lit (List.replicate 128 v)) = 0x7F) ∧
  (∀ v : Byte, packetCtl (.run 1 v) = 0x80) ∧ (∀ v : Byte, packetCtl (.run 3 v) = 0x82) ∧
  (∀ v : Byte, packetCtl (.run 18 v) = 0x91) ∧ (∀ v : Byte, packetCtl (.run 128 v) = 0xFF)

/-- A stream of well-formed packets parses back to those packets, and what parses is the encoding of well-formed
packets (R85, R86, R88, R89): no bit of a packet is lost and no two streams share a reading. -/
def Obligations.PacketStreamRoundTrip : Prop :=
  (∀ ps : List Packet, (∀ p ∈ ps, p.wf = true) → parseStream (encodeStream ps) = some ps) ∧
  ∀ (bytes : List Byte) (ps : List Packet), parseStream bytes = some ps →
    (∀ p ∈ ps, p.wf = true) ∧ encodeStream ps = bytes

/-! ### Registers and the status register -/

/-- The layout of `STATUS` (R23): BUSY, DONE, CODE and DETAIL at their bits, the reserved bits 0, and CODE at most 4;
and the whole register after each completion (R211, R220, R221), as the table of 95_test_vectors.md lists it. -/
def Obligations.StatusLayout : Prop :=
  (∀ s : Status, s.word.getLsbD 0 = s.busy ∧ s.word.getLsbD 1 = s.done ∧ s.word.extractLsb' 2 6 = 0 ∧
    s.word.extractLsb' 8 4 = s.code.value ∧ s.word.extractLsb' 12 4 = 0 ∧
    s.word.extractLsb' 16 8 = s.detail.value ∧ s.code.value.toNat ≤ 4) ∧
  Status.reset.word = 0x000000 ∧ Status.running.word = 0x000001 ∧
  (Status.completed .none).word = 0x000002 ∧ (Status.completed .outCapacity).word = 0x010102 ∧
  (Status.completed .rleTruncated).word = 0x100202 ∧ (Status.completed .hufShort).word = 0x110202 ∧
  (Status.completed .hufBadHeader).word = 0x120202 ∧ (Status.completed .hufTruncatedCode).word = 0x130202 ∧
  (Status.completed .hufInvalidCodeword).word = 0x140202 ∧ (Status.completed .allocFail).word = 0x200302 ∧
  (Status.completed .illegalOp).word = 0x300402 ∧ (Status.completed .nullBuffer).word = 0x310402 ∧
  (Status.completed .range).word = 0x320402 ∧ (Status.completed .overlap).word = 0x330402 ∧
  (Status.completed .bitsRange).word = 0x340402 ∧ (Status.completed .lengthRange).word = 0x350402

/-- R34: a write to an idle core's operand register, or to `CMD`, stores `v mod 2^w`, the register reads back so, and
a write to a read-only register has no effect. -/
def Obligations.OperandRegisterWrites : Prop :=
  ∀ (s : State) (v : Slot), s.status.busy = false →
    hostWrite 64 0x10 v s = { s with regs := { s.regs with srcBase := BitVec.ofNat 32 (v.toNat % 2 ^ 32) } } ∧
    hostWrite 64 0x18 v s = { s with regs := { s.regs with srcLen := BitVec.ofNat 32 (v.toNat % 2 ^ 32) } } ∧
    hostWrite 64 0x20 v s = { s with regs := { s.regs with srcBits := BitVec.ofNat 35 (v.toNat % 2 ^ 35) } } ∧
    hostWrite 64 0x28 v s = { s with regs := { s.regs with dstBase := BitVec.ofNat 32 (v.toNat % 2 ^ 32) } } ∧
    hostWrite 64 0x30 v s = { s with regs := { s.regs with dstCap := BitVec.ofNat 32 (v.toNat % 2 ^ 32) } } ∧
    (∀ o ∈ [0x10, 0x18, 0x28, 0x30], ((hostWrite 64 o v s).readReg 64 o).toNat = v.toNat % 2 ^ 32) ∧
    ((hostWrite 64 0x20 v s).readReg 64 0x20).toNat = v.toNat % 2 ^ 35 ∧
    (hostWrite 64 0x00 v s).op.toNat = v.toNat % 2 ^ 8 ∧
    ((hostWrite 64 0x00 v s).readReg 64 0x00).toNat = v.toNat % 2 ^ 8 ∧
    ∀ o ∈ [0x08, 0x38, 0x40, 0x48], hostWrite 64 o v s = s ∧ hostWrite 32 o v s = s ∧ hostWrite 32 (o + 4) v s = s

/-- R81: a 32-bit write changes only its half of the slot, then the register's width truncates, and nothing but the named
register changes; a 32-bit write at 0x00 issues what a 64-bit one does, one at 0x04 has no effect, and no write elsewhere issues; a 32-bit read gives its
half, and a legal read changes nothing but the data the host gets; the reserved slots read as 0 and ignore writes (R80);
any access of another width or place is refused and sets HOSTFAULT. That a refused access has no other effect is the
model's reading (notes/assumptions/22.md), and the data the host gets is the model's field `busData`
(notes/assumptions/16.md). -/
def Obligations.RegisterAccessWidths : Prop :=
  (∀ (s : State) (v : Slot), s.status.busy = false →
    (∀ o ∈ [0x10, 0x18, 0x28, 0x30],
      ((hostWrite 32 o v s).slot (regAt o)).toNat = v.toNat % 2 ^ 32 ∧
      ((hostWrite 32 (o + 4) v s).slot (regAt o)).toNat = (s.slot (regAt o)).toNat) ∧
    ((hostWrite 32 0x20 v s).slot .srcBits).toNat =
      ((s.slot .srcBits).toNat / 2 ^ 32 * 2 ^ 32 + v.toNat % 2 ^ 32) % 2 ^ 35 ∧
    ((hostWrite 32 0x24 v s).slot .srcBits).toNat =
      (v.toNat % 2 ^ 32 * 2 ^ 32 + (s.slot .srcBits).toNat % 2 ^ 32) % 2 ^ 35 ∧
    (∀ o ∈ [0x10, 0x14], ∃ x, hostWrite 32 o v s = { s with regs := { s.regs with srcBase := x } }) ∧
    (∀ o ∈ [0x18, 0x1C], ∃ x, hostWrite 32 o v s = { s with regs := { s.regs with srcLen := x } }) ∧
    (∀ o ∈ [0x20, 0x24], ∃ x, hostWrite 32 o v s = { s with regs := { s.regs with srcBits := x } }) ∧
    (∀ o ∈ [0x28, 0x2C], ∃ x, hostWrite 32 o v s = { s with regs := { s.regs with dstBase := x } }) ∧
    (∀ o ∈ [0x30, 0x34], ∃ x, hostWrite 32 o v s = { s with regs := { s.regs with dstCap := x } }) ∧
    hostWrite 32 0x00 v s = hostWrite 64 0x00 v s ∧ (hostWrite 64 0x00 v s).status = Status.running ∧
    hostWrite 32 0x04 v s = s) ∧
  (∀ (s : State) (width offset : Nat) (v : Slot), offset ≠ 0x00 →
    (hostWrite width offset v s).status = s.status ∧ (hostWrite width offset v s).stage = s.stage ∧
    (hostWrite width offset v s).op = s.op) ∧
  (∀ (s : State) (o : Nat), o % 8 = 0 →
    (s.readReg 32 o).toNat = (s.readReg 64 o).toNat % 2 ^ 32 ∧
    (s.readReg 32 (o + 4)).toNat = (s.readReg 64 o).toNat / 2 ^ 32) ∧
  (∀ (s : State) (width offset : Nat), legalAccess width offset = true →
    hostRead width offset s = { s with busData := s.readReg width offset }) ∧
  (∀ (s : State) (width offset : Nat) (v : Slot), 0x50 ≤ offset → legalAccess width offset = true →
    hostWrite width offset v s = s ∧ s.readReg width offset = 0) ∧
  (∀ width offset : Nat, legalAccess width offset = true ↔
    offset < 0x60 ∧ ((width = 64 ∧ 8 ∣ offset) ∨ (width = 32 ∧ 4 ∣ offset))) ∧
  ∀ (s : State) (width offset : Nat) (v : Slot), legalAccess width offset = false →
    hostWrite width offset v s = { s with hostFault := true } ∧
    hostRead width offset s = { s with hostFault := true }

/-- R33: while BUSY, a legal write has no effect, and the host reads the opcode being executed, BUSY alone in
`STATUS`, the latched operands and the previous results. -/
def Obligations.BusyRegisterAccess : Prop :=
  ∀ s : State, s.Inv → s.status.busy = true →
    (∀ (width offset : Nat) (v : Slot), legalAccess width offset = true → hostWrite width offset v s = s) ∧
    (s.readReg 64 0x00).toNat = s.op.toNat ∧ (s.readReg 64 0x08).toNat = 1 ∧
    (s.readReg 64 0x10).toNat = s.latched.srcBase.toNat ∧ (s.readReg 64 0x18).toNat = s.latched.srcLen.toNat ∧
    (s.readReg 64 0x20).toNat = s.latched.srcBits.toNat ∧ (s.readReg 64 0x28).toNat = s.latched.dstBase.toNat ∧
    (s.readReg 64 0x30).toNat = s.latched.dstCap.toNat ∧ (s.readReg 64 0x38).toNat = s.res.len.toNat ∧
    (s.readReg 64 0x40).toNat = s.res.bits.toNat ∧ (s.readReg 64 0x48).toNat = s.res.base.toNat

/-- R210: a host write to bits [31:0] of `CMD` issues while idle, and has no effect while BUSY. -/
def Obligations.IssueStep : Prop :=
  ∀ (s : State) (width : Nat) (v : Slot) (rest : List Event), width = 64 ∨ width = 32 → s.hostFault = false →
    s.agenda = .regWrite width 0x00 v :: rest →
    (s.status.busy = false → ∃ t, step s = .next t ∧ t.op = BitVec.ofNat 8 v.toNat ∧ t.latched = s.regs ∧
      t.status = ⟨true, false, .ok, .none⟩ ∧ t.stage = .issued ∧ t.res = s.res ∧ t.regs = s.regs ∧ t.mem = s.mem ∧
      t.work = s.work ∧ t.live = s.live ∧ t.portLog = s.portLog ∧ t.agenda = rest) ∧
    (s.status.busy = true → step s = .next { s with agenda := rest })

/-- R250, R50: the reset input, at any time and whatever the host has broken, puts every interface register and the
bookkeeping in their reset state; the working state is a free value, whatever it was. That a released region stays
released is the model's (notes/assumptions/13.md). -/
def Obligations.ResetInputState : Prop :=
  ∀ (s : State) (rest : List Event), s.agenda = .reset :: rest →
    ∃ t, step s = .next t ∧ t.op = 0 ∧ t.status.word = 0 ∧ t.regs = ⟨0, 0, 0, 0, 0⟩ ∧ t.latched = ⟨0, 0, 0, 0, 0⟩ ∧
      t.res = ⟨0, 0, 0⟩ ∧ t.live = [] ∧ t.hostFault = false ∧ t.stage = .idle ∧ t.agenda = rest ∧
      t.released = s.released ∧ ∃ n, t.work = Config.freeWork n

/-- R50: what the power-on state holds, as the spec gives it. -/
def Obligations.PowerOnState : Prop :=
  State.reset.op = 0 ∧ State.reset.status.word = 0 ∧ State.reset.regs = ⟨0, 0, 0, 0, 0⟩ ∧
  State.reset.latched = ⟨0, 0, 0, 0, 0⟩ ∧ State.reset.res = ⟨0, 0, 0⟩ ∧ State.reset.live = [] ∧
  State.reset.hostFault = false ∧ State.reset.stage = .idle

/-- R251: reset leaves buffer memory as it is, but for the windows the command it abandons was given to write; an idle
core's reset changes no byte. -/
def Obligations.ResetKeepsMemory : Prop :=
  ∀ s : State, s.Inv → SameOutside s.writeWindows s (resetInput s) ∧
    (s.status.busy = false → (resetInput s).mem = s.mem)

/-! ### Memory, windows and argument checks -/

/-- Two memories in canonical form that read alike at every address are the same data. The form, with what an unlisted
byte reads as, is the model's own representation of R61's bytes (notes/assumptions/5.md). -/
def Obligations.CanonicalMemoryExtensional : Prop :=
  ∀ m m' : Memory, m.wf = true → m'.wf = true → (∀ a, m.read a = m'.read a) → m = m'

/-- R225: two windows overlap exactly when they share an address. -/
def Obligations.OverlapSharesAddress : Prop :=
  ∀ v w : Window, v.overlaps w = true ↔ ∃ a, v.has a = true ∧ w.has a = true

/-- R224, R225: a command whose argument checks fail completes with the first failing check's detail and all results 0,
with no allocator request. No byte outside its destination window changes; those in it are unspecified (R222(a);
notes/assumptions/4.md), and HUF_ENCODE, which has none, leaves memory alone. -/
def Obligations.FailedChecks : Prop :=
  ∀ (c : Instr) (s : State) (d : Detail), usesSrc c = true → checkArgs c s.latched = some d →
    ∃ t, exec c s = .next t ∧ Completed t d ⟨0, 0, 0⟩ ∧ SameOutside (destination c s.latched) s t ∧
      (usesDst c = false → t.mem = s.mem) ∧ SameSetting s t ∧ SameRegions s t

/-- R224: the order of the argument checks, on the operands as numbers. -/
def Obligations.CheckOrder : Prop :=
  ∀ (c : Instr) (o : Operands), usesSrc c = true →
    let srcNull := o.srcBase = 0 ∧ o.srcLen ≠ 0
    let dstNull := usesDst c = true ∧ o.dstBase = 0 ∧ o.dstCap ≠ 0
    let srcRange := 2 ^ 32 < o.srcBase.toNat + o.srcLen.toNat
    let dstRange := usesDst c = true ∧ 2 ^ 32 < o.dstBase.toNat + o.dstCap.toNat
    let overlap := usesDst c = true ∧ ∃ a, o.src.has a = true ∧ o.dst.has a = true
    let tooLong := c = .hufEncode ∧ 2 ^ 32 - 257 < o.srcLen.toNat
    (checkArgs c o = some .nullBuffer ↔ srcNull ∨ dstNull) ∧
    (checkArgs c o = some .range ↔ ¬ srcNull ∧ ¬ dstNull ∧ (srcRange ∨ dstRange)) ∧
    (checkArgs c o = some .overlap ↔ ¬ srcNull ∧ ¬ dstNull ∧ ¬ srcRange ∧ ¬ dstRange ∧ overlap) ∧
    (checkArgs c o = some .lengthRange ↔
      ¬ srcNull ∧ ¬ dstNull ∧ ¬ srcRange ∧ ¬ dstRange ∧ ¬ overlap ∧ tooLong) ∧
    (checkArgs c o = none ↔ ¬ srcNull ∧ ¬ dstNull ∧ ¬ srcRange ∧ ¬ dstRange ∧ ¬ overlap ∧ ¬ tooLong)

/-! ### The RLE codec -/

/-- RLE_ENCODE succeeds when the packets of its input fit (R111, R116): the destination starts with exactly their
bytes, `RES_LEN` is their number, nothing else of memory changes. -/
def Obligations.RleEncodeSucceeds : Prop :=
  ∀ s : State, checkArgs .rleEncode s.latched = none →
    let stream := encodeStream (rlePackets s.srcBytes)
    stream.length ≤ s.latched.dstCap.toNat →
    ∃ t, exec .rleEncode s = .next t ∧ Completed t .none ⟨BitVec.ofNat 32 stream.length, 0, 0⟩ ∧
      t.mem.readBytes s.latched.dstBase.toNat stream.length = stream ∧
      SameOutside [⟨s.latched.dstBase.toNat, stream.length⟩] s t ∧ SameSetting s t ∧ SameRegions s t

/-- RLE_ENCODE completes CapacityExceeded when they do not fit (R112, R113, R116): all results 0, nothing outside the
destination window changes. -/
def Obligations.RleEncodeOverflows : Prop :=
  ∀ s : State, checkArgs .rleEncode s.latched = none →
    s.latched.dstCap.toNat < (encodeStream (rlePackets s.srcBytes)).length →
    ∃ t, exec .rleEncode s = .next t ∧ Completed t .outCapacity ⟨0, 0, 0⟩ ∧ SameOutside [s.latched.dst] s t ∧
      SameSetting s t ∧ SameRegions s t

/-- R118: the shapes the encoder emits, and the packets partition the input. R110, R111: a Run is the longest there is,
up to 128, so that a shorter one is not directly followed by an input byte of its value. R115: no qualifying run starts
inside a Literal, however far past the Literal's end it reaches. -/
def Obligations.RleEncoderShapes : Prop :=
  ∀ input : List Byte,
    (rlePackets input).flatMap Packet.span = input ∧
    (∀ n v, Packet.run n v ∈ rlePackets input → 3 ≤ n ∧ n ≤ 128) ∧
    (∀ bytes, Packet.lit bytes ∈ rlePackets input →
      1 ≤ bytes.length ∧ bytes.length ≤ 128 ∧ ∀ before v after, bytes ≠ before ++ [v, v, v] ++ after) ∧
    (∀ before bytes n v after, rlePackets input = before ++ [.lit bytes, .run n v] ++ after →
      bytes.getLast? ≠ some v) ∧
    (∀ before bytes bytes' after, rlePackets input = before ++ [.lit bytes, .lit bytes'] ++ after →
      bytes.length = 128) ∧
    (∀ before n v after, rlePackets input = before ++ [.run n v] ++ after → n < 128 →
      (after.flatMap Packet.span).head? ≠ some v) ∧
    ∀ before taken left after, rlePackets input = before ++ [.lit (taken ++ left)] ++ after → left ≠ [] →
      runLen (left ++ after.flatMap Packet.span) < 3

/-- R117: the worst-case bound, and what it says of the command. -/
def Obligations.RleWorstCaseBound : Prop :=
  (∀ input : List Byte,
    (encodeStream (rlePackets input)).length ≤ input.length + cdiv input.length 128) ∧
  (∀ n : Nat, n + cdiv n 128 = cdiv (n * 129) 128) ∧
  (∀ s t : State, exec .rleEncode s = .next t → t.status = Status.completed .none →
    t.res.len.toNat ≤ s.latched.srcLen.toNat + cdiv s.latched.srcLen.toNat 128) ∧
  ∀ s : State, checkArgs .rleEncode s.latched = none →
    s.latched.srcLen.toNat + cdiv s.latched.srcLen.toNat 128 ≤ s.latched.dstCap.toNat →
    ∃ t, exec .rleEncode s = .next t ∧ t.status = Status.completed .none ∧
      t.res.len.toNat ≤ s.latched.srcLen.toNat + cdiv s.latched.srcLen.toNat 128

/-- RLE_DECODE succeeds on every sequence of well-framed packets whose spans fit (R120, R125, R126): the destination
starts with the spans in order, `RES_LEN` is their length, nothing else of memory changes. -/
def Obligations.RleDecodeSucceeds : Prop :=
  ∀ (s : State) (ps : List Packet), checkArgs .rleDecode s.latched = none → (∀ p ∈ ps, p.wf = true) →
    s.srcBytes = encodeStream ps →
    let output := ps.flatMap Packet.span
    output.length ≤ s.latched.dstCap.toNat →
    ∃ t, exec .rleDecode s = .next t ∧ Completed t .none ⟨BitVec.ofNat 32 output.length, 0, 0⟩ ∧
      t.mem.readBytes s.latched.dstBase.toNat output.length = output ∧
      SameOutside [⟨s.latched.dstBase.toNat, output.length⟩] s t ∧ SameSetting s t ∧ SameRegions s t

/-- RLE_DECODE fails at the first packet that does not decode (R123, R124, R224): truncated when the packet runs past
the stream, capacity when its span does not fit, truncation first. -/
def Obligations.RleDecodeFails : Prop :=
  ∀ (s : State) (ps : List Packet) (rest : List Byte), checkArgs .rleDecode s.latched = none →
    (∀ p ∈ ps, p.wf = true) → s.srcBytes = encodeStream ps ++ rest → rest ≠ [] →
    (ps.flatMap Packet.span).length ≤ s.latched.dstCap.toNat →
    (splitPacket rest = none →
      ∃ t, exec .rleDecode s = .next t ∧ Completed t .rleTruncated ⟨0, 0, 0⟩ ∧ SameOutside [s.latched.dst] s t ∧
        SameSetting s t ∧ SameRegions s t) ∧
    ∀ (p : Packet) (rest' : List Byte), splitPacket rest = some (p, rest') →
      s.latched.dstCap.toNat < (ps.flatMap Packet.span).length + p.span.length →
      ∃ t, exec .rleDecode s = .next t ∧ Completed t .outCapacity ⟨0, 0, 0⟩ ∧ SameOutside [s.latched.dst] s t ∧
        SameSetting s t ∧ SameRegions s t

/-- R127: RLE_DECODE of what RLE_ENCODE wrote gives the input back, and one byte of capacity less is
CapacityExceeded. -/
def Obligations.RleRoundTrip : Prop :=
  ∀ s t u : State, checkArgs .rleEncode s.latched = none → exec .rleEncode s = .next t →
    t.status = Status.completed .none → checkArgs .rleDecode u.latched = none →
    u.srcBytes = t.mem.readBytes s.latched.dstBase.toNat t.res.len.toNat →
    (s.latched.srcLen.toNat ≤ u.latched.dstCap.toNat →
      ∃ v, exec .rleDecode u = .next v ∧ v.status = Status.completed .none ∧ v.res.len = s.latched.srcLen ∧
        v.mem.readBytes u.latched.dstBase.toNat s.latched.srcLen.toNat = s.srcBytes) ∧
    (u.latched.dstCap.toNat + 1 = s.latched.srcLen.toNat →
      ∃ v, exec .rleDecode u = .next v ∧ v.status = Status.completed .outCapacity)

/-- R121: LIT copies its payload to the output and moves both positions past it. -/
def Obligations.LitCopies : Prop :=
  ∀ (countM1 : BitVec 7) (s : State),
    let count := countM1.toNat + 1
    let d := s.work.rleDec
    s.latched.src.inSpace = true → s.latched.dst.inSpace = true →
    d.ipos.toNat + 1 + count ≤ s.latched.srcLen.toNat → d.opos.toNat + count ≤ s.latched.dstCap.toNat →
    ∃ t, exec (.lit countM1) s = .next t ∧
      t.mem.readBytes (s.latched.dstBase.toNat + d.opos.toNat) count =
        s.mem.readBytes (s.latched.srcBase.toNat + d.ipos.toNat + 1) count ∧
      SameOutside [⟨s.latched.dstBase.toNat + d.opos.toNat, count⟩] s t ∧
      t.work.rleDec.ipos.toNat = d.ipos.toNat + 1 + count ∧ t.work.rleDec.opos.toNat = d.opos.toNat + count ∧
      t.work = { s.work with rleDec := { d with ipos := t.work.rleDec.ipos, opos := t.work.rleDec.opos } } ∧
      t.status = s.status ∧ t.res = s.res ∧ t.stage = s.stage ∧ SameSetting s t ∧ SameRegions s t

/-- R122: RUN writes its one payload byte `count` times and moves past its two stream bytes. -/
def Obligations.RunRepeats : Prop :=
  ∀ (countM1 : BitVec 7) (s : State),
    let count := countM1.toNat + 1
    let d := s.work.rleDec
    s.latched.src.inSpace = true → s.latched.dst.inSpace = true →
    d.ipos.toNat + 2 ≤ s.latched.srcLen.toNat → d.opos.toNat + count ≤ s.latched.dstCap.toNat →
    ∃ t, exec (.run countM1) s = .next t ∧
      t.mem.readBytes (s.latched.dstBase.toNat + d.opos.toNat) count =
        List.replicate count (s.mem.read (s.latched.srcBase.toNat + d.ipos.toNat + 1)) ∧
      SameOutside [⟨s.latched.dstBase.toNat + d.opos.toNat, count⟩] s t ∧
      t.work.rleDec.ipos.toNat = d.ipos.toNat + 2 ∧ t.work.rleDec.opos.toNat = d.opos.toNat + count ∧
      t.work = { s.work with rleDec := { d with ipos := t.work.rleDec.ipos, opos := t.work.rleDec.opos } } ∧
      t.status = s.status ∧ t.res = s.res ∧ t.stage = s.stage ∧ SameSetting s t ∧ SameRegions s t

/-- R123, R124: a packet that runs past the stream, then one that does not fit, ends the command; and (the model's own
stop, notes/assumptions/14.md) a packet whose windows do not fit the address space stops by name. -/
def Obligations.PacketFailures : Prop :=
  ∀ (countM1 : BitVec 7) (s : State),
    let count := countM1.toNat + 1
    let d := s.work.rleDec
    let fails (i : Instr) (detail : Detail) : Prop :=
      ∃ t, exec i s = .next t ∧ Completed t detail ⟨0, 0, 0⟩ ∧ SameOutside [s.latched.dst] s t ∧ SameSetting s t ∧
        SameRegions s t
    (s.latched.src.inSpace = true → s.latched.dst.inSpace = true →
      (s.latched.srcLen.toNat < d.ipos.toNat + 1 + count → fails (.lit countM1) .rleTruncated) ∧
      (s.latched.srcLen.toNat < d.ipos.toNat + 2 → fails (.run countM1) .rleTruncated) ∧
      (d.ipos.toNat + 1 + count ≤ s.latched.srcLen.toNat → s.latched.dstCap.toNat < d.opos.toNat + count →
        fails (.lit countM1) .outCapacity) ∧
      (d.ipos.toNat + 2 ≤ s.latched.srcLen.toNat → s.latched.dstCap.toNat < d.opos.toNat + count →
        fails (.run countM1) .outCapacity)) ∧
    ((s.latched.src.inSpace && s.latched.dst.inSpace) = false →
      exec (.lit countM1) s = .fault .outsideMemory ∧ exec (.run countM1) s = .fault .outsideMemory)

/-! ### The Huffman code -/

/-- R140: `FREQ[s]` counts the source bytes equal to `s`; no counter wraps, and the counts add up to `n`. -/
def Obligations.FrequencyTable : Prop :=
  ∀ s : State, (∀ b : Byte, ((hufCountStep s).work.freq[b.toNat]'b.isLt).toNat = s.srcBytes.count b) ∧
    (hufCountStep s).work.freqs.sum = s.latched.srcLen.toNat

/-- R146, R144: with two or more symbols, every present symbol's length is from 1 to `k - 1` and the Kraft sum is
exactly 1; with one it is 1/2; absent symbols have length 0; every header the encoder writes passes R183. -/
def Obligations.CodeLengthsFormFullTree : Prop :=
  ∀ input : List Byte,
    let freq := freqOf input
    let lens := codeLengths freq
    let k := freq.countP (· ≠ 0)
    lens.length = 256 ∧ kraftOK lens = true ∧
    (∀ s < 256, freq.getD s 0 = 0 → lens.getD s 0 = 0) ∧
    (k = 1 → kraftSum lens = 2 ^ 254 ∧ ∀ s < 256, freq.getD s 0 ≠ 0 → lens.getD s 0 = 1) ∧
    (2 ≤ k → kraftSum lens = 2 ^ 255 ∧
      ∀ s < 256, freq.getD s 0 ≠ 0 → 1 ≤ lens.getD s 0 ∧ lens.getD s 0 ≤ k - 1 ∧ k - 1 ≤ 255)

/-- R141, R142, R143: the tree builder is the greedy one. The leaves are the symbols that occur; a merge takes the live
node least by `(weight, key)` and keeps the others, twice, and puts back their parent under the next key with the summed
weight, the first taken as `child0`, until one node is left. R145: with two symbols or more, a code length is the depth
of its leaf. R143's example fixes the tie-break: "ABCCDD" has the lengths 2, 2, 2, 2. -/
def Obligations.TreeBuilderIsGreedy : Prop :=
  (∀ (freq : List Nat) (t : Tree),
    t ∈ leavesOf freq ↔ ∃ s w, freq[s]? = some w ∧ w ≠ 0 ∧ t = .leaf s w) ∧
  (∀ live : List Tree, extractLeast live = none ↔ live = []) ∧
  (∀ (live : List Tree) (least : Tree) (others : List Tree), extractLeast live = some (least, others) →
    List.Perm (least :: others) live ∧
    ∀ t ∈ others, least.weight < t.weight ∨ least.weight = t.weight ∧ least.key ≤ t.key) ∧
  (∀ (m : Nat) (t : Tree), mergeAll [t].length m [t] = some t) ∧
  (∀ (m : Nat) (live : List Tree) (a : Tree) (rest : List Tree) (b : Tree) (others : List Tree),
    extractLeast live = some (a, rest) → extractLeast rest = some (b, others) →
    let merged := Tree.internal (256 + m) (a.weight + b.weight) a b :: others
    mergeAll live.length m live = mergeAll merged.length (m + 1) merged) ∧
  (∀ freq : List Nat, buildTree freq = mergeAll (leavesOf freq).length 0 (leavesOf freq)) ∧
  (∀ (freq : List Nat) (root : Tree), 2 ≤ (leavesOf freq).length → buildTree freq = some root →
    ∀ s < 256, (codeLengths freq).getD s 0 = (root.depth? s).getD 0) ∧
  ∀ s ∈ [0x41, 0x42, 0x43, 0x44], (inputLengths [0x41, 0x42, 0x43, 0x43, 0x44, 0x44]).getD s 0 = 2

/-- R149: the payload bit count is the length of the payload, `0` for no symbol, `n` for one, and at most `8 n`, so
that it fits `BITS_W` bits and the payload is no longer than the input. -/
def Obligations.PayloadBitBound : Prop :=
  ∀ input : List Byte,
    inputBits input = (payloadOf (inputLengths input) input).length ∧ inputBits input ≤ 8 * input.length ∧
    ((freqOf input).countP (· ≠ 0) = 0 → inputBits input = 0) ∧
    ((freqOf input).countP (· ≠ 0) = 1 → inputBits input = input.length) ∧
    (input.length < 2 ^ 32 → inputBits input < 2 ^ 35) ∧ cdiv (inputBits input) 8 ≤ input.length

/-- R147: the canonical code. Every present symbol has exactly one code, of its length; its value is the sum of
`2^(LEN[s] - LEN[t])` over the symbols `t` before `s` in the order by length, then symbol, which says that the first
code is 0 and each is the one before it plus 1, shifted when the length grows; `CODE` holds it; and when the Kraft sum
is at most 1, it fits its length and is no prefix of another. -/
def Obligations.CanonicalCodeIsPrefixFree : Prop :=
  ∀ lens : List Nat, lens.length = 256 → (∀ l ∈ lens, l ≤ 255) → kraftOK lens = true →
    (∀ s < 256, lens.getD s 0 ≠ 0 → ∃ e ∈ canon lens, e.sym = s ∧ e.len = lens.getD s 0) ∧
    ((canon lens).map CodeEntry.sym).Nodup ∧
    (∀ e ∈ canon lens, e.code =
      (((presentOf lens).filter fun p => p.1 < e.len ∨ p.1 = e.len ∧ p.2 < e.sym).map
        fun p => 2 ^ (e.len - p.1)).sum) ∧
    (∀ e ∈ canon lens, ((codeTable lens).toList.getD e.sym 0).toNat = e.code) ∧
    (∀ e ∈ canon lens, e.code < 2 ^ e.len ∧ lens[e.sym]? = some e.len ∧ e.len ≠ 0) ∧
    ∀ e ∈ canon lens, ∀ e' ∈ canon lens, e.sym ≠ e'.sym → e.len ≤ e'.len → e'.code >>> (e'.len - e.len) ≠ e.code

/-- R185: the length-indexed tables give the same relation as `Match`, for every valid header. -/
def Obligations.DecodeTablesMatch : Prop :=
  ∀ lens : List Nat, lens.length = 256 → (∀ l ∈ lens, l ≤ 255) → kraftOK lens = true →
    ∀ d c : Nat, 1 ≤ d → d ≤ 255 →
      tableMatch (buildDecodeTables lens) d c = matchCode lens (codeTable lens).toList d c

/-- R92, R94, R151: the packer puts payload bit `j` at bit `7 - (j mod 8)` of byte `floor(j / 8)`, pads with zero bits,
and writes `cdiv(B, 8)` bytes. -/
def Obligations.PackerLayout : Prop :=
  ∀ bits : List Bool,
    let p := packBits bits
    p.bpos = bits.length ∧ p.out.length = cdiv bits.length 8 ∧
    (∀ j, j < bits.length → bits[j]? = some (payloadBit (fun k => p.out.getD k 0) j)) ∧
    ∀ j, bits.length ≤ j → j < 8 * cdiv bits.length 8 → payloadBit (fun k => p.out.getD k 0) j = false

/-- HUF_ENCODE with an allocator that answers `Ok` (R150, R154, R155): one exact-size request, the artifact of the
input fills the region, the region joins LIVE, nothing else of memory changes. A region that meets a window of another
instance's running command sets HOSTFAULT (HD6, R230), and its bytes leave the model's `released`
(notes/assumptions/13.md). -/
def Obligations.HufEncodeSucceeds : Prop :=
  ∀ (s : State) (base : Addr), checkArgs .hufEncode s.latched = none →
    s.allocAnswer (inputSize s.srcBytes) = some base →
    ∃ t, exec .hufEncode s = .next t ∧
      Completed t .none
        ⟨BitVec.ofNat 32 (inputSize s.srcBytes), BitVec.ofNat 35 (inputBits s.srcBytes), base⟩ ∧
      t.res.len.toNat = inputSize s.srcBytes ∧ t.res.bits.toNat = inputBits s.srcBytes ∧
      t.mem.readBytes base.toNat (inputSize s.srcBytes) = artifactOf s.srcBytes ∧
      SameOutside [⟨base.toNat, inputSize s.srcBytes⟩] s t ∧
      t.live = ⟨base.toNat, inputSize s.srcBytes⟩ :: s.live ∧
      (t.hostFault = true ↔ s.hostFault = true ∨
        ∃ w ∈ s.otherWindows, (Window.mk base.toNat (inputSize s.srcBytes)).overlaps w = true) ∧
      (∀ x, x ∈ t.released ↔ x ∈ s.released ∧ (Window.mk base.toNat (inputSize s.srcBytes)).has x = false) ∧
      t.portLog = .alloc (inputSize s.srcBytes) :: s.portLog ∧ t.allocAnswers = s.allocAnswers.tail ∧
      SameSetting s t

/-- HUF_ENCODE with an allocator that answers `Fail` (R154): AllocationFailure after one request, no byte written, LIVE
unchanged. An answer that breaks R71 counts as `Fail` by the model's choice (notes/assumptions/8.md), and `released` is
the model's own field (notes/assumptions/13.md). -/
def Obligations.HufEncodeAllocFails : Prop :=
  ∀ s : State, checkArgs .hufEncode s.latched = none → s.allocAnswer (inputSize s.srcBytes) = none →
    ∃ t, exec .hufEncode s = .next t ∧ Completed t .allocFail ⟨0, 0, 0⟩ ∧ t.mem = s.mem ∧ t.live = s.live ∧
      t.hostFault = s.hostFault ∧ t.released = s.released ∧ t.portLog = .alloc (inputSize s.srcBytes) :: s.portLog ∧
      t.allocAnswers = s.allocAnswers.tail ∧ SameSetting s t

/-- R152, R153: the artifacts of the empty input and of one symbol repeated. -/
def Obligations.DegenerateArtifacts : Prop :=
  artifactOf [] = List.replicate 256 0 ∧ inputBits [] = 0 ∧ inputSize [] = 256 ∧
  ∀ (b : Byte) (n : Nat), 1 ≤ n →
    artifactOf (List.replicate n b) =
      (List.range 256).map (fun s => if s = b.toNat then 1 else 0) ++ List.replicate (cdiv n 8) 0 ∧
    inputBits (List.replicate n b) = n ∧ inputSize (List.replicate n b) = 256 + cdiv n 8

/-- R156: two HUF_ENCODE commands over equal input bytes that both succeed write equal artifacts and report equal
sizes. -/
def Obligations.HufEncodeDeterministic : Prop :=
  ∀ s s' t t' : State, exec .hufEncode s = .next t → exec .hufEncode s' = .next t' →
    t.status = Status.completed .none → t'.status = Status.completed .none → s.srcBytes = s'.srcBytes →
    t.res.len = t'.res.len ∧ t.res.bits = t'.res.bits ∧
      t.mem.readBytes t.res.base.toNat t.res.len.toNat = t'.mem.readBytes t'.res.base.toNat t'.res.len.toNat

/-- R180, R181, R183: the framing checks of HUF_DECODE, in their order; nothing outside the destination window
changes. -/
def Obligations.HufDecodeFraming : Prop :=
  ∀ s : State, checkArgs .hufDecode s.latched = none →
    let fails (d : Detail) : Prop :=
      ∃ t, exec .hufDecode s = .next t ∧ Completed t d ⟨0, 0, 0⟩ ∧ SameOutside [s.latched.dst] s t ∧
        SameSetting s t ∧ SameRegions s t
    (s.latched.srcLen.toNat < 256 → fails .hufShort) ∧
    (256 ≤ s.latched.srcLen.toNat → 8 * (s.latched.srcLen.toNat - 256) < s.latched.srcBits.toNat →
      fails .bitsRange) ∧
    (256 ≤ s.latched.srcLen.toNat → s.latched.srcBits.toNat ≤ 8 * (s.latched.srcLen.toNat - 256) →
      kraftOK s.headerLengths = false → fails .hufBadHeader)

/-- HUF_DECODE of a bit budget that is a sequence of codewords (R187, R188, R192, R193): it gives their symbols when
they fit. A budget that begins with more codewords than fit is CapacityExceeded, whatever bits come after them: the first
failing position counts (R224). -/
def Obligations.HufDecodeCodewords : Prop :=
  ∀ (s : State) (symbols : List Byte), DecodableHeader s →
    (∀ b ∈ symbols, s.headerLengths.getD b.toNat 0 ≠ 0) →
    (s.budgetBits = payloadOf s.headerLengths symbols → symbols.length ≤ s.latched.dstCap.toNat →
      ∃ t, exec .hufDecode s = .next t ∧ Completed t .none ⟨BitVec.ofNat 32 symbols.length, 0, 0⟩ ∧
        t.mem.readBytes s.latched.dstBase.toNat symbols.length = symbols ∧
        SameOutside [⟨s.latched.dstBase.toNat, symbols.length⟩] s t ∧ SameSetting s t ∧ SameRegions s t) ∧
    ∀ rest : List Bool, s.budgetBits = payloadOf s.headerLengths symbols ++ rest →
      s.latched.dstCap.toNat < symbols.length →
      ∃ t, exec .hufDecode s = .next t ∧ Completed t .outCapacity ⟨0, 0, 0⟩ ∧ SameOutside [s.latched.dst] s t ∧
        SameSetting s t ∧ SameRegions s t

/-- HUF_DECODE of a bit budget that ends in bits no codeword begins or ends in (R187, R190, R191): with MAXLEN bits or
more of them the codeword is invalid, with fewer it is truncated. -/
def Obligations.HufDecodeBadCodeword : Prop :=
  ∀ (s : State) (symbols : List Byte) (rest : List Bool), DecodableHeader s →
    (∀ b ∈ symbols, s.headerLengths.getD b.toNat 0 ≠ 0) →
    s.budgetBits = payloadOf s.headerLengths symbols ++ rest → rest ≠ [] →
    (∀ b : Byte, s.headerLengths.getD b.toNat 0 ≠ 0 → ¬ codeword s.headerLengths b <+: rest) →
    symbols.length ≤ s.latched.dstCap.toNat →
    ∃ t, exec .hufDecode s = .next t ∧
      Completed t (if maxLenOf s.headerLengths ≤ rest.length then .hufInvalidCodeword else .hufTruncatedCode)
        ⟨0, 0, 0⟩ ∧
      SameOutside [s.latched.dst] s t ∧ SameSetting s t ∧ SameRegions s t

/-- R190: with a bit budget of 0, a valid header decodes to nothing whatever the capacity, and an invalid one fails;
with a bit to decode, the all-zero header fails at the first one. -/
def Obligations.HufDecodeZeroBits : Prop :=
  ∀ s : State, checkArgs .hufDecode s.latched = none → 256 ≤ s.latched.srcLen.toNat →
    (s.latched.srcBits = 0 → kraftOK s.headerLengths = true →
      ∃ t, exec .hufDecode s = .next t ∧ Completed t .none ⟨0, 0, 0⟩ ∧ t.mem = s.mem) ∧
    (s.latched.srcBits = 0 → kraftOK s.headerLengths = false →
      ∃ t, exec .hufDecode s = .next t ∧ Completed t .hufBadHeader ⟨0, 0, 0⟩) ∧
    (0 < s.latched.srcBits.toNat → s.latched.srcBits.toNat ≤ 8 * (s.latched.srcLen.toNat - 256) →
      s.headerLengths = List.replicate 256 0 →
      ∃ t, exec .hufDecode s = .next t ∧ Completed t .hufInvalidCodeword ⟨0, 0, 0⟩)

/-- R194: HUF_DECODE of what HUF_ENCODE wrote gives the input back, whatever the padding bits are, and one byte of
capacity less is CapacityExceeded. -/
def Obligations.HufRoundTrip : Prop :=
  ∀ s t u : State, exec .hufEncode s = .next t → t.status = Status.completed .none →
    checkArgs .hufDecode u.latched = none → u.latched.srcLen = t.res.len → u.latched.srcBits = t.res.bits →
    u.mem.readBytes u.latched.srcBase.toNat 256 = t.mem.readBytes t.res.base.toNat 256 →
    (∀ j < t.res.bits.toNat,
      getBit u j = payloadBit (fun k => t.mem.read (t.res.base.toNat + 256 + k)) j) →
    (s.latched.srcLen.toNat ≤ u.latched.dstCap.toNat →
      ∃ v, exec .hufDecode u = .next v ∧ v.status = Status.completed .none ∧ v.res.len = s.latched.srcLen ∧
        v.mem.readBytes u.latched.dstBase.toNat s.latched.srcLen.toNat = s.srcBytes) ∧
    (u.latched.dstCap.toNat + 1 = s.latched.srcLen.toNat →
      ∃ v, exec .hufDecode u = .next v ∧ v.status = Status.completed .outCapacity)

/-! ### Command control -/

/-- R212: a reserved opcode completes InvalidArgument(ILLEGAL_OP), with `STATUS` 0x00300402, all results 0, no buffer
access and no allocator request; `CMD.OP` keeps its value. `released`, which the frame holds, is the model's own field
(notes/assumptions/13.md). -/
def Obligations.ReservedOpcodeCompletes : Prop :=
  ∀ (op : Byte) (s : State), op = 0 ∨ 6 ≤ op.toNat →
    decodeOpcode op = .reservedOp op ∧
    ∃ t, exec (.reservedOp op) s = .next t ∧ Completed t .illegalOp ⟨0, 0, 0⟩ ∧ t.status.word = 0x00300402 ∧
      t.mem = s.mem ∧ SameSetting s t ∧ SameRegions s t ∧ (s.op = op → (t.readReg 64 0x00).toNat = op.toNat)

/-- R213: HUF_RELEASE completes OK; the null base releases nothing, any other is sent to the allocator and leaves LIVE,
and one that is not in LIVE sets HOSTFAULT. It makes no buffer access. `released`, which the null base's frame holds, is
the model's own field (notes/assumptions/13.md). -/
def Obligations.HufReleaseCompletes : Prop :=
  ∀ s : State,
    ∃ t, exec .hufRelease s = .next t ∧ Completed t .none ⟨0, 0, 0⟩ ∧ t.mem = s.mem ∧ SameSetting s t ∧
      t.allocAnswers = s.allocAnswers ∧
      (s.latched.srcBase = 0 → SameRegions s t) ∧
      (s.latched.srcBase ≠ 0 →
        t.portLog = .release s.latched.srcBase :: s.portLog ∧
        (∀ w, w ∈ t.live ↔ w ∈ s.live ∧ w.base ≠ s.latched.srcBase.toNat) ∧
        (t.hostFault = true ↔
          s.hostFault = true ∨ ∀ w ∈ s.live, w.base ≠ s.latched.srcBase.toNat))

/-- R211, R214, R222: from every state, every command runs to a completion: BUSY clear, DONE set, and all results 0
unless it succeeded. -/
def Obligations.EveryCommandCompletes : Prop :=
  ∀ (i : Instr) (s : State), isCommand i = true →
    ∃ t d, exec i s = .next t ∧ t.status = ⟨false, true, d.code, d⟩ ∧ t.stage = .idle ∧
      (d ≠ .none → t.res = ⟨0, 0, 0⟩) ∧ (i ≠ .hufEncode → t.res.bits = 0 ∧ t.res.base = 0)

/-- R226: which codes each command can raise. -/
def Obligations.CommandErrorCodes : Prop :=
  ∀ (i : Instr) (s t : State), exec i s = .next t →
    (i = .rleEncode → t.status.code ∈ [.ok, .capacityExceeded, .invalidArgument]) ∧
    (i = .rleDecode → t.status.code ∈ [.ok, .capacityExceeded, .malformedInput, .invalidArgument]) ∧
    (i = .hufEncode → t.status.code ∈ [.ok, .allocationFailure, .invalidArgument]) ∧
    (i = .hufDecode → t.status.code ∈ [.ok, .capacityExceeded, .malformedInput, .invalidArgument]) ∧
    (i = .hufRelease → t.status.code = .ok) ∧
    (∀ op, i = .reservedOp op → t.status.code = .invalidArgument)

/-- R63, R222(b), R223: whether it succeeds or fails, a command changes no byte outside its destination window, or,
for HUF_ENCODE, outside the region it was given, and none at all when it was given none. -/
def Obligations.WritesStayInWindow : Prop :=
  ∀ (i : Instr) (s t : State), isCommand i = true → exec i s = .next t →
    (i ≠ .hufEncode → SameOutside (destination i s.latched) s t) ∧
    (i = .hufEncode →
      (t.status = Status.completed .none → SameOutside [⟨t.res.base.toNat, t.res.len.toNat⟩] s t) ∧
      (t.status ≠ Status.completed .none → SameMemory s t))

/-- The frame of every instruction: none changes `CMD`, the operand registers, the latched operands or the world
outside, and only HUF_ENCODE and HUF_RELEASE touch LIVE, HOSTFAULT, the allocator port and the model's own field
`released` (R37, R63, R222(d); notes/assumptions/13.md). -/
def Obligations.InstructionFrame : Prop :=
  ∀ (i : Instr) (s t : State), exec i s = .next t →
    SameSetting s t ∧ (i ≠ .hufEncode → i ≠ .hufRelease → SameRegions s t)

/-- R48: no command's result depends on the working state it finds. The equality is of whole outcomes: it also equates
the working state left behind and the free bytes of a failure, which in the model are the same draws on both sides by
its choice (notes/assumptions/2.md, 20.md), so only the rest of it speaks of the hardware. -/
def Obligations.WorkingStateUnobservable : Prop :=
  ∀ (i : Instr) (s : State) (w : Work), isCommand i = true → exec i { s with work := w } = exec i s

/-! ### Steps and runs -/

/-- A step runs the decoded instruction: the command `CMD.OP` names when the core has its turn, and the packet the
control byte at `ipos` starts when a running RLE_DECODE takes its next part. The agenda and the parts are the model's
(notes/assumptions/6.md, 7.md). -/
def Obligations.StepRunsInstruction : Prop :=
  (∀ s : State, s.hostFault = false → s.stage = .issued → s.agenda = [] →
    step s = exec (decodeOpcode s.op) s) ∧
  (∀ (s : State) (rest : List Event), s.hostFault = false → s.stage = .issued → s.agenda = .core :: rest →
    step s = exec (decodeOpcode s.op) { s with agenda := rest }) ∧
  ∀ (s : State) (rest : List Event), s.hostFault = false → s.stage = .rleDecode → s.agenda = .corePart :: rest →
    s.work.rleDec.ipos.toNat < s.latched.srcLen.toNat →
    let ctl := s.mem.read (s.latched.srcBase.toNat + s.work.rleDec.ipos.toNat)
    step s = exec (decodeCtl ctl)
      { s with agenda := rest, work := { s.work with rleDec := { s.work.rleDec with ctl := ctl } } }

/-- R67: taking an issued command one sub-block, one packet or one symbol at a time comes to the same state as the
command's whole transaction, unless the region HUF_ENCODE was given broke HD6: then its run stops before the command
completes (notes/assumptions/12.md). The parts are the model's (notes/assumptions/7.md). -/
def Obligations.PartsMakeTheCommand : Prop :=
  ∀ s : State, s.hostFault = false → s.stage = .issued → s.agenda = [] →
    ∃ (k : Nat) (t : State), exec (decodeOpcode s.op) s = .next t ∧
      let parts := run k { s with agenda := List.replicate k .corePart }
      ((decodeOpcode s.op = .hufEncode → t.hostFault = false) → parts = .next t) ∧
      (decodeOpcode s.op = .hufEncode → t.hostFault = true → parts = .fault .hostDutyBroken)

/-- R262, R68, R211: at its turn a busy core, wherever its command stands, completes it in one step: DONE alone with the
ending's code and detail, all results 0 unless it succeeded (R222), and nothing of `CMD`, the operands and the world
outside changed. The agenda, and that its end is the core's turn, are the model's (notes/assumptions/6.md). -/
def Obligations.BusyCoreCompletes : Prop :=
  ∀ (s : State) (rest : List Event), s.Inv → s.hostFault = false → s.status.busy = true →
    s.agenda = .core :: rest ∨ s.agenda = [] ∧ rest = [] →
    ∃ t d, step s = .next t ∧ t.status = ⟨false, true, d.code, d⟩ ∧ t.stage = .idle ∧
      (d ≠ .none → t.res = ⟨0, 0, 0⟩) ∧ SameSetting { s with agenda := rest } t

/-- R231: nothing wakes an idle core but an issue; all state survives idleness, at the core's whole turn and at one part
of it. The agenda, and that its end is the core's turn, are the model's (notes/assumptions/6.md). -/
def Obligations.IdleCoreStays : Prop :=
  ∀ (s : State) (rest : List Event), s.Inv → s.hostFault = false → s.status.busy = false →
    s.agenda = .core :: rest ∨ s.agenda = .corePart :: rest ∨ s.agenda = [] ∧ rest = [] →
    step s = .next { s with agenda := rest }

/-- R37: only issue, completion and reset change the flags. R29 to R31, R33: only completion and reset change the result
registers, so that a running command keeps what the previous completion wrote. -/
def Obligations.FlagWriters : Prop :=
  ∀ s t : State, s.Inv → step s = .next t →
    let completes := s.status.busy = true ∧ ∃ d, t.status = Status.completed d
    (t.status ≠ s.status →
      (s.status.busy = false ∧ t.status = Status.running ∧
        ∃ width v rest, s.agenda = .regWrite width 0x00 v :: rest) ∨
      completes ∨ (t.status = Status.reset ∧ ∃ rest, s.agenda = .reset :: rest)) ∧
    (t.res ≠ s.res → completes ∨ (t.res = Results.zero ∧ ∃ rest, s.agenda = .reset :: rest))

/-- R38: a run in which HOSTFAULT is set has no meaning: the next step faults, whatever it is, unless it is reset; no
other event clears the mark. The stop is the model's reading (notes/assumptions/12.md). -/
def Obligations.HostFaultEndsRun : Prop :=
  (∀ s : State, s.hostFault = true → (∀ rest, s.agenda ≠ .reset :: rest) → step s = .fault .hostDutyBroken) ∧
  ∀ (e : Event) (s t : State), e ≠ .reset → s.hostFault = true → event e s = .next t → t.hostFault = true

/-- R256: the duties HD1, HD3, HD5 and HD6 as the model judges them (notes/assumptions/13.md). A host write in a window
of the running command and a host read in a window it writes set HOSTFAULT, other host accesses of memory do not. An
issue sets it exactly when a window of the command meets memory that is not plain or a window another instance is
running on, or when a decode is given a released byte; a change of the platform exactly when a window of the running
command meets one of these, and that change changes nothing else. A byte is released by HUF_RELEASE of its region, and no
longer once the host, or another agent in the model's reading, writes it; register accesses release nothing. -/
def Obligations.HostDutiesJudged : Prop :=
  (∀ (s : State) (a : Addr) (v : Byte), s.hostFault = false →
    ((hostStore a v s).hostFault = true ↔ ∃ w ∈ s.readWindows ++ s.writeWindows, w.has a.toNat = true) ∧
    ((hostLoad a s).hostFault = true ↔ ∃ w ∈ s.writeWindows, w.has a.toNat = true)) ∧
  (∀ (s : State) (v : Slot), s.hostFault = false → s.status.busy = false →
    let c := decodeCommand v
    ((hostWrite 64 0x00 v s).hostFault = true ↔
      (∃ w ∈ commandWindows c s.regs, ∃ w' ∈ s.nonPlain ++ s.otherWindows, w.overlaps w' = true) ∨
      (c = .rleDecode ∨ c = .hufDecode) ∧ ∃ a ∈ s.released, s.regs.src.has a = true)) ∧
  (∀ (s : State) (others nonPlain : List Window), s.hostFault = false →
    ((platformChange others nonPlain s).hostFault = true ↔
      ∃ w ∈ s.readWindows ++ s.writeWindows, ∃ w' ∈ nonPlain ++ others, w.overlaps w' = true)) ∧
  (∀ (s : State) (others nonPlain : List Window),
    let t := platformChange others nonPlain s
    t = { s with otherWindows := others, nonPlain := nonPlain, hostFault := t.hostFault }) ∧
  (∀ s : State, s.latched.srcBase ≠ 0 →
    ∀ x, x ∈ (hufRelease s).released ↔
      x ∈ s.released ∨ ∃ w, s.liveRegion s.latched.srcBase = some w ∧ w.has x = true) ∧
  (∀ (s : State) (width offset : Nat) (v : Slot), (hostWrite width offset v s).released = s.released) ∧
  ∀ (s : State) (a : Addr) (v : Byte) (x : Nat), x ∈ (hostStore a v s).released ↔ x ∈ s.released ∧ x ≠ a.toNat

/-- R61, R66: a host write to buffer memory stores its byte and leaves every other byte alone, a later host read returns
it, and neither changes anything else of the core but HOSTFAULT. A step with such an access, or one of a register, next
on the agenda does just that. The agenda, `released` and `busData` are the model's (notes/assumptions/6.md, 13.md,
16.md). -/
def Obligations.HostAccesses : Prop :=
  (∀ (s : State) (a : Addr) (v : Byte),
    let t := hostStore a v s
    t.mem.read a.toNat = v ∧ (∀ b, b ≠ a.toNat → t.mem.read b = s.mem.read b) ∧
    (hostLoad a t).busData.toNat = v.toNat ∧
    t = { s with mem := t.mem, released := t.released, hostFault := t.hostFault }) ∧
  (∀ (s : State) (a : Addr),
    let t := hostLoad a s
    t.busData.toNat = (s.mem.read a.toNat).toNat ∧ t = { s with busData := t.busData, hostFault := t.hostFault }) ∧
  ∀ (s : State) (rest : List Event), s.hostFault = false →
    let u := { s with agenda := rest }
    (∀ a v, s.agenda = .memWrite a v :: rest → step s = .next (hostStore a v u)) ∧
    (∀ a, s.agenda = .memRead a :: rest → step s = .next (hostLoad a u)) ∧
    (∀ width offset v, s.agenda = .regWrite width offset v :: rest → step s = .next (hostWrite width offset v u)) ∧
    ∀ width offset, s.agenda = .regRead width offset :: rest → step s = .next (hostRead width offset u)

/-- The invariant holds after reset. -/
def Obligations.InvariantAtReset : Prop := State.reset.Inv

/-- Every step keeps the invariant. -/
def Obligations.StepKeepsInvariant : Prop :=
  ∀ s t : State, s.Inv → step s = .next t → t.Inv
end

