-- ==== Sys2Proof/Laws/Packets.lean ====
section
/-! SUPPORT. The RLE encoder's split of its input (40_rle.md R110 to R115) and the packets' bytes (30_encoding.md R84 to
R87). -/

namespace Sys2Proof.Machine

/-! ### Runs and literals -/

@[simp] theorem runLen_nil : runLen [] = 0 := rfl

theorem runLen_le_length (input : List Byte) : runLen input ≤ input.length := by
  cases input with
  | nil => rfl
  | cons v rest =>
    have h := (List.takeWhile_prefix (p := (· == v)) (l := rest.take (Config.maxRun - 1))).length_le
    simp only [runLen, List.length_cons, List.length_take] at *
    omega

theorem runLen_le_max (input : List Byte) : runLen input ≤ 128 := by
  cases input with
  | nil => simp
  | cons v rest =>
    have h := (List.takeWhile_prefix (p := (· == v)) (l := rest.take (Config.maxRun - 1))).length_le
    simp only [runLen, Config.maxRun, List.length_take] at *
    omega

theorem runLen_pos {input : List Byte} (h : input ≠ []) : 0 < runLen input := by
  cases input with
  | nil => contradiction
  | cons v rest => simp only [runLen]; omega

/-- The first `runLen` bytes all equal the first (R110). -/
theorem take_runLen (v : Byte) (rest : List Byte) :
    (v :: rest).take (runLen (v :: rest)) = List.replicate (runLen (v :: rest)) v := by
  have hp := List.takeWhile_prefix (p := (· == v)) (l := rest.take (Config.maxRun - 1))
  have hall : ∀ b ∈ (rest.take (Config.maxRun - 1)).takeWhile (· == v), b = v := fun b hb => by
    simpa using List.mem_takeWhile_imp hb
  have hp2 := hp.trans (List.take_prefix _ rest)
  rw [runLen, Nat.add_comm, List.take_succ_cons, ← List.prefix_iff_eq_take.1 hp2, List.replicate_succ,
    List.eq_replicate_of_mem hall, List.length_replicate]

theorem litLen_le_room (room : Nat) (input : List Byte) : litLen room input ≤ room := by
  induction room generalizing input with
  | zero => simp [litLen]
  | succ room ih =>
    cases input with
    | nil => simp [litLen]
    | cons v rest =>
      simp only [litLen]
      split
      · omega
      · have := ih rest; omega

theorem litLen_le_length (room : Nat) (input : List Byte) : litLen room input ≤ input.length := by
  induction room generalizing input with
  | zero => simp [litLen]
  | succ room ih =>
    cases input with
    | nil => simp [litLen]
    | cons v rest =>
      simp only [litLen, List.length_cons]
      split
      · omega
      · have := ih rest; omega

/-- The first byte of a Literal is always taken (R115). -/
theorem litLen_pos {room : Nat} {input : List Byte} (hi : input ≠ []) (h : ¬ Config.tRun ≤ runLen input)
    (hr : 0 < room) : 0 < litLen room input := by
  cases room with
  | zero => omega
  | succ room =>
    cases input with
    | nil => contradiction
    | cons v rest => simp only [litLen, if_neg h]; omega

/-! ### The next packet -/

/-- The next packet stands for a prefix of the remaining input (R125). -/
theorem nextPacket_span (input : List Byte) :
    (nextPacket input).span = input.take (nextPacket input).span.length := by
  unfold nextPacket
  split
  · rename_i h
    cases input with
    | nil => simp [Config.tRun] at h
    | cons v rest =>
      simp only [Packet.span, List.headD_cons, List.length_replicate]
      exact (take_runLen v rest).symm
  · simp only [Packet.span, List.length_take]
    rw [Nat.min_eq_left (litLen_le_length _ _)]

theorem nextPacket_span_le (input : List Byte) : (nextPacket input).span.length ≤ input.length := by
  unfold nextPacket
  split
  · simpa [Packet.span] using runLen_le_length input
  · simp [Packet.span]

/-- A packet takes at least one byte of a non-empty input (R215). -/
theorem nextPacket_span_pos {input : List Byte} (h : input ≠ []) : 0 < (nextPacket input).span.length := by
  unfold nextPacket
  split
  · simpa [Packet.span] using runLen_pos h
  · rename_i hr
    have := litLen_pos (room := Config.maxLit) h hr (by norm_num)
    have := litLen_le_length Config.maxLit input
    simp only [Packet.span, List.length_take]
    omega

/-- The encoder's packets are well formed: counts 1 to 128 (R118). -/
theorem nextPacket_wf {input : List Byte} (h : input ≠ []) : (nextPacket input).wf = true := by
  have hp := nextPacket_span_pos h
  unfold nextPacket at hp ⊢
  split
  · have := runLen_le_max input
    have := runLen_pos h
    simp only [Packet.wf, Bool.and_eq_true, decide_eq_true_eq]
    omega
  · rename_i hr
    rw [if_neg hr] at hp
    have := litLen_le_room Config.maxLit input
    simp only [Packet.span] at hp
    simp only [Packet.wf, Config.maxLit, Bool.and_eq_true, decide_eq_true_eq, List.length_take] at this hp ⊢
    omega

/-! ### All packets -/

theorem packetsOf_cons {fuel : Nat} {input : List Byte} (h : input ≠ []) :
    packetsOf (fuel + 1) input =
      nextPacket input :: packetsOf fuel (input.drop (nextPacket input).span.length) := by
  cases input with
  | nil => contradiction
  | cons v rest => rfl

@[simp] theorem packetsOf_nil (fuel : Nat) : packetsOf fuel [] = [] := by cases fuel <;> rfl

/-- More fuel than the input's length changes nothing. -/
theorem packetsOf_fuel {fuel : Nat} {input : List Byte} (h : input.length ≤ fuel) :
    packetsOf fuel input = packetsOf input.length input := by
  induction fuel using Nat.strong_induction_on generalizing input with
  | _ fuel ih =>
    cases hin : input with
    | nil => simp
    | cons v rest =>
      rw [← hin]
      have hne : input ≠ [] := by simp [hin]
      have hpos := nextPacket_span_pos hne
      have hlen : 0 < input.length := by simp [hin]
      obtain ⟨n, hn⟩ : ∃ n, input.length = n + 1 := ⟨input.length - 1, by omega⟩
      obtain ⟨f, rfl⟩ : ∃ f, fuel = f + 1 := ⟨fuel - 1, by omega⟩
      rw [hn, packetsOf_cons hne, packetsOf_cons hne]
      congr 1
      have hd : (input.drop (nextPacket input).span.length).length ≤ n := by
        simp only [List.length_drop]; omega
      rw [ih f (by omega) (by omega)]
      rcases Nat.lt_or_ge n (f + 1) with hlt | hge
      · exact (ih n hlt hd).symm
      · have : n = f := by omega
        subst this
        exact (ih n (by omega) hd).symm

/-- The packets of an input: the next packet, then those of the rest (R111). -/
theorem rlePackets_cons {input : List Byte} (h : input ≠ []) :
    rlePackets input = nextPacket input :: rlePackets (input.drop (nextPacket input).span.length) := by
  have hlen : 0 < input.length := List.length_pos_of_ne_nil h
  have hpos := nextPacket_span_pos h
  obtain ⟨n, hn⟩ : ∃ n, input.length = n + 1 := ⟨input.length - 1, by omega⟩
  unfold rlePackets
  rw [hn, packetsOf_cons h, packetsOf_fuel]
  simp only [List.length_drop]; omega

@[simp] theorem rlePackets_nil : rlePackets [] = [] := rfl

/-! ### Bytes of a packet -/

theorem Packet.encode_length (p : Packet) :
    p.encode.length = match p with | .lit bytes => bytes.length + 1 | .run _ _ => 2 := by
  cases p <;> rfl

@[simp] theorem encodeStream_nil : encodeStream [] = [] := rfl

@[simp] theorem encodeStream_cons (p : Packet) (ps : List Packet) :
    encodeStream (p :: ps) = p.encode ++ encodeStream ps := rfl

end Sys2Proof.Machine
end

