-- ==== Sys2Proof/Laws/Memory.lean ====
section
/-! SUPPORT. Buffer memory: a read after a write, and the canonical form (20_memory.md R61 to R66). -/

namespace Sys2Proof.Machine

/-! ### Reads after writes -/

@[simp] theorem Memory.read_nil (a : Nat) : Memory.read [] a = blankByte := rfl

theorem Memory.read_cons (k : Nat) (v : Byte) (m : Memory) (a : Nat) :
    Memory.read ((k, v) :: m) a = if k = a then v else Memory.read m a := rfl

theorem Memory.read_filter_self (m : Memory) (a : Nat) :
    Memory.read (m.filter fun cell => cell.1 ≠ a) a = blankByte := by
  induction m with
  | nil => rfl
  | cons cell m ih =>
    obtain ⟨k, v⟩ := cell
    by_cases h : k = a
    · simpa [h] using ih
    · simp [h, Memory.read_cons] at ih ⊢; exact ih

theorem Memory.read_filter_ne (m : Memory) {a b : Nat} (h : b ≠ a) :
    Memory.read (m.filter fun cell => cell.1 ≠ a) b = Memory.read m b := by
  induction m with
  | nil => rfl
  | cons cell m ih =>
    obtain ⟨k, v⟩ := cell
    by_cases hk : k = a
    · subst hk
      simpa [Memory.read_cons, Ne.symm h] using ih
    · simp only [ne_eq, hk, not_false_eq_true, decide_true, List.filter_cons_of_pos, Memory.read_cons]
      split
      · rfl
      · exact ih

theorem Memory.read_insert (m : Memory) (a : Nat) (v : Byte) (b : Nat) (h : Memory.read m a = blankByte)
    (hk : ∀ cell ∈ m, cell.1 ≠ a) :
    Memory.read (Memory.insert m a v) b = if b = a then v else Memory.read m b := by
  induction m with
  | nil => simp [Memory.insert, Memory.read_cons, eq_comm]
  | cons cell m ih =>
    obtain ⟨k, w⟩ := cell
    have hka : k ≠ a := hk (k, w) (by simp)
    have hm : Memory.read m a = blankByte := by simpa [Memory.read_cons, hka] using h
    have hk' : ∀ cell ∈ m, cell.1 ≠ a := fun c hc => hk c (by simp [hc])
    by_cases hlt : a < k
    · simp only [Memory.insert, hlt, ↓reduceIte, Memory.read_cons, eq_comm]
    · simp only [Memory.insert, hlt, ↓reduceIte, Memory.read_cons, ih hm hk']
      by_cases hb : b = a
      · subst hb; simp [hka]
      · simp [hb]

/-- A read returns the last value written; a write leaves every other byte alone (R66). -/
theorem Memory.read_write (m : Memory) (a : Nat) (v : Byte) (b : Nat) :
    (m.write a v).read b = if b = a then v else m.read b := by
  unfold Memory.write
  by_cases hv : v = blankByte
  · by_cases hb : b = a
    · subst hb
      simpa [hv] using Memory.read_filter_self m b
    · simpa [hv, hb] using Memory.read_filter_ne m hb
  · simp only [hv, ↓reduceIte]
    rw [Memory.read_insert _ _ _ _ (Memory.read_filter_self m a) (by simp)]
    split
    · rfl
    · exact Memory.read_filter_ne m (by assumption)

@[simp] theorem Memory.read_write_self (m : Memory) (a : Nat) (v : Byte) : (m.write a v).read a = v := by
  simp [Memory.read_write]

theorem Memory.read_write_ne (m : Memory) {a b : Nat} (v : Byte) (h : b ≠ a) :
    (m.write a v).read b = m.read b := by
  simp [Memory.read_write, h]

@[simp] theorem Memory.writeBytes_nil (m : Memory) (a : Nat) : m.writeBytes a [] = m := rfl

/-- What a byte reads as after `bs` was written from `a` upward. -/
theorem Memory.read_writeBytes (m : Memory) (a : Nat) (bs : List Byte) (b : Nat) :
    (m.writeBytes a bs).read b = if a ≤ b then (bs[b - a]?).getD (m.read b) else m.read b := by
  induction bs generalizing m a with
  | nil => simp
  | cons v bs ih =>
    rw [Memory.writeBytes, ih, Memory.read_write]
    rcases Nat.lt_trichotomy b a with h | h | h
    · simp [show ¬ a ≤ b by omega, show ¬ a + 1 ≤ b by omega, show b ≠ a by omega]
    · subst h; simp
    · obtain ⟨d, rfl⟩ : ∃ d, b = a + 1 + d := ⟨b - (a + 1), by omega⟩
      simp [show a + 1 + d - a = d + 1 by omega, show a ≤ a + 1 + d by omega, show a + 1 + d ≠ a by omega]

/-- Writing bytes leaves every byte outside their region alone (R63). -/
theorem Memory.read_writeBytes_outside (m : Memory) (a : Nat) (bs : List Byte) (b : Nat)
    (h : b < a ∨ a + bs.length ≤ b) : (m.writeBytes a bs).read b = m.read b := by
  rw [Memory.read_writeBytes]
  split
  · rw [List.getElem?_eq_none (by omega)]; rfl
  · rfl

/-- The byte written at an offset reads back. -/
theorem Memory.read_writeBytes_inside (m : Memory) (a : Nat) (bs : List Byte) (i : Nat) (h : i < bs.length) :
    (m.writeBytes a bs).read (a + i) = bs[i] := by
  simp [Memory.read_writeBytes, h]

/-- The bytes written read back. -/
theorem Memory.readBytes_writeBytes (m : Memory) (a : Nat) (bs : List Byte) :
    (m.writeBytes a bs).readBytes a bs.length = bs := by
  apply List.ext_getElem
  · simp [Memory.readBytes]
  · intro i h _
    have hi : i < bs.length := by simpa [Memory.readBytes] using h
    simp [Memory.readBytes, Memory.read_writeBytes_inside, hi]

@[simp] theorem Memory.length_readBytes (m : Memory) (a n : Nat) : (m.readBytes a n).length = n := by
  simp [Memory.readBytes]

theorem Memory.getElem_readBytes (m : Memory) (a n i : Nat) (h : i < (m.readBytes a n).length) :
    (m.readBytes a n)[i] = m.read (a + i) := by
  simp [Memory.readBytes]

/-- Reading a region depends only on the bytes in it. -/
theorem Memory.readBytes_congr {m m' : Memory} {a n : Nat} (h : ∀ i < n, m.read (a + i) = m'.read (a + i)) :
    m.readBytes a n = m'.readBytes a n := by
  apply List.map_congr_left
  intro i hi
  exact h i (by simpa using hi)

/-- Reading a region in two parts. -/
theorem Memory.readBytes_append (m : Memory) (a n k : Nat) :
    m.readBytes a (n + k) = m.readBytes a n ++ m.readBytes (a + n) k := by
  simp only [Memory.readBytes, List.range_add, List.map_append, List.map_map]
  congr 1
  apply List.map_congr_left
  intro i _
  simp [Nat.add_assoc]

/-- The first byte of a region, then the rest. -/
theorem Memory.readBytes_succ (m : Memory) (a n : Nat) :
    m.readBytes a (n + 1) = m.read a :: m.readBytes (a + 1) n := by
  rw [Nat.add_comm, Memory.readBytes_append]
  simp [Memory.readBytes]

/-! ### The canonical form -/

theorem Memory.wf_filter {m : Memory} (p : Host.Cell → Bool) (h : m.wf = true) : Memory.wf (m.filter p) = true := by
  induction m with
  | nil => rfl
  | cons cell m ih =>
    obtain ⟨k, v⟩ := cell
    simp only [Memory.wf, Bool.and_eq_true, bne_iff_ne, List.all_eq_true, decide_eq_true_eq] at h
    by_cases hp : p (k, v)
    · simp only [List.filter_cons_of_pos hp, Memory.wf, Bool.and_eq_true, bne_iff_ne, List.all_eq_true,
        decide_eq_true_eq, List.mem_filter, and_imp]
      exact ⟨⟨h.1.1, fun c hc _ => h.1.2 c hc⟩, ih h.2⟩
    · simpa [List.filter_cons_of_neg hp] using ih h.2

theorem Memory.mem_insert {m : Memory} {a : Nat} {v : Byte} {c : Host.Cell} (h : c ∈ Memory.insert m a v) :
    c = (a, v) ∨ c ∈ m := by
  induction m with
  | nil => simpa [Memory.insert] using h
  | cons cell m ih =>
    obtain ⟨k, w⟩ := cell
    simp only [Memory.insert] at h
    split at h
    · simpa using h
    · rcases List.mem_cons.1 h with h | h
      · exact .inr (by simp [h])
      · rcases ih h with h | h
        · exact .inl h
        · exact .inr (by simp [h])

theorem Memory.wf_insert {m : Memory} {a : Nat} {v : Byte} (h : m.wf = true) (hv : v ≠ blankByte)
    (hk : ∀ cell ∈ m, cell.1 ≠ a) : (Memory.insert m a v).wf = true := by
  induction m with
  | nil => simp [Memory.insert, Memory.wf, hv]
  | cons cell m ih =>
    obtain ⟨k, w⟩ := cell
    simp only [Memory.wf, Bool.and_eq_true, bne_iff_ne, List.all_eq_true, decide_eq_true_eq] at h
    have hka : k ≠ a := hk (k, w) (by simp)
    simp only [Memory.insert]
    split
    · rename_i hlt
      simp only [Memory.wf, List.all_cons, Bool.and_eq_true, bne_iff_ne, List.all_eq_true, decide_eq_true_eq]
      exact ⟨⟨hv, hlt, fun c hc => lt_trans hlt (h.1.2 c hc)⟩, h.1, h.2⟩
    · simp only [Memory.wf, Bool.and_eq_true, bne_iff_ne, List.all_eq_true, decide_eq_true_eq]
      refine ⟨⟨h.1.1, fun c hc => ?_⟩, ih h.2 fun c hc => hk c (by simp [hc])⟩
      rcases Memory.mem_insert hc with rfl | hc
      · show k < a; omega
      · exact h.1.2 c hc

/-- A write keeps the canonical form. -/
theorem Memory.wf_write {m : Memory} (a : Nat) (v : Byte) (h : m.wf = true) : (m.write a v).wf = true := by
  unfold Memory.write
  by_cases hv : v = blankByte
  · simpa [hv] using Memory.wf_filter _ h
  · simp only [hv, ↓reduceIte]
    exact Memory.wf_insert (Memory.wf_filter _ h) hv (by simp)

/-- Writing bytes keeps the canonical form. -/
theorem Memory.wf_writeBytes {m : Memory} (a : Nat) (bs : List Byte) (h : m.wf = true) :
    (m.writeBytes a bs).wf = true := by
  induction bs generalizing m a with
  | nil => exact h
  | cons v bs ih => exact ih _ (Memory.wf_write a v h)

theorem Memory.inSpace_write {m : Memory} {a : Nat} (v : Byte) (h : m.inSpace = true) (ha : a < Config.addrSpace) :
    (m.write a v).inSpace = true := by
  simp only [Memory.inSpace, List.all_eq_true, decide_eq_true_eq] at h ⊢
  intro c hc
  unfold Memory.write at hc
  by_cases hv : v = blankByte
  · rw [if_pos hv] at hc
    exact h c (List.mem_filter.1 hc).1
  · rw [if_neg hv] at hc
    rcases Memory.mem_insert hc with rfl | hc
    · exact ha
    · exact h c (List.mem_filter.1 hc).1

/-- Writing bytes inside the address space keeps every listed address in it (R61). -/
theorem Memory.inSpace_writeBytes {m : Memory} {a : Nat} (bs : List Byte) (h : m.inSpace = true)
    (ha : a + bs.length ≤ Config.addrSpace) : (m.writeBytes a bs).inSpace = true := by
  induction bs generalizing m a with
  | nil => exact h
  | cons v bs ih =>
    simp only [List.length_cons] at ha
    exact ih (Memory.inSpace_write v h (by omega)) (by omega)

theorem Memory.read_of_lt {m : Memory} {k : Nat} {v : Byte} {a : Nat} (h : Memory.wf ((k, v) :: m) = true)
    (ha : a < k) : Memory.read ((k, v) :: m) a = blankByte := by
  induction m generalizing k v with
  | nil => simp [Memory.read_cons, show k ≠ a by omega]
  | cons cell m ih =>
    obtain ⟨k', v'⟩ := cell
    simp only [Memory.wf, List.all_cons, Bool.and_eq_true, bne_iff_ne, List.all_eq_true, decide_eq_true_eq] at h
    rw [Memory.read_cons, if_neg (by omega)]
    exact ih (by simp only [Memory.wf, Bool.and_eq_true, bne_iff_ne, List.all_eq_true, decide_eq_true_eq]; exact h.2)
      (by omega)

theorem Memory.read_tail_of_le {m : Memory} {k : Nat} {v : Byte} {a : Nat} (h : Memory.wf ((k, v) :: m) = true)
    (ha : a ≤ k) : Memory.read m a = blankByte := by
  cases m with
  | nil => rfl
  | cons cell m =>
    obtain ⟨k', v'⟩ := cell
    simp only [Memory.wf, List.all_cons, Bool.and_eq_true, bne_iff_ne, List.all_eq_true, decide_eq_true_eq] at h
    exact Memory.read_of_lt (by
      simp only [Memory.wf, Bool.and_eq_true, bne_iff_ne, List.all_eq_true, decide_eq_true_eq]; exact h.2) (by omega)

end Sys2Proof.Machine
end

