-- ==== Sys2Proof/Laws/State.lean ====
section
/-! SUPPORT. The fields of State after each shared operation of Machine/Ops.lean, one lemma per field. -/

namespace Sys2Proof.Machine

variable (s : State)

/-! ### After a store -/

@[simp] theorem State.store_op (a : Nat) (bs : List Byte) : (s.store a bs).op = s.op := rfl
@[simp] theorem State.store_status (a : Nat) (bs : List Byte) : (s.store a bs).status = s.status := rfl
@[simp] theorem State.store_regs (a : Nat) (bs : List Byte) : (s.store a bs).regs = s.regs := rfl
@[simp] theorem State.store_latched (a : Nat) (bs : List Byte) : (s.store a bs).latched = s.latched := rfl
@[simp] theorem State.store_res (a : Nat) (bs : List Byte) : (s.store a bs).res = s.res := rfl
@[simp] theorem State.store_mem (a : Nat) (bs : List Byte) : (s.store a bs).mem = s.mem.writeBytes a bs := rfl
@[simp] theorem State.store_work (a : Nat) (bs : List Byte) : (s.store a bs).work = s.work := rfl
@[simp] theorem State.store_stage (a : Nat) (bs : List Byte) : (s.store a bs).stage = s.stage := rfl
@[simp] theorem State.store_live (a : Nat) (bs : List Byte) : (s.store a bs).live = s.live := rfl
@[simp] theorem State.store_hostFault (a : Nat) (bs : List Byte) : (s.store a bs).hostFault = s.hostFault := rfl
@[simp] theorem State.store_released (a : Nat) (bs : List Byte) : (s.store a bs).released = s.released := rfl
@[simp] theorem State.store_otherWindows (a : Nat) (bs : List Byte) : (s.store a bs).otherWindows = s.otherWindows := rfl
@[simp] theorem State.store_nonPlain (a : Nat) (bs : List Byte) : (s.store a bs).nonPlain = s.nonPlain := rfl
@[simp] theorem State.store_allocAnswers (a : Nat) (bs : List Byte) : (s.store a bs).allocAnswers = s.allocAnswers := rfl
@[simp] theorem State.store_portLog (a : Nat) (bs : List Byte) : (s.store a bs).portLog = s.portLog := rfl
@[simp] theorem State.store_busData (a : Nat) (bs : List Byte) : (s.store a bs).busData = s.busData := rfl
@[simp] theorem State.store_agenda (a : Nat) (bs : List Byte) : (s.store a bs).agenda = s.agenda := rfl
@[simp] theorem State.store_draws (a : Nat) (bs : List Byte) : (s.store a bs).draws = s.draws := rfl

/-! ### After a spoilt window -/

@[simp] theorem State.spoil_op (w : Window) : (s.spoil w).op = s.op := rfl
@[simp] theorem State.spoil_status (w : Window) : (s.spoil w).status = s.status := rfl
@[simp] theorem State.spoil_regs (w : Window) : (s.spoil w).regs = s.regs := rfl
@[simp] theorem State.spoil_latched (w : Window) : (s.spoil w).latched = s.latched := rfl
@[simp] theorem State.spoil_res (w : Window) : (s.spoil w).res = s.res := rfl
@[simp] theorem State.spoil_mem (w : Window) : (s.spoil w).mem = s.mem.writeBytes w.base (freeBytes s.draws w.len) := rfl
@[simp] theorem State.spoil_work (w : Window) : (s.spoil w).work = s.work := rfl
@[simp] theorem State.spoil_stage (w : Window) : (s.spoil w).stage = s.stage := rfl
@[simp] theorem State.spoil_live (w : Window) : (s.spoil w).live = s.live := rfl
@[simp] theorem State.spoil_hostFault (w : Window) : (s.spoil w).hostFault = s.hostFault := rfl
@[simp] theorem State.spoil_released (w : Window) : (s.spoil w).released = s.released := rfl
@[simp] theorem State.spoil_otherWindows (w : Window) : (s.spoil w).otherWindows = s.otherWindows := rfl
@[simp] theorem State.spoil_nonPlain (w : Window) : (s.spoil w).nonPlain = s.nonPlain := rfl
@[simp] theorem State.spoil_allocAnswers (w : Window) : (s.spoil w).allocAnswers = s.allocAnswers := rfl
@[simp] theorem State.spoil_portLog (w : Window) : (s.spoil w).portLog = s.portLog := rfl
@[simp] theorem State.spoil_busData (w : Window) : (s.spoil w).busData = s.busData := rfl
@[simp] theorem State.spoil_agenda (w : Window) : (s.spoil w).agenda = s.agenda := rfl
@[simp] theorem State.spoil_draws (w : Window) : (s.spoil w).draws = s.draws + w.len := rfl

/-! ### After an allocation request -/

@[simp] theorem State.requestAlloc_op (n : Nat) : (s.requestAlloc n).op = s.op := rfl
@[simp] theorem State.requestAlloc_status (n : Nat) : (s.requestAlloc n).status = s.status := rfl
@[simp] theorem State.requestAlloc_regs (n : Nat) : (s.requestAlloc n).regs = s.regs := rfl
@[simp] theorem State.requestAlloc_latched (n : Nat) : (s.requestAlloc n).latched = s.latched := rfl
@[simp] theorem State.requestAlloc_res (n : Nat) : (s.requestAlloc n).res = s.res := rfl
@[simp] theorem State.requestAlloc_mem (n : Nat) : (s.requestAlloc n).mem = s.mem := rfl
@[simp] theorem State.requestAlloc_work (n : Nat) : (s.requestAlloc n).work = s.work := rfl
@[simp] theorem State.requestAlloc_stage (n : Nat) : (s.requestAlloc n).stage = s.stage := rfl
@[simp] theorem State.requestAlloc_live (n : Nat) : (s.requestAlloc n).live = s.live := rfl
@[simp] theorem State.requestAlloc_hostFault (n : Nat) : (s.requestAlloc n).hostFault = s.hostFault := rfl
@[simp] theorem State.requestAlloc_released (n : Nat) : (s.requestAlloc n).released = s.released := rfl
@[simp] theorem State.requestAlloc_otherWindows (n : Nat) : (s.requestAlloc n).otherWindows = s.otherWindows := rfl
@[simp] theorem State.requestAlloc_nonPlain (n : Nat) : (s.requestAlloc n).nonPlain = s.nonPlain := rfl
@[simp] theorem State.requestAlloc_allocAnswers (n : Nat) : (s.requestAlloc n).allocAnswers = s.allocAnswers.tail := rfl
@[simp] theorem State.requestAlloc_portLog (n : Nat) : (s.requestAlloc n).portLog = .alloc n :: s.portLog := rfl
@[simp] theorem State.requestAlloc_busData (n : Nat) : (s.requestAlloc n).busData = s.busData := rfl
@[simp] theorem State.requestAlloc_agenda (n : Nat) : (s.requestAlloc n).agenda = s.agenda := rfl
@[simp] theorem State.requestAlloc_draws (n : Nat) : (s.requestAlloc n).draws = s.draws + 1 := rfl

/-! ### After a release request -/

@[simp] theorem State.requestRelease_op (b : Addr) : (s.requestRelease b).op = s.op := rfl
@[simp] theorem State.requestRelease_status (b : Addr) : (s.requestRelease b).status = s.status := rfl
@[simp] theorem State.requestRelease_regs (b : Addr) : (s.requestRelease b).regs = s.regs := rfl
@[simp] theorem State.requestRelease_latched (b : Addr) : (s.requestRelease b).latched = s.latched := rfl
@[simp] theorem State.requestRelease_res (b : Addr) : (s.requestRelease b).res = s.res := rfl
@[simp] theorem State.requestRelease_mem (b : Addr) : (s.requestRelease b).mem = s.mem := rfl
@[simp] theorem State.requestRelease_work (b : Addr) : (s.requestRelease b).work = s.work := rfl
@[simp] theorem State.requestRelease_stage (b : Addr) : (s.requestRelease b).stage = s.stage := rfl
@[simp] theorem State.requestRelease_live (b : Addr) : (s.requestRelease b).live = s.live := rfl
@[simp] theorem State.requestRelease_hostFault (b : Addr) : (s.requestRelease b).hostFault = s.hostFault := rfl
@[simp] theorem State.requestRelease_released (b : Addr) : (s.requestRelease b).released = s.released := rfl
@[simp] theorem State.requestRelease_otherWindows (b : Addr) : (s.requestRelease b).otherWindows = s.otherWindows := rfl
@[simp] theorem State.requestRelease_nonPlain (b : Addr) : (s.requestRelease b).nonPlain = s.nonPlain := rfl
@[simp] theorem State.requestRelease_allocAnswers (b : Addr) : (s.requestRelease b).allocAnswers = s.allocAnswers := rfl
@[simp] theorem State.requestRelease_portLog (b : Addr) : (s.requestRelease b).portLog = .release b :: s.portLog := rfl
@[simp] theorem State.requestRelease_busData (b : Addr) : (s.requestRelease b).busData = s.busData := rfl
@[simp] theorem State.requestRelease_agenda (b : Addr) : (s.requestRelease b).agenda = s.agenda := rfl
@[simp] theorem State.requestRelease_draws (b : Addr) : (s.requestRelease b).draws = s.draws := rfl

/-! ### After an issue (R210) -/

@[simp] theorem State.issue_op (o : Byte) : (s.issue o).op = o := rfl
@[simp] theorem State.issue_status (o : Byte) : (s.issue o).status = Status.running := rfl
@[simp] theorem State.issue_regs (o : Byte) : (s.issue o).regs = s.regs := rfl
@[simp] theorem State.issue_latched (o : Byte) : (s.issue o).latched = s.regs := rfl
@[simp] theorem State.issue_res (o : Byte) : (s.issue o).res = s.res := rfl
@[simp] theorem State.issue_mem (o : Byte) : (s.issue o).mem = s.mem := rfl
@[simp] theorem State.issue_work (o : Byte) : (s.issue o).work = s.work := rfl
@[simp] theorem State.issue_stage (o : Byte) : (s.issue o).stage = .issued := rfl
@[simp] theorem State.issue_live (o : Byte) : (s.issue o).live = s.live := rfl
@[simp] theorem State.issue_hostFault (o : Byte) : (s.issue o).hostFault = s.hostFault := rfl
@[simp] theorem State.issue_released (o : Byte) : (s.issue o).released = s.released := rfl
@[simp] theorem State.issue_otherWindows (o : Byte) : (s.issue o).otherWindows = s.otherWindows := rfl
@[simp] theorem State.issue_nonPlain (o : Byte) : (s.issue o).nonPlain = s.nonPlain := rfl
@[simp] theorem State.issue_allocAnswers (o : Byte) : (s.issue o).allocAnswers = s.allocAnswers := rfl
@[simp] theorem State.issue_portLog (o : Byte) : (s.issue o).portLog = s.portLog := rfl
@[simp] theorem State.issue_busData (o : Byte) : (s.issue o).busData = s.busData := rfl
@[simp] theorem State.issue_agenda (o : Byte) : (s.issue o).agenda = s.agenda := rfl
@[simp] theorem State.issue_draws (o : Byte) : (s.issue o).draws = s.draws := rfl

/-! ### After a completion (R211) -/

@[simp] theorem State.complete_op (d : Detail) (n b : Nat) (p : Addr) : (s.complete d n b p).op = s.op := rfl
@[simp] theorem State.complete_status (d : Detail) (n b : Nat) (p : Addr) : (s.complete d n b p).status = Status.completed d := rfl
@[simp] theorem State.complete_regs (d : Detail) (n b : Nat) (p : Addr) : (s.complete d n b p).regs = s.regs := rfl
@[simp] theorem State.complete_latched (d : Detail) (n b : Nat) (p : Addr) : (s.complete d n b p).latched = s.latched := rfl
@[simp] theorem State.complete_res (d : Detail) (n b : Nat) (p : Addr) : (s.complete d n b p).res = ⟨BitVec.ofNat 32 n, BitVec.ofNat 35 b, p⟩ := rfl
@[simp] theorem State.complete_mem (d : Detail) (n b : Nat) (p : Addr) : (s.complete d n b p).mem = s.mem := rfl
@[simp] theorem State.complete_work (d : Detail) (n b : Nat) (p : Addr) : (s.complete d n b p).work = Config.freeWork s.draws := rfl
@[simp] theorem State.complete_stage (d : Detail) (n b : Nat) (p : Addr) : (s.complete d n b p).stage = .idle := rfl
@[simp] theorem State.complete_live (d : Detail) (n b : Nat) (p : Addr) : (s.complete d n b p).live = s.live := rfl
@[simp] theorem State.complete_hostFault (d : Detail) (n b : Nat) (p : Addr) : (s.complete d n b p).hostFault = s.hostFault := rfl
@[simp] theorem State.complete_released (d : Detail) (n b : Nat) (p : Addr) : (s.complete d n b p).released = s.released := rfl
@[simp] theorem State.complete_otherWindows (d : Detail) (n b : Nat) (p : Addr) : (s.complete d n b p).otherWindows = s.otherWindows := rfl
@[simp] theorem State.complete_nonPlain (d : Detail) (n b : Nat) (p : Addr) : (s.complete d n b p).nonPlain = s.nonPlain := rfl
@[simp] theorem State.complete_allocAnswers (d : Detail) (n b : Nat) (p : Addr) : (s.complete d n b p).allocAnswers = s.allocAnswers := rfl
@[simp] theorem State.complete_portLog (d : Detail) (n b : Nat) (p : Addr) : (s.complete d n b p).portLog = s.portLog := rfl
@[simp] theorem State.complete_busData (d : Detail) (n b : Nat) (p : Addr) : (s.complete d n b p).busData = s.busData := rfl
@[simp] theorem State.complete_agenda (d : Detail) (n b : Nat) (p : Addr) : (s.complete d n b p).agenda = s.agenda := rfl
@[simp] theorem State.complete_draws (d : Detail) (n b : Nat) (p : Addr) : (s.complete d n b p).draws = s.draws + 1 := rfl

/-! ### After a successful completion (R211) -/

@[simp] theorem State.succeed_op (n b : Nat) (p : Addr) : (s.succeed n b p).op = s.op := rfl
@[simp] theorem State.succeed_status (n b : Nat) (p : Addr) : (s.succeed n b p).status = Status.completed .none := rfl
@[simp] theorem State.succeed_regs (n b : Nat) (p : Addr) : (s.succeed n b p).regs = s.regs := rfl
@[simp] theorem State.succeed_latched (n b : Nat) (p : Addr) : (s.succeed n b p).latched = s.latched := rfl
@[simp] theorem State.succeed_res (n b : Nat) (p : Addr) : (s.succeed n b p).res = ⟨BitVec.ofNat 32 n, BitVec.ofNat 35 b, p⟩ := rfl
@[simp] theorem State.succeed_mem (n b : Nat) (p : Addr) : (s.succeed n b p).mem = s.mem := rfl
@[simp] theorem State.succeed_work (n b : Nat) (p : Addr) : (s.succeed n b p).work = Config.freeWork s.draws := rfl
@[simp] theorem State.succeed_stage (n b : Nat) (p : Addr) : (s.succeed n b p).stage = .idle := rfl
@[simp] theorem State.succeed_live (n b : Nat) (p : Addr) : (s.succeed n b p).live = s.live := rfl
@[simp] theorem State.succeed_hostFault (n b : Nat) (p : Addr) : (s.succeed n b p).hostFault = s.hostFault := rfl
@[simp] theorem State.succeed_released (n b : Nat) (p : Addr) : (s.succeed n b p).released = s.released := rfl
@[simp] theorem State.succeed_otherWindows (n b : Nat) (p : Addr) : (s.succeed n b p).otherWindows = s.otherWindows := rfl
@[simp] theorem State.succeed_nonPlain (n b : Nat) (p : Addr) : (s.succeed n b p).nonPlain = s.nonPlain := rfl
@[simp] theorem State.succeed_allocAnswers (n b : Nat) (p : Addr) : (s.succeed n b p).allocAnswers = s.allocAnswers := rfl
@[simp] theorem State.succeed_portLog (n b : Nat) (p : Addr) : (s.succeed n b p).portLog = s.portLog := rfl
@[simp] theorem State.succeed_busData (n b : Nat) (p : Addr) : (s.succeed n b p).busData = s.busData := rfl
@[simp] theorem State.succeed_agenda (n b : Nat) (p : Addr) : (s.succeed n b p).agenda = s.agenda := rfl
@[simp] theorem State.succeed_draws (n b : Nat) (p : Addr) : (s.succeed n b p).draws = s.draws + 1 := rfl

/-! ### After a destination window is given up (R222(a), R251) -/

@[simp] theorem State.spoilDst_op (c : Instr) : (s.spoilDst c).op = s.op := by unfold State.spoilDst; split <;> rfl
@[simp] theorem State.spoilDst_status (c : Instr) : (s.spoilDst c).status = s.status := by unfold State.spoilDst; split <;> rfl
@[simp] theorem State.spoilDst_regs (c : Instr) : (s.spoilDst c).regs = s.regs := by unfold State.spoilDst; split <;> rfl
@[simp] theorem State.spoilDst_latched (c : Instr) : (s.spoilDst c).latched = s.latched := by unfold State.spoilDst; split <;> rfl
@[simp] theorem State.spoilDst_res (c : Instr) : (s.spoilDst c).res = s.res := by unfold State.spoilDst; split <;> rfl
@[simp] theorem State.spoilDst_work (c : Instr) : (s.spoilDst c).work = s.work := by unfold State.spoilDst; split <;> rfl
@[simp] theorem State.spoilDst_stage (c : Instr) : (s.spoilDst c).stage = s.stage := by unfold State.spoilDst; split <;> rfl
@[simp] theorem State.spoilDst_live (c : Instr) : (s.spoilDst c).live = s.live := by unfold State.spoilDst; split <;> rfl
@[simp] theorem State.spoilDst_hostFault (c : Instr) : (s.spoilDst c).hostFault = s.hostFault := by unfold State.spoilDst; split <;> rfl
@[simp] theorem State.spoilDst_released (c : Instr) : (s.spoilDst c).released = s.released := by unfold State.spoilDst; split <;> rfl
@[simp] theorem State.spoilDst_otherWindows (c : Instr) : (s.spoilDst c).otherWindows = s.otherWindows := by unfold State.spoilDst; split <;> rfl
@[simp] theorem State.spoilDst_nonPlain (c : Instr) : (s.spoilDst c).nonPlain = s.nonPlain := by unfold State.spoilDst; split <;> rfl
@[simp] theorem State.spoilDst_allocAnswers (c : Instr) : (s.spoilDst c).allocAnswers = s.allocAnswers := by unfold State.spoilDst; split <;> rfl
@[simp] theorem State.spoilDst_portLog (c : Instr) : (s.spoilDst c).portLog = s.portLog := by unfold State.spoilDst; split <;> rfl
@[simp] theorem State.spoilDst_busData (c : Instr) : (s.spoilDst c).busData = s.busData := by unfold State.spoilDst; split <;> rfl
@[simp] theorem State.spoilDst_agenda (c : Instr) : (s.spoilDst c).agenda = s.agenda := by unfold State.spoilDst; split <;> rfl

/-! ### After a failure (R222) -/

@[simp] theorem State.fail_status (c : Instr) (d : Detail) : (s.fail c d).status = Status.completed d := rfl
@[simp] theorem State.fail_res (c : Instr) (d : Detail) : (s.fail c d).res = Results.zero := rfl
@[simp] theorem State.fail_stage (c : Instr) (d : Detail) : (s.fail c d).stage = .idle := rfl
@[simp] theorem State.fail_mem (c : Instr) (d : Detail) : (s.fail c d).mem = (s.spoilDst c).mem := rfl
@[simp] theorem State.fail_work (c : Instr) (d : Detail) : (s.fail c d).work = Config.freeWork (s.spoilDst c).draws := rfl
@[simp] theorem State.fail_draws (c : Instr) (d : Detail) : (s.fail c d).draws = (s.spoilDst c).draws + 1 := rfl
@[simp] theorem State.fail_op (c : Instr) (d : Detail) : (s.fail c d).op = s.op := s.spoilDst_op c
@[simp] theorem State.fail_regs (c : Instr) (d : Detail) : (s.fail c d).regs = s.regs := s.spoilDst_regs c
@[simp] theorem State.fail_latched (c : Instr) (d : Detail) : (s.fail c d).latched = s.latched := s.spoilDst_latched c
@[simp] theorem State.fail_live (c : Instr) (d : Detail) : (s.fail c d).live = s.live := s.spoilDst_live c
@[simp] theorem State.fail_hostFault (c : Instr) (d : Detail) : (s.fail c d).hostFault = s.hostFault := s.spoilDst_hostFault c
@[simp] theorem State.fail_released (c : Instr) (d : Detail) : (s.fail c d).released = s.released := s.spoilDst_released c
@[simp] theorem State.fail_otherWindows (c : Instr) (d : Detail) : (s.fail c d).otherWindows = s.otherWindows := s.spoilDst_otherWindows c
@[simp] theorem State.fail_nonPlain (c : Instr) (d : Detail) : (s.fail c d).nonPlain = s.nonPlain := s.spoilDst_nonPlain c
@[simp] theorem State.fail_allocAnswers (c : Instr) (d : Detail) : (s.fail c d).allocAnswers = s.allocAnswers := s.spoilDst_allocAnswers c
@[simp] theorem State.fail_portLog (c : Instr) (d : Detail) : (s.fail c d).portLog = s.portLog := s.spoilDst_portLog c
@[simp] theorem State.fail_busData (c : Instr) (d : Detail) : (s.fail c d).busData = s.busData := s.spoilDst_busData c
@[simp] theorem State.fail_agenda (c : Instr) (d : Detail) : (s.fail c d).agenda = s.agenda := s.spoilDst_agenda c

end Sys2Proof.Machine
end

