-- ==== Sys2Proof/Laws/Windows.lean ====
section
/-! SUPPORT. Windows and the argument checks (60_exceptions.md R225), and what a failure leaves of memory (R222). -/

namespace Sys2Proof.Machine

theorem Window.has_iff (w : Window) (a : Nat) : w.has a = true ↔ w.base ≤ a ∧ a < w.base + w.len := by
  simp [Window.has]

theorem Window.has_false_iff (w : Window) (a : Nat) : w.has a = false ↔ a < w.base ∨ w.base + w.len ≤ a := by
  rw [← Bool.not_eq_true, Window.has_iff]; omega

theorem Window.overlaps_iff (v w : Window) :
    v.overlaps w = true ↔ 0 < v.len ∧ 0 < w.len ∧ v.base < w.base + w.len ∧ w.base < v.base + v.len := by
  simp [Window.overlaps, and_assoc]

theorem Window.overlaps_comm (v w : Window) : v.overlaps w = w.overlaps v := by
  rw [Bool.eq_iff_iff, Window.overlaps_iff, Window.overlaps_iff]; omega

/-- An address of a window is in no window that does not overlap it. -/
theorem Window.has_of_not_overlaps {v w : Window} (h : v.overlaps w = false) {a : Nat} (ha : v.has a = true) :
    w.has a = false := by
  have h' : ¬ (v.overlaps w = true) := by simp [h]
  rw [Window.overlaps_iff] at h'
  rw [Window.has_iff] at ha
  rw [Window.has_false_iff]
  omega

/-- What passing the argument checks says of the source (R225). -/
theorem checkArgs_src {c : Instr} {o : Operands} (h : checkArgs c o = none) :
    o.src.base + o.src.len ≤ Config.addrSpace ∧ (o.src.base = 0 → o.src.len = 0) := by
  simp only [checkArgs] at h
  split at h <;> try contradiction
  split at h <;> try contradiction
  split at h <;> try contradiction
  rename_i h1 _ h3
  simp only [Window.nullBad, Window.rangeBad, Bool.and_eq_true, beq_iff_eq, decide_eq_true_eq] at h1 h3
  omega

/-- What passing the argument checks says of the destination (R225). -/
theorem checkArgs_dst {c : Instr} {o : Operands} (h : checkArgs c o = none) (hc : usesDst c = true) :
    o.dst.base + o.dst.len ≤ Config.addrSpace ∧ o.src.overlaps o.dst = false := by
  simp only [checkArgs, hc, Bool.true_and] at h
  split at h <;> try contradiction
  split at h <;> try contradiction
  split at h <;> try contradiction
  split at h <;> try contradiction
  split at h <;> try contradiction
  rename_i _ _ _ h4 h5
  simp only [Window.rangeBad, decide_eq_true_eq] at h4
  exact ⟨by omega, by simpa using h5⟩

@[simp] theorem length_freeBytes (d n : Nat) : (freeBytes d n).length = n := by simp [freeBytes]

/-! ### Windows given up -/

/-- A window's part with addresses lies in the address space, if its base does (R61). -/
theorem Window.clipped_inSpace {w : Window} (h : w.base ≤ Config.addrSpace) :
    w.clipped.base + w.clipped.len ≤ Config.addrSpace := by
  simp only [Window.clipped]; omega

/-- A window inside the address space is all there. -/
theorem Window.clipped_eq {w : Window} (h : w.base + w.len ≤ Config.addrSpace) : w.clipped = w := by
  simp only [Window.clipped]
  rw [Nat.min_eq_left (by omega)]

theorem Operands.dst_clipped_inSpace (o : Operands) :
    o.dst.clipped.base + o.dst.clipped.len ≤ Config.addrSpace :=
  Window.clipped_inSpace (Nat.le_of_lt o.dstBase.isLt)

/-- A spoilt window leaves every byte outside it alone. -/
theorem State.spoil_read_outside (s : State) {w : Window} {a : Nat} (h : w.has a = false) :
    (s.spoil w).mem.read a = s.mem.read a := by
  rw [State.spoil_mem]
  apply Memory.read_writeBytes_outside
  rw [Window.has_false_iff] at h
  simpa using h

/-- A command that has no destination window gives none up. -/
theorem State.spoilDst_of_none (s : State) {c : Instr} (h : usesDst c = false) : s.spoilDst c = s := by
  simp [State.spoilDst, h]

/-- A destination window given up leaves every byte outside it alone (R222(b)). -/
theorem State.spoilDst_read_outside (s : State) (c : Instr) {a : Nat} (h : s.latched.dst.has a = false) :
    (s.spoilDst c).mem.read a = s.mem.read a := by
  unfold State.spoilDst
  split
  · apply State.spoil_read_outside
    rw [Window.has_false_iff] at h ⊢
    simp only [Window.clipped]
    omega
  · rfl

/-- A failure leaves every byte outside the destination window alone (R222(b)). -/
theorem State.fail_read_outside (s : State) (c : Instr) (d : Detail) {a : Nat} (h : s.latched.dst.has a = false) :
    (s.fail c d).mem.read a = s.mem.read a := s.spoilDst_read_outside c h

/-- A failure of a command that has no destination window leaves memory alone (R154, R212). -/
theorem State.fail_mem_of_none (s : State) {c : Instr} (d : Detail) (h : usesDst c = false) :
    (s.fail c d).mem = s.mem := by
  rw [State.fail_mem, s.spoilDst_of_none h]

end Sys2Proof.Machine
end

