-- ==== Sys2Proof/Laws/Frames.lean ====
section
/-! SUPPORT. What each sub-block of a command leaves alone: the frames of Machine/Stages.lean's steps. -/

namespace Sys2Proof.Machine

theorem SameSetting.rfl' (s : State) : SameSetting s s := ⟨rfl, rfl, rfl, rfl, rfl, rfl, rfl⟩

theorem SameSetting.trans {s t u : State} (h : SameSetting s t) (h' : SameSetting t u) : SameSetting s u :=
  ⟨h'.1.trans h.1, h'.2.trans h.2, h'.3.trans h.3, h'.4.trans h.4, h'.5.trans h.5, h'.6.trans h.6, h'.7.trans h.7⟩

theorem SameRegions.rfl' (s : State) : SameRegions s s := ⟨rfl, rfl, rfl, rfl, rfl⟩

theorem SameRegions.trans {s t u : State} (h : SameRegions s t) (h' : SameRegions t u) : SameRegions s u :=
  ⟨h'.1.trans h.1, h'.2.trans h.2, h'.3.trans h.3, h'.4.trans h.4, h'.5.trans h.5⟩

theorem SameOutside.trans {ws : List Window} {s t u : State} (h : SameOutside ws s t) (h' : SameOutside ws t u) :
    SameOutside ws s u := fun a ha => (h' a ha).trans (h a ha)

/-! ### Shared operations -/

theorem fail_setting (s : State) (c : Instr) (d : Detail) : SameSetting s (s.fail c d) := by constructor <;> simp

theorem fail_regions (s : State) (c : Instr) (d : Detail) : SameRegions s (s.fail c d) := by constructor <;> simp

theorem complete_setting (s : State) (d : Detail) (n b : Nat) (p : Addr) : SameSetting s (s.complete d n b p) := by
  constructor <;> simp

theorem succeed_setting (s : State) (n b : Nat) (p : Addr) : SameSetting s (s.succeed n b p) := by
  constructor <;> simp

theorem succeed_regions (s : State) (n b : Nat) (p : Addr) : SameRegions s (s.succeed n b p) := by
  constructor <;> simp

theorem afterChecks_setting {s : State} {c : Instr} {start : State → State} (h : SameSetting s (start s)) :
    SameSetting s (s.afterChecks c start) := by
  unfold State.afterChecks
  split
  · exact fail_setting _ _ _
  · exact h

theorem afterChecks_regions {s : State} {c : Instr} {start : State → State} (h : SameRegions s (start s)) :
    SameRegions s (s.afterChecks c start) := by
  unfold State.afterChecks
  split
  · exact fail_regions _ _ _
  · exact h

/-! ### The RLE codec -/

theorem beginRleEncode_setting (s : State) : SameSetting s (beginRleEncode s) :=
  afterChecks_setting (by constructor <;> rfl)

theorem beginRleEncode_regions (s : State) : SameRegions s (beginRleEncode s) :=
  afterChecks_regions (by constructor <;> rfl)

theorem beginRleDecode_setting (s : State) : SameSetting s (beginRleDecode s) :=
  afterChecks_setting (by constructor <;> rfl)

theorem beginRleDecode_regions (s : State) : SameRegions s (beginRleDecode s) :=
  afterChecks_regions (by constructor <;> rfl)

theorem emitPacket_setting (s : State) (p : Packet) : SameSetting s (emitPacket s p) := by
  unfold emitPacket
  dsimp only
  split
  · exact fail_setting _ _ _
  · constructor <;> rfl

theorem emitPacket_regions (s : State) (p : Packet) : SameRegions s (emitPacket s p) := by
  unfold emitPacket
  dsimp only
  split
  · exact fail_regions _ _ _
  · constructor <;> rfl

theorem rleEncodeStep_setting (s : State) : SameSetting s (rleEncodeStep s) := by
  unfold rleEncodeStep
  dsimp only
  split
  · exact SameSetting.trans (by constructor <;> rfl) (emitPacket_setting _ _)
  · exact succeed_setting _ _ _ _

theorem rleEncodeStep_regions (s : State) : SameRegions s (rleEncodeStep s) := by
  unfold rleEncodeStep
  dsimp only
  split
  · exact SameRegions.trans (by constructor <;> rfl) (emitPacket_regions _ _)
  · exact succeed_regions _ _ _ _

theorem guardPacket_setting {s : State} {p n : Nat} {go : State → State} (h : SameSetting s (go s)) :
    SameSetting s (guardPacket s p n go) := by
  unfold guardPacket
  dsimp only
  split
  · exact fail_setting _ _ _
  · split
    · exact fail_setting _ _ _
    · exact h

theorem guardPacket_regions {s : State} {p n : Nat} {go : State → State} (h : SameRegions s (go s)) :
    SameRegions s (guardPacket s p n go) := by
  unfold guardPacket
  dsimp only
  split
  · exact fail_regions _ _ _
  · split
    · exact fail_regions _ _ _
    · exact h

theorem decodeLit_setting (n : Nat) (s : State) : SameSetting s (decodeLit n s) :=
  guardPacket_setting (by constructor <;> rfl)

theorem decodeLit_regions (n : Nat) (s : State) : SameRegions s (decodeLit n s) :=
  guardPacket_regions (by constructor <;> rfl)

theorem decodeRun_setting (n : Nat) (s : State) : SameSetting s (decodeRun n s) :=
  guardPacket_setting (by constructor <;> rfl)

theorem decodeRun_regions (n : Nat) (s : State) : SameRegions s (decodeRun n s) :=
  guardPacket_regions (by constructor <;> rfl)

theorem runPacket_setting (i : Instr) (s : State) : SameSetting s (runPacket i s) := by
  cases i <;>
    first
    | exact decodeLit_setting _ _
    | exact decodeRun_setting _ _
    | exact SameSetting.rfl' s

theorem runPacket_regions (i : Instr) (s : State) : SameRegions s (runPacket i s) := by
  cases i <;>
    first
    | exact decodeLit_regions _ _
    | exact decodeRun_regions _ _
    | exact SameRegions.rfl' s

theorem fetchCtl_setting (s : State) : SameSetting s (fetchCtl s) := by constructor <;> rfl

theorem fetchCtl_regions (s : State) : SameRegions s (fetchCtl s) := by constructor <;> rfl

theorem rleDecodeStep_setting (s : State) : SameSetting s (rleDecodeStep s) := by
  unfold rleDecodeStep
  split
  · exact (fetchCtl_setting s).trans (runPacket_setting _ _)
  · exact succeed_setting _ _ _ _

theorem rleDecodeStep_regions (s : State) : SameRegions s (rleDecodeStep s) := by
  unfold rleDecodeStep
  split
  · exact (fetchCtl_regions s).trans (runPacket_regions _ _)
  · exact succeed_regions _ _ _ _

/-! ### The Huffman codec -/

theorem beginHufEncode_setting (s : State) : SameSetting s (beginHufEncode s) :=
  afterChecks_setting (by constructor <;> rfl)

theorem hufAllocStep_setting (s : State) : SameSetting s (hufAllocStep s) := by
  unfold hufAllocStep
  dsimp only
  split
  · constructor <;> rfl
  · exact SameSetting.trans (by constructor <;> rfl) (fail_setting _ _ _)

theorem hufDoneStep_setting (base : Addr) (size : Nat) (s : State) : SameSetting s (hufDoneStep base size s) := by
  constructor <;> simp [hufDoneStep]

theorem beginHufDecode_setting (s : State) : SameSetting s (beginHufDecode s) := by
  apply afterChecks_setting
  split
  · exact fail_setting _ _ _
  · split
    · exact fail_setting _ _ _
    · constructor <;> rfl

theorem beginHufDecode_regions (s : State) : SameRegions s (beginHufDecode s) := by
  apply afterChecks_regions
  split
  · exact fail_regions _ _ _
  · split
    · exact fail_regions _ _ _
    · constructor <;> rfl

theorem hufCheckStep_setting (s : State) : SameSetting s (hufCheckStep s) := by
  unfold hufCheckStep
  dsimp only
  split
  · constructor <;> rfl
  · exact fail_setting _ _ _

theorem hufCheckStep_regions (s : State) : SameRegions s (hufCheckStep s) := by
  unfold hufCheckStep
  dsimp only
  split
  · constructor <;> rfl
  · exact fail_regions _ _ _

theorem hufWalkStep_setting (s : State) : SameSetting s (hufWalkStep s) := by
  unfold hufWalkStep
  dsimp only
  split
  · split
    · exact fail_setting _ _ _
    · exact fail_setting _ _ _
    · split
      · exact fail_setting _ _ _
      · constructor <;> rfl
  · exact succeed_setting _ _ _ _

theorem hufWalkStep_regions (s : State) : SameRegions s (hufWalkStep s) := by
  unfold hufWalkStep
  dsimp only
  split
  · split
    · exact fail_regions _ _ _
    · exact fail_regions _ _ _
    · split
      · exact fail_regions _ _ _
      · constructor <;> rfl
  · exact succeed_regions _ _ _ _

/-! ### Control -/

theorem hufRelease_setting (s : State) : SameSetting s (hufRelease s) := by
  unfold hufRelease
  dsimp only
  split
  · exact succeed_setting _ _ _ _
  · constructor <;> simp

/-! ### Any stage -/

theorem begin_setting (i : Instr) (s : State) : SameSetting s (begin i s) := by
  cases i
  case rleEncode => exact beginRleEncode_setting s
  case rleDecode => exact beginRleDecode_setting s
  case hufEncode => exact beginHufEncode_setting s
  case hufDecode => exact beginHufDecode_setting s
  case hufRelease => exact hufRelease_setting s
  case reservedOp op => exact fail_setting _ _ _
  case lit c => exact SameSetting.rfl' s
  case run c => exact SameSetting.rfl' s

/-- No sub-block changes `CMD`, the operands or what belongs to the world outside. -/
theorem stageStep_setting (s : State) : SameSetting s (stageStep s) := by
  unfold stageStep
  split
  case h_1 => exact SameSetting.rfl' s
  case h_2 => exact begin_setting _ _
  case h_3 => exact rleEncodeStep_setting s
  case h_4 => exact rleDecodeStep_setting s
  case h_5 => constructor <;> rfl
  case h_6 => constructor <;> rfl
  case h_7 => constructor <;> rfl
  case h_8 => exact hufAllocStep_setting s
  case h_9 => constructor <;> rfl
  case h_10 => constructor <;> rfl
  case h_11 => exact hufDoneStep_setting _ _ s
  case h_12 => constructor <;> rfl
  case h_13 => exact hufCheckStep_setting s
  case h_14 => exact hufWalkStep_setting s

/-- A property every stage step keeps holds after any number of them. -/
theorem runStages_keeps {P : State → Prop} (h : ∀ s, P s → s.stage ≠ .idle → P (stageStep s)) (n : Nat) {s : State}
    (hs : P s) : P (runStages n s) := by
  induction n generalizing s with
  | zero => exact hs
  | succ n ih =>
    unfold runStages
    split
    · exact hs
    · exact ih (h s hs (by assumption))

theorem runStages_idle {n : Nat} {s : State} (h : s.stage = .idle) : runStages n s = s := by
  cases n with
  | zero => rfl
  | succ n => rw [runStages, if_pos h]

theorem runStages_succ {n : Nat} {s : State} (h : s.stage ≠ .idle) :
    runStages (n + 1) s = runStages n (stageStep s) := by
  rw [runStages, if_neg h]

theorem runStages_setting (n : Nat) (s : State) : SameSetting s (runStages n s) :=
  runStages_keeps (P := SameSetting s) (fun t ht _ => ht.trans (stageStep_setting t)) n (SameSetting.rfl' s)

end Sys2Proof.Machine
end

