-- ==== Sys2Proof/Laws/Progress.lean ====
section
/-! SUPPORT. Every command ends: each stage step comes closer to completion (43_control.md R215,
70_reset_and_hazards.md R262), and the way it ends is a completion (R211). -/

namespace Sys2Proof.Machine

/-- How many stage steps a command may still take. -/
def stepsLeft (s : State) : Nat :=
  match s.stage with
  | .idle => 0
  | .issued => s.latched.srcLen.toNat + s.latched.srcBits.toNat + 10
  | .rleEncode => s.latched.srcLen.toNat - s.work.rleEnc.ipos.toNat + 1
  | .rleDecode => s.latched.srcLen.toNat - s.work.rleDec.ipos.toNat + 1
  | .hufCount => 9
  | .hufTree => 8
  | .hufCode => 7
  | .hufAlloc => 6
  | .hufHeader _ _ => 5
  | .hufPack _ _ => 4
  | .hufDone _ _ => 3
  | .hufRead => s.latched.srcBits.toNat + 3
  | .hufCheck => s.latched.srcBits.toNat + 2
  | .hufWalk => s.latched.srcBits.toNat - s.work.unpack.bpos.toNat + 1

theorem stepsLeft_idle {s : State} (h : s.stage = .idle) : stepsLeft s = 0 := by simp [stepsLeft, h]

theorem stepsLeft_le_stageBound (s : State) : stepsLeft s ≤ stageBound s := by
  unfold stepsLeft stageBound
  split <;> omega

theorem stepsLeft_pos {s : State} (h : s.stage ≠ .idle) : 0 < stepsLeft s := by
  unfold stepsLeft
  split <;> first | contradiction | omega

theorem stepsLeft_fail (s : State) (c : Instr) (d : Detail) : stepsLeft (s.fail c d) = 0 := stepsLeft_idle (by simp)

theorem stepsLeft_succeed (s : State) (n b : Nat) (p : Addr) : stepsLeft (s.succeed n b p) = 0 :=
  stepsLeft_idle (by simp)

theorem srcFrom_length (s : State) (i : Nat) : (s.srcFrom i).length = s.latched.srcLen.toNat - i := by
  simp [State.srcFrom]

theorem srcFrom_ne_nil {s : State} {i : Nat} (h : i < s.latched.srcLen.toNat) : s.srcFrom i ≠ [] := by
  intro h0
  have := srcFrom_length s i
  rw [h0] at this
  simp at this
  omega

theorem ofNat_toNat_of_le {n : Nat} {w : Nat} (x : BitVec w) (h : n ≤ x.toNat) : (BitVec.ofNat w n).toNat = n :=
  Nat.mod_eq_of_lt (lt_of_le_of_lt h x.isLt)

theorem rleEncodeStep_closer {s : State} (h : s.stage = .rleEncode) : stepsLeft (rleEncodeStep s) < stepsLeft s := by
  have hpos : stepsLeft s = s.latched.srcLen.toNat - s.work.rleEnc.ipos.toNat + 1 := by simp [stepsLeft, h]
  unfold rleEncodeStep
  dsimp only
  split
  · rename_i hlt
    have hne := srcFrom_ne_nil hlt
    have hsp := nextPacket_span_pos hne
    have hle := nextPacket_span_le (s.srcFrom s.work.rleEnc.ipos.toNat)
    rw [srcFrom_length] at hle
    unfold emitPacket
    dsimp only
    split
    · rw [stepsLeft_fail]; omega
    · have hi : (BitVec.ofNat 32 (s.work.rleEnc.ipos.toNat
          + (nextPacket (s.srcFrom s.work.rleEnc.ipos.toNat)).span.length)).toNat
          = s.work.rleEnc.ipos.toNat + (nextPacket (s.srcFrom s.work.rleEnc.ipos.toNat)).span.length :=
        ofNat_toNat_of_le s.latched.srcLen (by omega)
      simp only [stepsLeft, noteRun, State.store_stage, State.store_latched, h, hi]
      omega
  · rw [stepsLeft_succeed]; omega

theorem guardPacket_closer {s : State} {p n : Nat} {go : State → State} (hp : 0 < stepsLeft s)
    (h : s.work.rleDec.ipos.toNat + 1 + p ≤ s.latched.srcLen.toNat →
      s.work.rleDec.opos.toNat + n ≤ s.latched.dstCap.toNat → stepsLeft (go s) < stepsLeft s) :
    stepsLeft (guardPacket s p n go) < stepsLeft s := by
  unfold guardPacket
  dsimp only
  split
  · rw [stepsLeft_fail]; exact hp
  · split
    · rw [stepsLeft_fail]; exact hp
    · exact h (by omega) (by omega)

theorem advanceDecoder_closer {s : State} (h : s.stage = .rleDecode) {n : Nat} {bs : List Byte} (hn : 0 < n)
    (hle : s.work.rleDec.ipos.toNat + n ≤ s.latched.srcLen.toNat) :
    stepsLeft (advanceDecoder s n bs) < stepsLeft s := by
  have hi := ofNat_toNat_of_le s.latched.srcLen hle
  simp only [stepsLeft, advanceDecoder, State.store_stage, State.store_latched, h, hi]
  omega

theorem decodeLit_closer {s : State} (h : s.stage = .rleDecode) (n : Nat) :
    stepsLeft (decodeLit n s) < stepsLeft s :=
  guardPacket_closer (stepsLeft_pos (by simp [h])) fun h1 _ => advanceDecoder_closer h (by omega) (by omega)

theorem decodeRun_closer {s : State} (h : s.stage = .rleDecode) (n : Nat) :
    stepsLeft (decodeRun n s) < stepsLeft s :=
  guardPacket_closer (stepsLeft_pos (by simp [h])) fun h1 _ => advanceDecoder_closer h (by omega) (by omega)

/-- A control byte starts a packet: a Literal or a Run (R88). -/
theorem runPacket_decodeCtl (ctl : Byte) (s : State) :
    runPacket (decodeCtl ctl) s =
      if ctlType ctl then decodeRun (packetCount (ctlCountM1 ctl)) s else decodeLit (packetCount (ctlCountM1 ctl)) s := by
  unfold decodeCtl
  split <;> rfl

theorem stepsLeft_fetchCtl (s : State) : stepsLeft (fetchCtl s) = stepsLeft s := rfl

theorem rleDecodeStep_closer {s : State} (h : s.stage = .rleDecode) : stepsLeft (rleDecodeStep s) < stepsLeft s := by
  unfold rleDecodeStep
  split
  · rw [runPacket_decodeCtl]
    have hf : (fetchCtl s).stage = .rleDecode := h
    split
    · exact decodeRun_closer hf _
    · exact decodeLit_closer hf _
  · rw [stepsLeft_succeed]; exact stepsLeft_pos (by simp [h])

/-- A walk that finds a symbol has read at least one bit, and none past the budget (R187). -/
theorem walkCode_symbol {f : Nat → Nat → Option Nat} {maxLen : Nat} {bit : Nat → Bool} {n bpos depth code : Nat}
    {sym depth' code' : Nat} (h : walkCode f maxLen bit n bpos depth code = .symbol sym depth' code') :
    depth < depth' ∧ depth' ≤ depth + n := by
  induction n generalizing bpos depth code with
  | zero => simp only [walkCode] at h; split at h <;> contradiction
  | succ n ih =>
    simp only [walkCode] at h
    split at h
    · contradiction
    · split at h
      · cases h; omega
      · have := ih h; omega

theorem hufWalkStep_closer {s : State} (h : s.stage = .hufWalk) : stepsLeft (hufWalkStep s) < stepsLeft s := by
  have hpos := stepsLeft_pos (s := s) (by simp [h])
  unfold hufWalkStep
  dsimp only
  split
  · rename_i hlt
    split
    · rw [stepsLeft_fail]; exact hpos
    · rw [stepsLeft_fail]; exact hpos
    · rename_i sym depth code hw
      split
      · rw [stepsLeft_fail]; exact hpos
      · have hd := walkCode_symbol hw
        have hi : (BitVec.ofNat 35 (s.work.unpack.bpos.toNat + depth)).toNat = s.work.unpack.bpos.toNat + depth :=
          ofNat_toNat_of_le s.latched.srcBits (by omega)
        simp only [stepsLeft, State.store_stage, State.store_latched, h, hi]
        omega
  · rw [stepsLeft_succeed]; exact hpos

theorem afterChecks_cases {P : State → Prop} {s : State} {c : Instr} {start : State → State}
    (hf : ∀ d, checkArgs c s.latched = some d → P (s.fail c d)) (hs : checkArgs c s.latched = none → P (start s)) :
    P (s.afterChecks c start) := by
  unfold State.afterChecks
  split
  · exact hf _ (by assumption)
  · exact hs (by assumption)

theorem afterChecks_stepsLeft {s : State} {c : Instr} {start : State → State} {n : Nat}
    (h : stepsLeft (start s) ≤ n) : stepsLeft (s.afterChecks c start) ≤ n :=
  afterChecks_cases (P := fun t => stepsLeft t ≤ n) (fun d _ => by rw [stepsLeft_fail]; omega) fun _ => h

/-- A command that has begun needs fewer steps than an issued one. -/
theorem begin_stepsLeft (i : Instr) (s : State) (hi : isCommand i = true) :
    stepsLeft (begin i s) ≤ s.latched.srcLen.toNat + s.latched.srcBits.toNat + 9 := by
  cases i
  case rleEncode => exact afterChecks_stepsLeft (by simp [stepsLeft]; omega)
  case rleDecode => exact afterChecks_stepsLeft (by simp [stepsLeft]; omega)
  case hufEncode => exact afterChecks_stepsLeft (by simp [stepsLeft])
  case hufDecode =>
    apply afterChecks_stepsLeft
    split
    · rw [stepsLeft_fail]; omega
    · split
      · rw [stepsLeft_fail]; omega
      · simp [stepsLeft]; omega
  case hufRelease =>
    have : (begin .hufRelease s).stage = .idle := by
      show (hufRelease s).stage = .idle
      unfold hufRelease
      dsimp only
      split <;> rfl
    rw [stepsLeft_idle this]; omega
  case reservedOp op =>
    have : (begin (.reservedOp op) s).stage = .idle := State.fail_stage s _ .illegalOp
    rw [stepsLeft_idle this]; omega
  case lit c => contradiction
  case run c => contradiction

/-- Every opcode names a command (R83). -/
theorem isCommand_decodeOpcode (op : Byte) : isCommand (decodeOpcode op) = true := by
  unfold decodeOpcode
  split <;> rfl

/-- Each stage step comes closer to completion. -/
theorem stageStep_closer {s : State} (h : s.stage ≠ .idle) : stepsLeft (stageStep s) < stepsLeft s := by
  have hpos := stepsLeft_pos h
  unfold stageStep
  split
  case h_1 => contradiction
  case h_2 hs =>
    have := begin_stepsLeft (decodeOpcode s.op) s (isCommand_decodeOpcode s.op)
    have : stepsLeft s = s.latched.srcLen.toNat + s.latched.srcBits.toNat + 10 := by simp [stepsLeft, hs]
    omega
  case h_3 hs => exact rleEncodeStep_closer hs
  case h_4 hs => exact rleDecodeStep_closer hs
  case h_5 hs => simp [stepsLeft, hs, hufCountStep]
  case h_6 hs => simp [stepsLeft, hs, hufTreeStep]
  case h_7 hs => simp [stepsLeft, hs, hufCodeStep]
  case h_8 hs =>
    unfold hufAllocStep
    dsimp only
    split
    · simp [stepsLeft, hs]
    · rw [stepsLeft_fail]; exact hpos
  case h_9 hs => simp [stepsLeft, hs, hufHeaderStep]
  case h_10 hs => simp [stepsLeft, hs, hufPackStep]
  case h_11 hs => simp [stepsLeft, hs, hufDoneStep]
  case h_12 hs => simp [stepsLeft, hs, hufReadStep]
  case h_13 hs =>
    unfold hufCheckStep
    dsimp only
    split
    · simp [stepsLeft, hs]
    · rw [stepsLeft_fail]; exact hpos
  case h_14 hs => exact hufWalkStep_closer hs

/-- Enough stage steps end the command (R215). -/
theorem runStages_ends {n : Nat} {s : State} (h : stepsLeft s ≤ n) : (runStages n s).stage = .idle := by
  induction n generalizing s with
  | zero =>
    by_contra hs
    have := stepsLeft_pos (s := s) hs
    omega
  | succ n ih =>
    by_cases hs : s.stage = .idle
    · rw [runStages_idle hs]; exact hs
    · rw [runStages_succ hs]
      have := stageStep_closer hs
      exact ih (by omega)

/-- A running command carried to its completion has completed (R262). -/
theorem finish_stage (s : State) : (finish s).stage = .idle := runStages_ends (stepsLeft_le_stageBound s)

/-- Beyond the steps a command needs, more change nothing. -/
theorem runStages_enough {n m : Nat} {s : State} (hn : stepsLeft s ≤ n) (hm : n ≤ m) :
    runStages m s = runStages n s := by
  induction n generalizing m s with
  | zero =>
    have hs : s.stage = .idle := by
      by_contra hs
      have := stepsLeft_pos (s := s) hs
      omega
    rw [runStages_idle hs, runStages_idle hs]
  | succ n ih =>
    by_cases hs : s.stage = .idle
    · rw [runStages_idle hs, runStages_idle hs]
    · obtain ⟨k, rfl⟩ : ∃ k, m = k + 1 := ⟨m - 1, by omega⟩
      rw [runStages_succ hs, runStages_succ hs]
      have := stageStep_closer hs
      exact ih (by omega) (by omega)

/-- One stage step of a running command, then the rest of it, is all of it. -/
theorem finish_stageStep {s : State} (h : s.stage ≠ .idle) : finish (stageStep s) = finish s := by
  have hc := stageStep_closer h
  have hb := stepsLeft_le_stageBound s
  unfold finish
  obtain ⟨k, hk⟩ : ∃ k, stageBound s = k + 1 := ⟨stageBound s - 1, by unfold stageBound; omega⟩
  have hb' : stageBound (stageStep s) = stageBound s := by
    unfold stageBound; rw [(stageStep_setting s).latched]
  rw [hb', hk, runStages_succ h]
  exact runStages_enough (n := k) (by omega) (by omega)

theorem finish_idle {s : State} (h : s.stage = .idle) : finish s = s := runStages_idle h

end Sys2Proof.Machine
end

