-- ==== Sys2Proof/Laws/Invariant.lean ====
section
/-! SUPPORT. The parts of the invariant and how a completion, a failure and a store keep them. -/

namespace Sys2Proof.Machine

/-- The clauses of the invariant about memory and LIVE. -/
structure State.Sound (s : State) : Prop where
  canonical : s.mem.wf = true
  memInSpace : s.mem.inSpace = true
  liveInSpace : ∀ w ∈ s.live, 0 < w.base ∧ Config.hdrLen ≤ w.len ∧ w.base + w.len ≤ Config.addrSpace
  liveApart : s.live.Pairwise fun v w => v.overlaps w = false

theorem State.Inv.sound {s : State} (h : s.Inv) : s.Sound := ⟨h.canonical, h.memInSpace, h.liveInSpace, h.liveApart⟩

/-- A state that differs only in what the clauses do not speak of is as sound. -/
theorem State.Sound.congr {s t : State} (h : s.Sound) (hm : t.mem = s.mem) (hl : t.live = s.live) : t.Sound := by
  obtain ⟨h1, h2, h3, h4⟩ := h
  exact ⟨hm ▸ h1, hm ▸ h2, hl ▸ h3, hl ▸ h4⟩

/-- A store inside the address space keeps memory sound. -/
theorem State.Sound.store {s : State} (h : s.Sound) {a : Nat} {bs : List Byte}
    (ha : a + bs.length ≤ Config.addrSpace) : (s.store a bs).Sound :=
  ⟨Memory.wf_writeBytes _ _ h.canonical, Memory.inSpace_writeBytes _ h.memInSpace ha, h.liveInSpace, h.liveApart⟩

theorem State.Sound.spoil {s : State} (h : s.Sound) {w : Window} (hw : w.base + w.len ≤ Config.addrSpace) :
    (s.spoil w).Sound :=
  ⟨Memory.wf_writeBytes _ _ h.canonical, Memory.inSpace_writeBytes _ h.memInSpace (by simpa using hw),
    h.liveInSpace, h.liveApart⟩

/-- A completion of a sound state meets the invariant (R211). -/
theorem State.Sound.complete_inv {s : State} (h : s.Sound) (d : Detail) (n b : Nat) (p : Addr) :
    (s.complete d n b p).Inv where
  canonical := h.canonical
  memInSpace := h.memInSpace
  busyStage := by simp [Status.completed]
  running := by simp [Status.completed]
  settled := fun _ => .inr ⟨d, rfl⟩
  latched := by simp [Status.completed]
  fits := rfl
  checked := by simp
  rleEncode := by simp
  rleDecode := by simp
  hufWalk := by simp
  framed := by simp [Stage.framed]
  liveInSpace := h.liveInSpace
  liveApart := h.liveApart
  region := by simp
  counted := by simp [Stage.counted]

theorem State.Sound.succeed_inv {s : State} (h : s.Sound) (n b : Nat) (p : Addr) : (s.succeed n b p).Inv :=
  h.complete_inv .none n b p

/-- A destination window given up keeps memory sound (R222(a), R251). -/
theorem State.Sound.spoilDst {s : State} (h : s.Sound) (c : Instr) : (s.spoilDst c).Sound := by
  unfold State.spoilDst
  split
  · exact h.spoil (Operands.dst_clipped_inSpace _)
  · exact h

/-- A failure of a sound state meets the invariant (R222). -/
theorem State.Sound.fail_inv {s : State} (h : s.Sound) (c : Instr) (d : Detail) : (s.fail c d).Inv :=
  (h.spoilDst c).complete_inv d 0 0 0

/-- A running command's state meets the invariant when its clauses about the running command do. -/
theorem inv_running {t : State} (hs : t.Sound) (hr : t.status = Status.running) (hl : t.latched = t.regs)
    (hi : t.stage ≠ .idle) (hf : stageFits (decodeOpcode t.op) t.stage = true)
    (hc : t.stage ≠ .issued → checkArgs (decodeOpcode t.op) t.latched = none)
    (h1 : t.stage = .rleEncode →
      t.work.rleEnc.ipos.toNat ≤ t.latched.srcLen.toNat ∧ t.work.rleEnc.opos.toNat ≤ t.latched.dstCap.toNat)
    (h2 : t.stage = .rleDecode →
      t.work.rleDec.ipos.toNat ≤ t.latched.srcLen.toNat ∧ t.work.rleDec.opos.toNat ≤ t.latched.dstCap.toNat)
    (h3 : t.stage = .hufWalk →
      t.work.unpack.bpos.toNat ≤ t.latched.srcBits.toNat ∧ t.work.unpack.opos.toNat ≤ t.latched.dstCap.toNat)
    (h4 : t.stage.framed = true → Config.hdrLen ≤ t.latched.srcLen.toNat ∧
      t.latched.srcBits.toNat ≤ 8 * (t.latched.srcLen.toNat - Config.hdrLen))
    (h5 : ∀ base size, t.stage = .hufHeader base size ∨ t.stage = .hufPack base size ∨ t.stage = .hufDone base size →
      RegionFits t base size)
    (h6 : t.hostFault = false → t.stage.counted = true → t.work.freqs = freqOf t.srcBytes) : t.Inv where
  canonical := hs.canonical
  memInSpace := hs.memInSpace
  busyStage := by simp [hr, Status.running, hi]
  running := fun _ => hr
  settled := by simp [hr, Status.running]
  latched := fun _ => hl
  fits := hf
  checked := fun _ => hc
  rleEncode := h1
  rleDecode := h2
  hufWalk := h3
  framed := h4
  liveInSpace := hs.liveInSpace
  liveApart := hs.liveApart
  region := h5
  counted := h6

/-- What the invariant says of a running command. -/
theorem State.Inv.ofRunning {s : State} (h : s.Inv) (hs : s.stage ≠ .idle) :
    s.status = Status.running ∧ s.latched = s.regs :=
  have hb := h.busyStage.2 hs
  ⟨h.running hb, h.latched hb⟩

/-- A region `Ok(base)` answers with meets what R71 assumes of it. -/
theorem allocAnswer_contract {s : State} {size : Nat} {base : Addr} (h : s.allocAnswer size = some base) :
    base ≠ 0 ∧ base.toNat + size ≤ Config.addrSpace ∧ (Window.mk base.toNat size).overlaps s.latched.src = false ∧
      (∀ w ∈ s.live, (Window.mk base.toNat size).overlaps w = false) ∧
      ∀ w ∈ s.nonPlain, (Window.mk base.toNat size).overlaps w = false := by
  have hc := (Option.filter_eq_some_iff.1 h).2
  simpa [allocContract, Window.inSpace, and_assoc] using hc

/-- The source bytes depend only on the bytes of the source window. -/
theorem srcFrom_congr {s t : State} (i : Nat) (hl : t.latched = s.latched)
    (hm : ∀ a, s.latched.src.has a = true → t.mem.read a = s.mem.read a) : t.srcFrom i = s.srcFrom i := by
  unfold State.srcFrom
  rw [hl]
  apply Memory.readBytes_congr
  intro k hk
  apply hm
  rw [Window.has_iff]
  simp only [Operands.src]
  omega

/-- A store in a window apart from the source leaves the source bytes alone. -/
theorem srcFrom_store {s : State} {a : Nat} {bs : List Byte} {w : Window} (i : Nat)
    (hw : w.overlaps s.latched.src = false) (ha : w.base ≤ a) (hb : a + bs.length ≤ w.base + w.len) :
    (s.store a bs).srcFrom i = s.srcFrom i := by
  refine srcFrom_congr (s := s) (t := s.store a bs) i rfl ?_
  intro x hx
  rw [State.store_mem]
  apply Memory.read_writeBytes_outside
  have h := Window.has_of_not_overlaps (v := s.latched.src) (w := w) (by rw [Window.overlaps_comm]; exact hw) hx
  rw [Window.has_false_iff] at h
  omega

end Sys2Proof.Machine
end

