-- ==== Sys2Proof/Laws/Payload.lean ====
section
/-! SUPPORT. Frequencies, payload length and the packer's counters (41_huffman_encode.md R140, R149, R151). -/

namespace Sys2Proof.Machine

theorem toList_tabulate {α : Type} (n : Nat) (f : Nat → α) : (tabulate n f).toList = (List.range n).map f := by
  simp [tabulate]

/-- No counter of `FREQ` wraps (R140). -/
theorem hufCountStep_freqs (s : State) : (hufCountStep s).work.freqs = freqOf s.srcBytes := by
  have hw : (hufCountStep s).work.freq = tabulate 256 fun i => BitVec.ofNat 32 ((freqOf s.srcBytes).getD i 0) := rfl
  rw [Work.freqs, hw, toList_tabulate, List.map_map, freqOf]
  apply List.map_congr_left
  intro i hi
  have hi : i < 256 := by simpa using hi
  have hle : s.srcBytes.countP (fun b => b.toNat == i) < 2 ^ 32 := by
    refine lt_of_le_of_lt List.countP_le_length ?_
    have := s.latched.srcLen.isLt
    simpa [State.srcBytes, State.srcFrom, Memory.readBytes] using this
  simp only [Function.comp_apply, BitVec.toNat_ofNat, List.getD_eq_getElem?_getD, List.getElem?_map,
    List.getElem?_range hi, Option.map_some, Option.getD_some]
  exact Nat.mod_eq_of_lt hle

/-- The packer's counters (R45, R151). -/
theorem foldl_push (bits : List Bool) (p : Packer) (hp : p.nacc < 8) (hb : p.bpos = 8 * p.out.length + p.nacc) :
    let q := bits.foldl Packer.push p
    q.nacc < 8 ∧ q.bpos = 8 * q.out.length + q.nacc ∧ q.bpos = p.bpos + bits.length := by
  induction bits generalizing p with
  | nil => exact ⟨hp, hb, rfl⟩
  | cons b bits ih =>
    have h1 : (p.push b).nacc < 8 ∧ (p.push b).bpos = 8 * (p.push b).out.length + (p.push b).nacc ∧
        (p.push b).bpos = p.bpos + 1 := by
      unfold Packer.push
      dsimp only
      split <;> simp <;> omega
    have h2 := ih (p.push b) h1.1 h1.2.1
    dsimp only [List.foldl_cons, List.length_cons] at h2 ⊢
    omega

/-- The packer writes `cdiv(B, 8)` bytes (R151). -/
theorem packBits_length (bits : List Bool) : (packBits bits).out.length = cdiv bits.length 8 := by
  have h := foldl_push bits .start (by simp [Packer.start]) (by simp [Packer.start])
  have h0 : Packer.start.bpos = 0 := rfl
  dsimp only at h
  unfold packBits Packer.flush cdiv
  split
  · simp only [List.length_append, List.length_singleton]; omega
  · omega

theorem sum_map_range (n : Nat) (f : Nat → Nat) : ((List.range n).map f).sum = (Finset.range n).sum f := by
  induction n with
  | zero => rfl
  | succ n ih => rw [List.range_succ, List.map_append, List.sum_append, ih, Finset.sum_range_succ]; simp

theorem sum_at {n : Nat} (k : Nat) (hk : k < n) (f : Nat → Nat) :
    ((Finset.range n).sum fun s => (if (k == s) = true then 1 else 0) * f s) = f k := by
  rw [Finset.sum_eq_single_of_mem k (Finset.mem_range.2 hk)]
  · simp
  · intro s _ hs
    rw [if_neg (by simpa using Ne.symm hs), Nat.zero_mul]

theorem sum_counts {n : Nat} (hn : ∀ b : Byte, b.toNat < n) (f : Nat → Nat) (input : List Byte) :
    ((Finset.range n).sum fun s => input.countP (fun b => b.toNat == s) * f s) =
      (input.map fun b => f b.toNat).sum := by
  induction input with
  | nil => simp
  | cons b input ih =>
    rw [List.map_cons, List.sum_cons, ← ih, ← sum_at b.toNat (hn b) f, ← Finset.sum_add_distrib]
    apply Finset.sum_congr rfl
    intro s _
    rw [List.countP_cons, Nat.add_mul, Nat.add_comm]

/-- `B` is the sum over the source bytes of their code lengths (R149). -/
theorem payloadBits_freqOf (input : List Byte) (lens : List Nat) (hl : lens.length = 256) :
    payloadBits (freqOf input) lens = (input.map fun b => lens.getD b.toNat 0).sum := by
  have key : ∀ input : List Byte, payloadBits (freqOf input) lens =
      (Finset.range 256).sum fun s => input.countP (fun b => b.toNat == s) * lens.getD s 0 := by
    intro input
    rw [← sum_map_range, payloadBits]
    congr 1
    apply List.ext_getElem
    · simp [freqOf, hl]
    · intro i h1 h2
      have hi : i < lens.length := by simpa [hl] using h2
      simp [freqOf, List.getD_eq_getElem?_getD, List.getElem?_eq_getElem hi]
  rw [key]
  exact sum_counts (fun b => b.isLt) _ input

theorem payload_length (w : Work) (input : List Byte) :
    (w.payload input).length = payloadBits (freqOf input) w.lens := by
  rw [payloadBits_freqOf _ _ (by simp [Work.lens]), Work.payload, List.length_flatMap]
  congr 1
  apply List.map_congr_left
  intro b _
  have hb := b.isLt
  have : b.toNat < w.lens.length := by simpa [Work.lens] using hb
  rw [List.getD_eq_getElem?_getD, List.getElem?_eq_getElem this]
  simp [codeBits, Work.lens]

end Sys2Proof.Machine
end

