-- ==== Sys2Proof/Laws/PerInstr.lean ====
section
/-! SUPPORT. The family RoundTrip, one lemma per constructor of Instr: a well-formed instruction is read back from its
encoding (30_encoding.md R82 to R87). -/

namespace Sys2Proof.Laws.RoundTrip

/-- Decoding the encoding of a well-formed instruction, at its own port, gives it back with the bytes after it. -/
def Statement (i : Instr) : Prop :=
  i.wf = true → ∀ rest : List Byte, decode i.port (encode i ++ rest) = .instr i rest

theorem rleEncode : Statement .rleEncode := fun _ _ => rfl

theorem rleDecode : Statement .rleDecode := fun _ _ => rfl

theorem hufEncode : Statement .hufEncode := fun _ _ => rfl

theorem hufDecode : Statement .hufDecode := fun _ _ => rfl

theorem hufRelease : Statement .hufRelease := fun _ _ => rfl

theorem reservedOp (op : Byte) : Statement (.reservedOp op) := by
  have h : ∀ op : Byte, reservedOpcode op = true → decodeOpcode op = .reservedOp op := by decide
  intro hw rest
  exact congrArg (Decoded.instr · rest) (h op hw)

theorem lit (countM1 : BitVec 7) : Statement (.lit countM1) := by
  have h : ∀ c : BitVec 7, decodeCtl (0#1 ++ c) = .lit c := by decide
  intro _ rest
  exact congrArg (Decoded.instr · rest) (h countM1)

theorem run (countM1 : BitVec 7) : Statement (.run countM1) := by
  have h : ∀ c : BitVec 7, decodeCtl (1#1 ++ c) = .run c := by decide
  intro _ rest
  exact congrArg (Decoded.instr · rest) (h countM1)

end Sys2Proof.Laws.RoundTrip
end

