-- ==== Sys2Proof/Laws/StageInv.lean ====
section
/-! SUPPORT. Every stage step keeps the invariant (Safety.lean). -/

namespace Sys2Proof.Machine

/-- A running command that writes a destination window has one inside the address space, apart from its source
(R225). -/
theorem State.Inv.dst {s : State} (h : s.Inv) (h1 : s.stage ≠ .idle) (h2 : s.stage ≠ .issued)
    (hd : usesDst (decodeOpcode s.op) = true) :
    s.latched.dst.base + s.latched.dst.len ≤ Config.addrSpace ∧ s.latched.src.overlaps s.latched.dst = false :=
  checkArgs_dst (h.checked h1 h2) hd

/-- The stages of one command name it. -/
theorem State.Inv.command {s : State} (h : s.Inv) {c : Instr}
    (hc : stageFits (decodeOpcode s.op) s.stage = (decodeOpcode s.op == c)) :
    decodeOpcode s.op = c := by
  have := h.fits
  rw [hc] at this
  exact eq_of_beq this

theorem rleEncodeStep_inv {s : State} (h : s.Inv) (hs : s.stage = .rleEncode) : (rleEncodeStep s).Inv := by
  have hr := h.ofRunning (by simp [hs])
  have hc : decodeOpcode s.op = .rleEncode := h.command (by rw [hs]; rfl)
  have hk := h.checked (by simp [hs]) (by simp [hs])
  have hd := h.dst (by simp [hs]) (by simp [hs]) (by rw [hc]; rfl)
  have hp := h.rleEncode hs
  unfold rleEncodeStep
  dsimp only
  split
  · rename_i hlt
    have hle := nextPacket_span_le (s.srcFrom s.work.rleEnc.ipos.toNat)
    rw [srcFrom_length] at hle
    unfold emitPacket
    dsimp only
    split
    · exact State.Sound.fail_inv (s := noteRun s _) (h.sound.congr rfl rfl) _ _
    · rename_i hcap
      simp only [noteRun, Nat.not_lt] at hcap
      have hi : (BitVec.ofNat 32 (s.work.rleEnc.ipos.toNat
          + (nextPacket (s.srcFrom s.work.rleEnc.ipos.toNat)).span.length)).toNat
          = s.work.rleEnc.ipos.toNat + (nextPacket (s.srcFrom s.work.rleEnc.ipos.toNat)).span.length :=
        ofNat_toNat_of_le s.latched.srcLen (by omega)
      have ho := ofNat_toNat_of_le s.latched.dstCap hcap
      apply inv_running
      · refine State.Sound.congr (h.sound.store (a := s.latched.dstBase.toNat + s.work.rleEnc.opos.toNat)
          (bs := (nextPacket (s.srcFrom s.work.rleEnc.ipos.toNat)).encode) ?_) rfl rfl
        have := hd.1
        simp only [Operands.dst] at this
        omega
      · exact hr.1
      · exact hr.2
      · simp [noteRun, hs]
      · simp [noteRun, hs, hc, stageFits]
      · intro _; exact hk
      · intro _
        simp only [noteRun, hi, ho, State.store_latched]
        omega
      · simp [noteRun, hs]
      · simp [noteRun, hs]
      · simp [noteRun, hs, Stage.framed]
      · simp [noteRun, hs]
      · simp [noteRun, hs, Stage.counted]
  · exact h.sound.succeed_inv _ _ _

theorem advanceDecoder_inv {s : State} (h : s.Inv) (hs : s.stage = .rleDecode) {n : Nat} {bs : List Byte}
    (hi : s.work.rleDec.ipos.toNat + n ≤ s.latched.srcLen.toNat)
    (ho : s.work.rleDec.opos.toNat + bs.length ≤ s.latched.dstCap.toNat) : (advanceDecoder s n bs).Inv := by
  have hr := h.ofRunning (by simp [hs])
  have hc : decodeOpcode s.op = .rleDecode := h.command (by rw [hs]; rfl)
  have hk := h.checked (by simp [hs]) (by simp [hs])
  have hd := h.dst (by simp [hs]) (by simp [hs]) (by rw [hc]; rfl)
  have hi' := ofNat_toNat_of_le s.latched.srcLen hi
  have ho' := ofNat_toNat_of_le s.latched.dstCap ho
  apply inv_running
  · refine State.Sound.congr (h.sound.store (a := s.latched.dstBase.toNat + s.work.rleDec.opos.toNat)
      (bs := bs) ?_) rfl rfl
    have := hd.1
    simp only [Operands.dst] at this
    omega
  · exact hr.1
  · exact hr.2
  · simp [advanceDecoder, hs]
  · simp [advanceDecoder, hs, hc, stageFits]
  · intro _; exact hk
  · simp [advanceDecoder, hs]
  · intro _
    simp only [advanceDecoder, hi', ho', State.store_latched]
    exact ⟨hi, ho⟩
  · simp [advanceDecoder, hs]
  · simp [advanceDecoder, hs, Stage.framed]
  · simp [advanceDecoder, hs]
  · simp [advanceDecoder, hs, Stage.counted]

theorem guardPacket_inv {s : State} (h : s.Inv) (hs : s.stage = .rleDecode) {p n : Nat} {go : State → State}
    (hg : s.work.rleDec.ipos.toNat + 1 + p ≤ s.latched.srcLen.toNat →
      s.work.rleDec.opos.toNat + n ≤ s.latched.dstCap.toNat → (go s).Inv) : (guardPacket s p n go).Inv := by
  have hc : decodeOpcode s.op = .rleDecode := h.command (by rw [hs]; rfl)
  have hd := h.dst (by simp [hs]) (by simp [hs]) (by rw [hc]; rfl)
  unfold guardPacket
  dsimp only
  split
  · exact h.sound.fail_inv _ _
  · split
    · exact h.sound.fail_inv _ _
    · exact hg (by omega) (by omega)

theorem decodeLit_inv {s : State} (h : s.Inv) (hs : s.stage = .rleDecode) (n : Nat) : (decodeLit n s).Inv :=
  guardPacket_inv h hs fun h1 h2 => advanceDecoder_inv h hs (by omega) (by simpa using h2)

theorem decodeRun_inv {s : State} (h : s.Inv) (hs : s.stage = .rleDecode) (n : Nat) : (decodeRun n s).Inv :=
  guardPacket_inv h hs fun h1 h2 => advanceDecoder_inv h hs (by omega) (by simpa using h2)

theorem fetchCtl_inv {s : State} (h : s.Inv) (hs : s.stage = .rleDecode) : (fetchCtl s).Inv := by
  have hr := h.ofRunning (by simp [hs])
  exact inv_running (h.sound.congr rfl rfl) hr.1 hr.2 (by simp [fetchCtl, hs]) h.fits
    (fun _ => h.checked (by simp [hs]) (by simp [hs])) (by simp [fetchCtl, hs]) (fun _ => h.rleDecode hs)
    (by simp [fetchCtl, hs]) (by simp [fetchCtl, hs, Stage.framed]) (by simp [fetchCtl, hs])
    (by simp [fetchCtl, hs, Stage.counted])

theorem rleDecodeStep_inv {s : State} (h : s.Inv) (hs : s.stage = .rleDecode) : (rleDecodeStep s).Inv := by
  unfold rleDecodeStep
  split
  · rw [runPacket_decodeCtl]
    have hf := fetchCtl_inv h hs
    split
    · exact decodeRun_inv hf hs _
    · exact decodeLit_inv hf hs _
  · exact h.sound.succeed_inv _ _ _

/-- The start of a command that passes its checks keeps the invariant; one that fails them completes. -/
theorem afterChecks_inv {s : State} (h : s.Inv) {c : Instr} {start : State → State}
    (hs : checkArgs c s.latched = none → (start s).Inv) : (s.afterChecks c start).Inv :=
  afterChecks_cases (P := State.Inv)
    (fun d _ => h.sound.fail_inv c d) hs

theorem beginRleEncode_inv {s : State} (h : s.Inv) (hs : s.stage = .issued) (hc : decodeOpcode s.op = .rleEncode) :
    (beginRleEncode s).Inv := by
  have hr := h.ofRunning (by simp [hs])
  refine afterChecks_inv h fun hk => ?_
  exact inv_running (h.sound.congr rfl rfl) hr.1 hr.2 (by simp) (by simp [hc, stageFits]) (fun _ => hc ▸ hk)
    (by simp) (by simp) (by simp) (by simp [Stage.framed]) (by simp) (by simp [Stage.counted])

theorem beginRleDecode_inv {s : State} (h : s.Inv) (hs : s.stage = .issued) (hc : decodeOpcode s.op = .rleDecode) :
    (beginRleDecode s).Inv := by
  have hr := h.ofRunning (by simp [hs])
  refine afterChecks_inv h fun hk => ?_
  exact inv_running (h.sound.congr rfl rfl) hr.1 hr.2 (by simp) (by simp [hc, stageFits]) (fun _ => hc ▸ hk)
    (by simp) (by simp) (by simp) (by simp [Stage.framed]) (by simp) (by simp [Stage.counted])

theorem beginHufEncode_inv {s : State} (h : s.Inv) (hs : s.stage = .issued) (hc : decodeOpcode s.op = .hufEncode) :
    (beginHufEncode s).Inv := by
  have hr := h.ofRunning (by simp [hs])
  refine afterChecks_inv h fun hk => ?_
  exact inv_running (h.sound.congr rfl rfl) hr.1 hr.2 (by simp) (by simp [hc, stageFits]) (fun _ => hc ▸ hk)
    (by simp) (by simp) (by simp) (by simp [Stage.framed]) (by simp) (by simp [Stage.counted])

theorem beginHufDecode_inv {s : State} (h : s.Inv) (hs : s.stage = .issued) (hc : decodeOpcode s.op = .hufDecode) :
    (beginHufDecode s).Inv := by
  have hr := h.ofRunning (by simp [hs])
  refine afterChecks_inv h fun hk => ?_
  have hd := checkArgs_dst hk rfl
  split
  · exact h.sound.fail_inv _ _
  · split
    · exact h.sound.fail_inv _ _
    · exact inv_running (h.sound.congr rfl rfl) hr.1 hr.2 (by simp) (by simp [hc, stageFits]) (fun _ => hc ▸ hk)
        (by simp) (by simp) (by simp) (fun _ => by dsimp only; omega) (by simp) (by simp [Stage.counted])

/-- HUF_RELEASE takes regions out of LIVE and completes (R213). -/
theorem hufRelease_inv {s : State} (h : s.Sound) : (hufRelease s).Inv := by
  unfold hufRelease
  dsimp only
  split
  · exact h.succeed_inv _ _ _
  · apply State.Sound.succeed_inv
    refine ⟨h.canonical, h.memInSpace, ?_, ?_⟩
    · intro w hw
      exact h.liveInSpace w (List.mem_of_mem_filter hw)
    · exact List.Pairwise.filter _ h.liveApart

/-- A stage step of HUF_ENCODE past its counting keeps the invariant when these clauses hold after it. -/
theorem hufStage_inv {s t : State} (h : s.Inv) (hc : decodeOpcode s.op = .hufEncode) (hs : s.stage ≠ .idle)
    (hi : s.stage ≠ .issued)
    (hset : SameSetting s t) (hstatus : t.status = s.status) (hsound : t.Sound) (hstage : t.stage.counted = true)
    (hreg : ∀ base size, t.stage = .hufHeader base size ∨ t.stage = .hufPack base size ∨
      t.stage = .hufDone base size → RegionFits t base size)
    (hcount : t.hostFault = false → t.work.freqs = freqOf t.srcBytes) : t.Inv := by
  have hr := h.ofRunning hs
  have hk := h.checked hs hi
  have hne : t.stage ≠ .idle := by rintro h; simp [h, Stage.counted] at hstage
  have hf : t.stage.framed = false := by cases hst : t.stage <;> simp_all [Stage.counted, Stage.framed]
  apply inv_running hsound
  · rw [hstatus, hr.1]
  · rw [hset.latched, hset.regs, hr.2]
  · exact hne
  · rw [hset.op, hc]; cases hst : t.stage <;> simp_all [Stage.counted, stageFits]
  · intro _; rw [hset.op, hset.latched]; exact hk
  · intro h'; simp [h', Stage.counted] at hstage
  · intro h'; simp [h', Stage.counted] at hstage
  · intro h'; simp [h', Stage.counted] at hstage
  · simp [hf]
  · exact hreg
  · intro h' _; exact hcount h'

/-- `FREQ` holds the counts of the source bytes, whoever has kept the host duties (R140). -/
def State.Counts (s : State) : Prop := s.stage.counted = true → s.work.freqs = freqOf s.srcBytes

theorem State.Inv.counts {s : State} (h : s.Inv) (hf : s.hostFault = false) : s.Counts := h.counted hf

/-- Writing the header leaves the source alone (R71). -/
theorem hufHeaderStep_srcBytes {s : State} {base : Addr} {size : Nat} (hreg : RegionFits s base size) :
    (hufHeaderStep base size s).srcBytes = s.srcBytes := by
  have hsz : 256 ≤ size := by rw [hreg.exact]; simp [Work.artifactSize]
  exact srcFrom_store (s := s) (a := base.toNat) (bs := s.work.len.toList) 0 hreg.apartFromSource (by simp)
    (by simp; omega)

/-- The payload fills the region after the header exactly (R154). -/
theorem payload_fills {s : State} {base : Addr} {size : Nat} (hreg : RegionFits s base size)
    (hcount : s.work.freqs = freqOf s.srcBytes) :
    256 + (packBits (s.work.payload s.srcBytes)).out.length = size := by
  rw [hreg.exact, packBits_length, payload_length, Work.artifactSize, Work.payloadBitCount, hcount]

/-- Writing the payload leaves the source alone (R71). -/
theorem hufPackStep_srcBytes {s : State} {base : Addr} {size : Nat} (hreg : RegionFits s base size)
    (hcount : s.work.freqs = freqOf s.srcBytes) : (hufPackStep base size s).srcBytes = s.srcBytes := by
  have := payload_fills hreg hcount
  exact srcFrom_store (s := s) (a := base.toNat + 256) (bs := (packBits (s.work.payload s.srcBytes)).out) 0
    hreg.apartFromSource (by simp) (by simp only; omega)

/-- A completed command holds no counts to judge. -/
theorem counts_of_idle {s : State} (h : s.stage = .idle) : s.Counts := by
  intro hc
  simp [h, Stage.counted] at hc

/-- No stage step spoils the counts. -/
theorem stageStep_counts {s : State} (h : s.Inv) (hcnt : s.Counts) : (stageStep s).Counts := by
  intro hc
  revert hc
  unfold stageStep
  split
  case h_1 hs => intro hc; simp [hs, Stage.counted] at hc
  case h_2 hs =>
    intro hc
    revert hc
    unfold begin beginRleEncode beginRleDecode beginHufEncode beginHufDecode State.afterChecks hufRelease
      reservedOpcodeStep
    dsimp only
    repeat' split
    all_goals simp [hs, Stage.counted]
  case h_3 hs =>
    unfold rleEncodeStep emitPacket
    dsimp only
    repeat' split
    all_goals simp [noteRun, hs, Stage.counted]
  case h_4 hs =>
    unfold rleDecodeStep
    split
    · rw [runPacket_decodeCtl]
      unfold decodeRun decodeLit guardPacket
      dsimp only
      repeat' split
      all_goals simp [advanceDecoder, fetchCtl, hs, Stage.counted]
    · simp [Stage.counted]
  case h_5 => exact fun _ => hufCountStep_freqs s
  case h_6 hs => exact fun _ => hcnt (by rw [hs]; rfl)
  case h_7 hs => exact fun _ => hcnt (by rw [hs]; rfl)
  case h_8 hs =>
    unfold hufAllocStep
    dsimp only
    split
    · exact fun _ => hcnt (by rw [hs]; rfl)
    · simp [Stage.counted]
  case h_9 base size hs =>
    intro _
    rw [hufHeaderStep_srcBytes (h.region base size (.inl hs))]
    exact hcnt (by rw [hs]; rfl)
  case h_10 base size hs =>
    intro _
    have hc := hcnt (by rw [hs]; rfl)
    rw [hufPackStep_srcBytes (h.region base size (.inr (.inl hs))) hc]
    exact hc
  case h_11 => simp [hufDoneStep, Stage.counted]
  case h_12 => simp [hufReadStep, Stage.counted]
  case h_13 =>
    unfold hufCheckStep
    dsimp only
    split <;> simp [Stage.counted]
  case h_14 hs =>
    unfold hufWalkStep
    dsimp only
    repeat' split
    all_goals simp [hs, Stage.counted]

/-- Every stage step of a command whose counts are those of its source keeps the invariant. -/
theorem stageStep_inv {s : State} (h : s.Inv) (hcnt : s.Counts) : (stageStep s).Inv := by
  unfold stageStep
  split
  case h_1 => exact h
  case h_2 hs =>
    unfold begin
    split
    · exact beginRleEncode_inv h hs (by assumption)
    · exact beginRleDecode_inv h hs (by assumption)
    · exact beginHufEncode_inv h hs (by assumption)
    · exact beginHufDecode_inv h hs (by assumption)
    · exact hufRelease_inv h.sound
    · exact h.sound.fail_inv _ _
    · exact h
    · exact h
  case h_3 hs => exact rleEncodeStep_inv h hs
  case h_4 hs => exact rleDecodeStep_inv h hs
  case h_5 hs =>
    refine hufStage_inv h (h.command (by rw [hs]; rfl)) (by simp [hs]) (by simp [hs]) (by constructor <;> rfl) rfl
      (h.sound.congr rfl rfl) rfl (by simp [hufCountStep]) fun _ => hufCountStep_freqs s
  case h_6 hs =>
    refine hufStage_inv h (h.command (by rw [hs]; rfl)) (by simp [hs]) (by simp [hs]) (by constructor <;> rfl) rfl
      (h.sound.congr rfl rfl) rfl (by simp [hufTreeStep]) fun _ => hcnt (by rw [hs]; rfl)
  case h_7 hs =>
    refine hufStage_inv h (h.command (by rw [hs]; rfl)) (by simp [hs]) (by simp [hs]) (by constructor <;> rfl) rfl
      (h.sound.congr rfl rfl) rfl (by simp [hufCodeStep]) fun _ => hcnt (by rw [hs]; rfl)
  case h_8 hs =>
    unfold hufAllocStep
    dsimp only
    split
    · rename_i base ha
      refine hufStage_inv h (h.command (by rw [hs]; rfl)) (by simp [hs]) (by simp [hs]) (by constructor <;> rfl) rfl
        (h.sound.congr rfl rfl) rfl ?_ fun _ => hcnt (by rw [hs]; rfl)
      have hk := allocAnswer_contract ha
      intro b z hbz
      simp at hbz
      obtain ⟨rfl, rfl⟩ := hbz
      exact ⟨hk.1, hk.2.1, rfl, hk.2.2.1, hk.2.2.2.1⟩
    · exact State.Sound.fail_inv (s := s.requestAlloc _) (h.sound.congr rfl rfl) _ _
  case h_9 base size hs =>
    have hreg := h.region base size (.inl hs)
    have hsz : 256 ≤ size := by rw [hreg.exact]; simp [Work.artifactSize]
    have hsp := hreg.inSpace
    refine hufStage_inv h (h.command (by rw [hs]; rfl)) (by simp [hs]) (by simp [hs]) (by constructor <;> rfl) rfl
      (State.Sound.congr (h.sound.store (a := base.toNat) (bs := s.work.len.toList) (by simp; omega)) rfl rfl) rfl
      ?_ ?_
    · intro b z hbz
      simp [hufHeaderStep] at hbz
      obtain ⟨rfl, rfl⟩ := hbz
      exact ⟨hreg.1, hreg.2, hreg.3, hreg.4, hreg.5⟩
    · intro _
      rw [hufHeaderStep_srcBytes hreg]
      exact hcnt (by rw [hs]; rfl)
  case h_10 base size hs =>
    have hreg := h.region base size (.inr (.inl hs))
    have hsp := hreg.inSpace
    have hc := hcnt (by rw [hs]; rfl)
    have hlen := payload_fills hreg hc
    refine hufStage_inv h (h.command (by rw [hs]; rfl)) (by simp [hs]) (by simp [hs]) (by constructor <;> rfl) rfl
      (State.Sound.congr (h.sound.store (a := base.toNat + 256) (bs := (packBits (s.work.payload s.srcBytes)).out)
        (by omega)) rfl rfl) rfl ?_ ?_
    · intro b z hbz
      simp [hufPackStep] at hbz
      obtain ⟨rfl, rfl⟩ := hbz
      exact ⟨hreg.1, hreg.2, hreg.3, hreg.4, hreg.5⟩
    · intro _
      rw [hufPackStep_srcBytes hreg hc]
      exact hc
  case h_11 base size hs =>
    have hreg := h.region base size (.inr (.inr hs))
    have hsz : 256 ≤ size := by rw [hreg.exact]; simp [Work.artifactSize]
    apply State.Sound.succeed_inv
    refine ⟨h.canonical, h.memInSpace, ?_, ?_⟩
    · intro w hw
      rcases List.mem_cons.1 hw with rfl | hw
      · refine ⟨?_, hsz, hreg.inSpace⟩
        have := hreg.nonNull
        simp only
        rw [Nat.pos_iff_ne_zero]
        intro h0; exact this (BitVec.eq_of_toNat_eq h0)
      · exact h.liveInSpace w hw
    · exact List.pairwise_cons.2 ⟨hreg.apartFromLive, h.liveApart⟩
  case h_12 hs =>
    have hr := h.ofRunning (by simp [hs])
    have hc : decodeOpcode s.op = .hufDecode := h.command (by rw [hs]; rfl)
    exact inv_running (h.sound.congr rfl rfl) hr.1 hr.2 (by simp [hufReadStep]) (by simp [hufReadStep, hc, stageFits])
      (fun _ => h.checked (by simp [hs]) (by simp [hs])) (by simp [hufReadStep]) (by simp [hufReadStep])
      (by simp [hufReadStep]) (fun _ => h.framed (by rw [hs]; rfl)) (by simp [hufReadStep])
      (by simp [hufReadStep, Stage.counted])
  case h_13 hs =>
    have hr := h.ofRunning (by simp [hs])
    have hc : decodeOpcode s.op = .hufDecode := h.command (by rw [hs]; rfl)
    have hd := h.dst (by simp [hs]) (by simp [hs]) (by rw [hc]; rfl)
    unfold hufCheckStep
    dsimp only
    split
    · exact inv_running (h.sound.congr rfl rfl) hr.1 hr.2 (by simp) (by simp [hc, stageFits])
        (fun _ => h.checked (by simp [hs]) (by simp [hs])) (by simp) (by simp)
        (by simp) (fun _ => h.framed (by rw [hs]; rfl)) (by simp)
        (by simp [Stage.counted])
    · exact h.sound.fail_inv _ _
  case h_14 hs =>
    have hr := h.ofRunning (by simp [hs])
    have hc : decodeOpcode s.op = .hufDecode := h.command (by rw [hs]; rfl)
    have hd := h.dst (by simp [hs]) (by simp [hs]) (by rw [hc]; rfl)
    have hp := h.hufWalk hs
    unfold hufWalkStep
    dsimp only
    split
    · split
      · exact h.sound.fail_inv _ _
      · exact h.sound.fail_inv _ _
      · rename_i sym depth code hw
        split
        · exact h.sound.fail_inv _ _
        · have hdep := walkCode_symbol hw
          have hi : (BitVec.ofNat 35 (s.work.unpack.bpos.toNat + depth)).toNat = s.work.unpack.bpos.toNat + depth :=
            ofNat_toNat_of_le s.latched.srcBits (by omega)
          have ho : (BitVec.ofNat 32 (s.work.unpack.opos.toNat + 1)).toNat = s.work.unpack.opos.toNat + 1 :=
            ofNat_toNat_of_le s.latched.dstCap (by omega)
          refine inv_running
            (State.Sound.congr (h.sound.store (a := s.latched.dstBase.toNat + s.work.unpack.opos.toNat)
              (bs := [BitVec.ofNat 8 sym]) ?_) rfl rfl)
            hr.1 hr.2 (by simp [hs]) (by simp [hs, hc, stageFits])
            (fun _ => h.checked (by simp [hs]) (by simp [hs])) (by simp [hs]) (by simp [hs])
            ?_ (fun _ => h.framed (by rw [hs]; rfl)) (by simp [hs])
            (by simp [hs, Stage.counted])
          · have := hd.1
            simp only [Operands.dst] at this
            simp only [List.length_singleton]
            omega
          · intro _
            simp only [hi, ho, State.store_latched]
            omega
    · exact h.sound.succeed_inv _ _ _

end Sys2Proof.Machine
end

