-- ==== Sys2Proof/Laws/StepInv.lean ====
section
/-! SUPPORT. How the events of a step keep the invariant, and the core's turn as stage steps. -/

namespace Sys2Proof.Machine

/-- An issue keeps the invariant (R210). -/
theorem issued_inv {s : State} (h : s.Inv) (op : Byte) (f : Bool) :
    State.Inv { s.issue op with hostFault := f } := by
  refine inv_running (h.sound.congr (t := { s.issue op with hostFault := f }) rfl rfl)
    ?_ ?_ ?_ ?_ ?_ ?_ ?_ ?_ ?_ ?_ ?_ <;>
    simp [State.issue, stageFits, Stage.framed, Stage.counted]

/-- While a command runs on, only the allocator's answer can set HOSTFAULT (R38, R230). -/
theorem stageStep_hostFault {s : State} (h : (stageStep s).stage ≠ .idle) (ha : s.stage ≠ .hufAlloc) :
    (stageStep s).hostFault = s.hostFault := by
  revert h
  unfold stageStep
  split
  case h_2 =>
    unfold begin
    split
    case h_5 => unfold hufRelease; dsimp only; split <;> simp
    case h_6 => simp [reservedOpcodeStep]
    case h_7 => simp
    case h_8 => simp
    all_goals intro _
    · exact (beginRleEncode_regions s).hostFault
    · exact (beginRleDecode_regions s).hostFault
    · unfold beginHufEncode State.afterChecks; split <;> simp
    · exact (beginHufDecode_regions s).hostFault
  case h_8 hs => exact absurd hs ha
  all_goals intro _
  · rfl
  · exact (rleEncodeStep_regions s).hostFault
  · exact (rleDecodeStep_regions s).hostFault
  · rfl
  · rfl
  · rfl
  · rfl
  · rfl
  · simp [hufDoneStep]
  · rfl
  · exact (hufCheckStep_regions s).hostFault
  · exact (hufWalkStep_regions s).hostFault

/-- A running command carried on keeps the invariant. -/
theorem runStages_inv (n : Nat) {s : State} (h : s.Inv) (hf : s.hostFault = false) : (runStages n s).Inv :=
  (runStages_keeps (P := fun s => s.Inv ∧ s.Counts)
    (fun _ h _ => ⟨stageStep_inv h.1 h.2, stageStep_counts h.1 h.2⟩) n ⟨h, h.counts hf⟩).1

/-- A host store keeps the invariant: one that reaches the source of a counted command sets HOSTFAULT (R256). -/
theorem hostStore_inv {s : State} (h : s.Inv) (a : Addr) (v : Byte) : (hostStore a v s).Inv := by
  obtain ⟨h1,h2,h3,h4,h5,h6,h7,h8,h9,h10,h11,h12,h13,h14,h15,h16⟩ := h
  refine ⟨Memory.wf_writeBytes _ _ h1, Memory.inSpace_writeBytes _ h2 (by have := a.isLt; simp; omega), h3, h4,
    h5, h6, h7, h8, h9, h10, h11, h12, h13, h14, ?_, ?_⟩
  · intro b z hbz
    have := h15 b z hbz
    exact ⟨this.1, this.2, this.3, this.4, this.5⟩
  · intro hf hc
    have hff : s.hostFault = false := by simp [hostStore] at hf; exact hf.1
    have hr := h16 hff hc
    have : (hostStore a v s).srcBytes = s.srcBytes := by
      refine srcFrom_congr (s := s) (t := hostStore a v s) 0 rfl ?_
      intro x hx
      show (s.mem.writeBytes a.toNat [v]).read x = _
      apply Memory.read_writeBytes_outside
      have hne : x ≠ a.toNat := by
        rintro rfl
        simp [hostStore] at hf
        have hidle : s.stage ≠ .idle := by rintro h; simp [hostStore, h, Stage.counted] at hc
        have hb := h3.2 hidle
        have hfit := h7
        have hcmd : decodeOpcode s.op = .hufEncode := by
          simp only [hostStore, State.store_stage] at hc
          cases hst : s.stage <;> simp [hst, Stage.counted, stageFits] at hc hfit <;> exact hfit
        have := hf.2.1 s.latched.src ((by simp [State.readWindows, hb, hcmd, usesSrc]))
        simp [this] at hx
      simp; omega
    rw [this]; exact hr

/-- What reset leaves of a running command's writes is sound (R251). -/
theorem abandon_sound {s : State} (h : s.Inv) : s.abandon.Sound := by
  unfold State.abandon
  split
  case h_7 hs => exact h.sound.spoil (h.region _ _ (by simp [hs])).inSpace
  case h_8 hs => exact h.sound.spoil (h.region _ _ (by simp [hs])).inSpace
  case h_9 hs => exact h.sound.spoil (h.region _ _ (by simp [hs])).inSpace
  all_goals first | exact h.sound.spoilDst _ | exact h.sound

/-- The reset input keeps the invariant (R250). -/
theorem reset_inv {s : State} (h : s.Inv) : (resetInput s).Inv := by
  have := abandon_sound h
  refine ⟨this.1, this.2, ?_, ?_, ?_, ?_, ?_, ?_, ?_, ?_, ?_, ?_, ?_, ?_, ?_, ?_⟩ <;>
    simp [resetInput, Status.reset, stageFits, Stage.framed, Stage.counted]

/-- A change of fields the invariant does not speak of keeps it. -/
theorem inv_congr {s t : State} (h : s.Inv) (h1 : t.op = s.op) (h2 : t.status = s.status) (h3 : t.latched = s.latched)
    (h4 : t.regs = s.regs) (h5 : t.mem = s.mem) (h6 : t.work = s.work) (h7 : t.stage = s.stage)
    (h8 : t.live = s.live) (h9 : t.hostFault = false → s.hostFault = false) : t.Inv := by
  obtain ⟨a1,a2,a3,a4,a5,a6,a7,a8,a9,a10,a11,a12,a13,a14,a15,a16⟩ := h
  constructor
  all_goals try simp only [h1,h2,h3,h4,h5,h6,h7,h8]
  all_goals try assumption
  · intro b z hbz
    have := a15 b z hbz
    exact ⟨this.1, this.2, by rw [h6]; exact this.3, by rw [h3]; exact this.4, by rw [h8]; exact this.5⟩
  · intro hf hc
    have : t.srcBytes = s.srcBytes := by simp [State.srcBytes, State.srcFrom, h5, h3]
    rw [this]; exact a16 (h9 hf) hc

/-- An issued command's first stage step is its start. -/
theorem begin_of_issued {s : State} (hs : s.stage = .issued) : stageStep s = begin (decodeOpcode s.op) s := by
  simp [stageStep, hs]

/-- A command's meaning is its start, carried to completion. -/
theorem exec_next {i : Instr} (hi : isCommand i = true) (s : State) : exec i s = .next (finish (begin i s)) := by
  cases i
  case hufRelease =>
    show _ = Host.Outcome.next (finish (hufRelease s))
    rw [finish_idle (by unfold hufRelease; dsimp only; split <;> rfl)]; rfl
  case reservedOp op =>
    show _ = Host.Outcome.next (finish (reservedOpcodeStep s))
    rw [finish_idle (by simp [reservedOpcodeStep])]; rfl
  case lit => contradiction
  case run => contradiction
  all_goals rfl

/-- The core's turn carries the command on to its completion (R67). -/
theorem coreTurn_eq (s : State) : coreTurn s = .next (finish s) := by
  unfold coreTurn
  split
  · rename_i h; rw [finish_idle h]
  · split
    · rename_i h1 h2
      rw [exec_next (isCommand_decodeOpcode _), ← begin_of_issued h2, finish_stageStep h1]
    · rfl

theorem coreTurn_inv {s t : State} (h : s.Inv) (hf : s.hostFault = false) (ht : coreTurn s = .next t) : t.Inv := by
  rw [coreTurn_eq] at ht
  cases ht
  exact runStages_inv _ h hf

/-- A packet acts when the windows lie in the address space (R62). -/
theorem exec_ctl {s : State} (hs : s.latched.src.inSpace = true) (hd : s.latched.dst.inSpace = true) (ctl : Byte) :
   exec (decodeCtl ctl) s = .next (runPacket (decodeCtl ctl) s) := by
  unfold decodeCtl; split <;> simp [exec, execLit, execRun, inWindows, hs, hd, runPacket]

/-- In a state that meets the invariant, a part is one stage step (R67). -/
theorem corePart_eq {s : State} (h : s.Inv) : corePart s = .next (stageStep s) := by
  unfold corePart
  split
  · rename_i hh
    have hc : decodeOpcode s.op = .rleDecode := h.command (by rw [hh.1]; rfl)
    have hk := h.checked (by simp [hh.1]) (by simp [hh.1])
    rw [hc] at hk
    have h1 := (checkArgs_src hk).1
    have h2 := (checkArgs_dst hk rfl).1
    rw [exec_ctl (s := fetchCtl s) (decide_eq_true h1) (decide_eq_true h2)]
    simp [stageStep, hh.1, rleDecodeStep, hh.2]
  · rfl

/-- A command's end: a completion, with all results 0 unless it succeeded (R211, R222). -/
def Ended (t : State) : Prop := ∃ d r, Completed t d r ∧ (d ≠ .none → r = Results.zero)

/-- How a stage step ends: the command runs on, its flags and results as they were, or it completes (R37, R211). -/
theorem stageStep_ending {s : State} (h : s.stage ≠ .idle) :
    ((stageStep s).status = s.status ∧ (stageStep s).res = s.res ∧ (stageStep s).stage ≠ .idle) ∨
      Ended (stageStep s) := by
  have hfail : ∀ (u : State) (c : Instr) (d : Detail), Ended (u.fail c d) :=
    fun u c d => ⟨d, Results.zero, by constructor <;> simp, fun _ => rfl⟩
  have hsucc : ∀ (u : State) (n b : Nat) (p : Addr), Ended (u.succeed n b p) :=
    fun u n b p => ⟨.none, _, by constructor <;> rfl, fun h => absurd rfl h⟩
  have hchecks : ∀ (c : Instr) (start : State → State),
      ((start s).status = s.status ∧ (start s).res = s.res ∧ (start s).stage ≠ .idle ∨ Ended (start s)) →
      ((s.afterChecks c start).status = s.status ∧ (s.afterChecks c start).res = s.res ∧
        (s.afterChecks c start).stage ≠ .idle ∨ Ended (s.afterChecks c start)) := fun c start hs =>
    afterChecks_cases (P := fun t => t.status = s.status ∧ t.res = s.res ∧ t.stage ≠ .idle ∨ Ended t)
      (fun d _ => .inr (hfail s c d)) fun _ => hs
  unfold stageStep
  split
  case h_1 => contradiction
  case h_2 =>
    unfold begin
    split
    · exact hchecks _ _ (.inl ⟨rfl, rfl, nofun⟩)
    · exact hchecks _ _ (.inl ⟨rfl, rfl, nofun⟩)
    · exact hchecks _ _ (.inl ⟨rfl, rfl, nofun⟩)
    · apply hchecks
      split
      · exact .inr (hfail _ _ _)
      · split
        · exact .inr (hfail _ _ _)
        · exact .inl ⟨rfl, rfl, nofun⟩
    · unfold hufRelease
      dsimp only
      split <;> exact .inr (hsucc _ _ _ _)
    · exact .inr (hfail _ _ _)
    · exact .inl ⟨rfl, rfl, h⟩
    · exact .inl ⟨rfl, rfl, h⟩
  case h_3 =>
    unfold rleEncodeStep emitPacket
    dsimp only
    split
    · split
      · exact .inr (hfail _ _ _)
      · exact .inl ⟨rfl, rfl, h⟩
    · exact .inr (hsucc _ _ _ _)
  case h_4 =>
    unfold rleDecodeStep
    split
    · rw [runPacket_decodeCtl]
      unfold decodeRun decodeLit guardPacket
      dsimp only
      split <;> split
      · exact .inr (hfail _ _ _)
      · split
        · exact .inr (hfail _ _ _)
        · exact .inl ⟨rfl, rfl, h⟩
      · exact .inr (hfail _ _ _)
      · split
        · exact .inr (hfail _ _ _)
        · exact .inl ⟨rfl, rfl, h⟩
    · exact .inr (hsucc _ _ _ _)
  case h_8 =>
    unfold hufAllocStep
    dsimp only
    split
    · exact .inl ⟨rfl, rfl, nofun⟩
    · exact .inr (hfail _ _ _)
  case h_11 => exact .inr (hsucc _ _ _ _)
  case h_13 =>
    unfold hufCheckStep
    dsimp only
    split
    · exact .inl ⟨rfl, rfl, nofun⟩
    · exact .inr (hfail _ _ _)
  case h_14 =>
    unfold hufWalkStep
    dsimp only
    split
    · split
      · exact .inr (hfail _ _ _)
      · exact .inr (hfail _ _ _)
      · split
        · exact .inr (hfail _ _ _)
        · exact .inl ⟨rfl, rfl, h⟩
    · exact .inr (hsucc _ _ _ _)
  all_goals exact .inl ⟨rfl, rfl, nofun⟩

/-- A running command with stage steps enough completes (R211, R215). -/
theorem runStages_ending {n : Nat} {s : State} (h : s.stage ≠ .idle) (hn : stepsLeft s ≤ n) :
    Ended (runStages n s) := by
  induction n generalizing s with
  | zero => have := stepsLeft_pos h; omega
  | succ n ih =>
    have hc := stageStep_closer h
    rw [runStages_succ h]
    rcases stageStep_ending h with ⟨-, -, hi⟩ | ⟨d, r, hd, hz⟩
    · exact ih hi (by omega)
    · rw [runStages_idle hd.stage]
      exact ⟨d, r, hd, hz⟩

/-- A running command carried to its end has completed (R211, R262). -/
theorem finish_ending {s : State} (h : s.stage ≠ .idle) : Ended (finish s) :=
  runStages_ending h (stepsLeft_le_stageBound s)

end Sys2Proof.Machine
end

