-- ==== Sys2Proof/Tests/Slice0.lean ====
section
/-! SUPPORT. The model's own tests: ill-formed terms refused, words of the spec decoded, one small run per instruction
against spec/95_test_vectors.md, and for every statement with hypotheses a case that meets them. -/

namespace Sys2Proof.Tests

set_option Elab.async false

open Sys2Proof Sys2Proof.Machine

/-! ### Helpers -/

/-- An idle core with these operands, its source bytes in memory and the allocator's answers. -/
def ready (src : List Byte) (o : Operands) (answers : List (Option Addr) := []) : State :=
  { State.reset with
    mem := Memory.writeBytes [] o.srcBase.toNat src
    regs := o
    latched := o
    allocAnswers := answers }

/-- The state an instruction leaves; the state after reset if it stops. -/
def after (i : Instr) (s : State) : State :=
  match exec i s with
  | .next t => t
  | .fault _ | .refused _ => State.reset

/-- `n` source bytes at 0x1000 and a destination window of `cap` bytes at 0x2000. -/
def windows (n cap : Nat) : Operands := ⟨0x1000, BitVec.ofNat 32 n, 0, 0x2000, BitVec.ofNat 32 cap⟩

/-- A source and a destination window of `cap` bytes. -/
def codec (src : List Byte) (cap : Nat) : State := ready src (windows src.length cap)

/-- A Huffman header with these lengths. -/
def header (lengths : List (Nat × Nat)) : List Byte :=
  (List.range 256).map fun s => BitVec.ofNat 8 ((lengths.lookup s).getD 0)

/-- An artifact at 0x1000 to decode `bits` payload bits of. -/
def artifact (lengths : List (Nat × Nat)) (payload : List Byte) (bits cap : Nat) : State :=
  ready (header lengths ++ payload)
    ⟨0x1000, BitVec.ofNat 32 (256 + payload.length), BitVec.ofNat 35 bits, 0x2000, BitVec.ofNat 32 cap⟩

/-- A command just issued over these operands. -/
def issued (op : Byte) (o : Operands) : State := { State.reset with regs := o }.issue op

/-- An idle core after a successful command. -/
def settled : State := { State.reset with res := ⟨8, 0, 0⟩, status := Status.completed .none }

theorem issued_inv (op : Byte) (o : Operands) : (issued op o).Inv := by
  constructor <;>
    simp [issued, State.issue, State.reset, Status.running, Memory.wf, Memory.inSpace, stageFits, Stage.framed,
      Stage.counted]

theorem settled_issue_inv (op : Byte) : (settled.issue op).Inv := by
  constructor <;>
    simp [settled, State.issue, State.reset, Status.running, Memory.wf, Memory.inSpace, stageFits, Stage.framed,
      Stage.counted]

theorem counting_inv : State.Inv { issued 0x03 (windows 7 0) with stage := .hufCount } := by
  constructor <;>
    simp [issued, State.issue, State.reset, Status.running, Memory.wf, Memory.inSpace, stageFits, Stage.framed,
      Stage.counted]
  all_goals decide

theorem settled_inv : settled.Inv := by
  constructor <;>
    simp [settled, State.reset, Status.completed, Memory.wf, Memory.inSpace, stageFits, Stage.framed, Stage.counted]

/-! ### Well-formedness: each check refuses an ill-formed term -/

theorem test_wf_refuses_named_opcode : (Instr.reservedOp 0x01).wf = false ∧ (Instr.reservedOp 0x05).wf = false := by
  decide
theorem test_wf_takes_reserved_opcodes :
    (Instr.reservedOp 0x00).wf = true ∧ (Instr.reservedOp 0x06).wf = true ∧ (Instr.reservedOp 0xFF).wf = true := by
  decide
theorem test_wf_refuses_empty_packets : (Packet.lit []).wf = false ∧ (Packet.run 0 7).wf = false := by decide
theorem test_wf_refuses_long_packets :
    (Packet.lit (List.replicate 129 7)).wf = false ∧ (Packet.run 129 7).wf = false := by decide +kernel
theorem test_memory_wf_refuses :
    Memory.wf [(1, 0)] = false ∧ Memory.wf [(2, 1), (1, 1)] = false ∧ Memory.wf [(1, 1), (1, 2)] = false := by decide

/-! ### Decoding: words written out from the encodings (R82 to R87, and the notes of R22) -/

theorem test_decode_rle_encode : decode .commandRegister [0b00000001] = .instr .rleEncode [] := by decide
theorem test_decode_rle_decode : decode .commandRegister [0b00000010] = .instr .rleDecode [] := by decide
theorem test_decode_huf_encode : decode .commandRegister [0b00000011] = .instr .hufEncode [] := by decide
theorem test_decode_huf_decode : decode .commandRegister [0b00000100] = .instr .hufDecode [] := by decide
theorem test_decode_huf_release : decode .commandRegister [0b00000101] = .instr .hufRelease [] := by decide
theorem test_decode_reserved_zero : decode .commandRegister [0b00000000] = .instr (.reservedOp 0) [] := by decide
theorem test_decode_reserved_six : decode .commandRegister [0b00000110] = .instr (.reservedOp 6) [] := by decide
theorem test_decode_reserved_high : decode .commandRegister [0b10010001] = .instr (.reservedOp 0x91) [] := by decide
theorem test_decode_lit_of_128 : decode .rleStream [0b01111111, 0x41] = .instr (.lit 127) [0x41] := by decide
theorem test_decode_run_of_18 : decode .rleStream [0b10010001, 0x11] = .instr (.run 17) [0x11] := by decide
/-- R22: bits above 7 of the command word are ignored. -/
theorem test_decode_ignores_high_bits : decodeCommand 0x105 = .hufRelease := by decide
theorem test_decode_table_word :
    decodeTableWord 8 0x03 = some .hufEncode ∧ decodeTableWord 8 0x40 = some (.reservedOp 0x40) := by decide
theorem test_parse_stream :
    parseStream [0x00, 0x41, 0x80, 0x42, 0x81, 0x43] = some [.lit [0x41], .run 1 0x42, .run 2 0x43] := by decide

/-! ### One run per instruction, from spec/95_test_vectors.md -/

/-- P1: `41 42 43 41 41 41 41 42` is `02 41 42 43 83 41 00 42`, which fits exactly. -/
theorem test_rle_encode :
    let t := after .rleEncode (codec [0x41, 0x42, 0x43, 0x41, 0x41, 0x41, 0x41, 0x42] 8)
    t.status.word = 2 ∧ t.res.len = 8 ∧ t.mem.readBytes 0x2000 8 = [2, 0x41, 0x42, 0x43, 0x83, 0x41, 0, 0x42] := by
  decide +kernel
/-- R115: a run that starts two bytes before a Literal would be full ends the Literal, though it reaches past it. -/
theorem test_rle_literal_boundary :
    let bytes := (List.range 126).map (BitVec.ofNat 8)
    rlePackets (bytes ++ [0xF0, 0xF0, 0xF0, 0xF1]) = [.lit bytes, .run 3 0xF0, .lit [0xF1]] := by decide +kernel
/-- L2: 18 bytes `11` need two bytes of capacity. R222(a): a failed argument check too gives up the 16 bytes of the
destination window. -/
theorem test_rle_encode_fails :
    (after .rleEncode (codec (List.replicate 18 0x11) 1)).status.word = 0x00010102 ∧
      let t := after .rleEncode (ready [] ⟨0, 5, 0, 0x2000, 16⟩)
      t.status.word = 0x00310402 ∧ t.draws = 17 := by decide +kernel
/-- L2: `00 41 80 42 81 43` is `41 42 43 43`. -/
theorem test_rle_decode :
    let t := after .rleDecode (codec [0x00, 0x41, 0x80, 0x42, 0x81, 0x43] 4)
    t.status.word = 2 ∧ t.res.len = 4 ∧ t.mem.readBytes 0x2000 4 = [0x41, 0x42, 0x43, 0x43] := by decide +kernel
/-- L2: `02 41 42` promises three literal bytes. -/
theorem test_rle_decode_truncated :
    (after .rleDecode (codec [0x02, 0x41, 0x42] 100)).status.word = 0x00100202 := by decide +kernel
/-- P2: `AAAABBC` is 10 bits `0A C0` under the lengths 1, 2, 2, in one request of 258 bytes. -/
theorem test_huf_encode :
    let t := after .hufEncode (ready [0x41, 0x41, 0x41, 0x41, 0x42, 0x42, 0x43] (windows 7 0) [some 0x8000])
    t.status.word = 2 ∧ t.res = ⟨258, 10, 0x8000⟩ ∧ t.mem.readBytes 0x8041 3 = [1, 2, 2] ∧
      t.mem.readBytes 0x8100 2 = [0x0A, 0xC0] ∧ t.live = [⟨0x8000, 258⟩] ∧ t.portLog = [.alloc 258] := by
  decide +kernel
theorem test_huf_encode_alloc_fail :
    (after .hufEncode (ready [0x41] (windows 1 0) [none])).status.word = 0x00200302 := by decide +kernel
/-- L2: `0A C0` under the lengths 1, 2, 2 is `AAAABBC`. -/
theorem test_huf_decode :
    let t := after .hufDecode (artifact [(0x41, 1), (0x42, 2), (0x43, 2)] [0x0A, 0xC0] 10 7)
    t.status.word = 2 ∧ t.mem.readBytes 0x2000 7 = [0x41, 0x41, 0x41, 0x41, 0x42, 0x42, 0x43] := by decide +kernel
/-- L2: three codes of length 1 are no prefix code. -/
theorem test_huf_decode_bad_header :
    (after .hufDecode (artifact [(0x41, 1), (0x42, 1), (0x43, 1)] [] 0 9)).status.word = 0x00120202 := by
  decide +kernel
theorem test_huf_release :
    let s := { ready [] ⟨0x8000, 0, 0, 0, 0⟩ with live := [⟨0x9000, 256⟩, ⟨0x8000, 258⟩] }
    let t := after .hufRelease s
    t.status.word = 2 ∧ t.live = [⟨0x9000, 256⟩] ∧ t.hostFault = false ∧ t.portLog = [.release 0x8000] := by decide
theorem test_huf_release_twice : (after .hufRelease (ready [] ⟨0x8000, 0, 0, 0, 0⟩)).hostFault = true := by decide
theorem test_reserved_op : (after (.reservedOp 7) (codec [] 0)).status.word = 0x00300402 := by decide
/-- R121 on the stream `01 41 42`. -/
theorem test_lit :
    let t := after (.lit 1) (codec [0x01, 0x41, 0x42] 2)
    t.mem.readBytes 0x2000 2 = [0x41, 0x42] ∧ t.work.rleDec.ipos = 3 ∧ t.work.rleDec.opos = 2 := by decide +kernel
/-- R122 on the stream `82 41`. -/
theorem test_run :
    let t := after (.run 2) (codec [0x82, 0x41] 3)
    t.mem.readBytes 0x2000 3 = [0x41, 0x41, 0x41] ∧ t.work.rleDec.ipos = 2 ∧ t.work.rleDec.opos = 3 := by
  decide +kernel
/-- A placed command word runs as the first instruction after reset. -/
theorem test_first_instruction :
    (∃ t, step (State.reset.withFetchWord 8 0x05) = .next t ∧ t.status.word = 2) ∧
      ∃ t, step (State.reset.withFetchWord 8 0x06) = .next t ∧ t.status.word = 0x00300402 :=
  ⟨⟨_, rfl, by decide⟩, _, rfl, by decide⟩

/-! ### Witnesses: encodings and registers -/

theorem witness_DecodeOfEncode : (Instr.reservedOp 0x06).wf = true ∧ (Instr.run 127).wf = true := by decide

theorem witness_ControlByteCount :
    (Packet.lit [0x41]).wf = true ∧ (Packet.lit (List.replicate 128 0)).wf = true ∧ (Packet.run 1 0).wf = true ∧
      (Packet.run 128 0).wf = true := by decide +kernel

theorem witness_PacketStreamRoundTrip :
    (∀ p ∈ [Packet.lit [0x41], .run 128 0x42], p.wf = true) ∧
      parseStream [0x00, 0x41, 0xFF, 0x42] = some [.lit [0x41], .run 128 0x42] := by decide

theorem witness_OperandRegisterWrites : settled.status.busy = false := rfl

theorem witness_RegisterAccessWidths :
    settled.status.busy = false ∧ 0x20 % 8 = 0 ∧ legalAccess 32 0x02 = false ∧ legalAccess 64 0x5C = false ∧
      legalAccess 64 0x60 = false ∧ legalAccess 64 0x50 = true ∧ legalAccess 32 0x5C = true ∧ 0x50 ≤ 0x5C ∧
      0x08 ≠ 0x00 := by decide

theorem witness_BusyRegisterAccess :
    (issued 0x03 (windows 7 0)).Inv ∧ (issued 0x03 (windows 7 0)).status.busy = true ∧ legalAccess 32 0x5C = true :=
  ⟨issued_inv _ _, rfl, by decide⟩

theorem witness_IssueStep :
    let s := { settled with agenda := [.regWrite 32 0x00 0x105] }
    let u := { issued 0x03 (windows 7 0) with agenda := [.regWrite 64 0x00 0x05] }
    (s.hostFault = false ∧ s.agenda = .regWrite 32 0x00 0x105 :: [] ∧ s.status.busy = false) ∧
      u.hostFault = false ∧ u.agenda = .regWrite 64 0x00 0x05 :: [] ∧ u.status.busy = true := by decide

theorem witness_ResetInputState :
    let s := { issued 0x03 (windows 7 0) with agenda := [.reset], hostFault := true }
    s.agenda = .reset :: [] := rfl

theorem witness_ResetKeepsMemory :
    (issued 0x01 (windows 7 8)).Inv ∧ (issued 0x01 (windows 7 8)).status.busy = true ∧ settled.Inv ∧
      settled.status.busy = false := ⟨issued_inv _ _, rfl, settled_inv, rfl⟩

/-! ### Witnesses: memory, windows and argument checks -/

theorem witness_CanonicalMemoryExtensional :
    let m : Memory := [(0, 1), (5, 0xFF)]
    m.wf = true ∧ ∀ a, m.read a = m.read a := ⟨by decide, fun _ => rfl⟩

theorem witness_FailedChecks :
    checkArgs .rleEncode ⟨0, 5, 0, 0x2000, 16⟩ = some .nullBuffer ∧
    checkArgs .rleDecode ⟨0x1000, 2, 0, 0, 4⟩ = some .nullBuffer ∧
    checkArgs .rleEncode ⟨0xFFFFFFF0, 0x11, 0, 0x2000, 16⟩ = some .range ∧
    checkArgs .hufDecode ⟨0x1000, 8, 0, 0xFFFFFFFF, 2⟩ = some .range ∧
    checkArgs .rleEncode ⟨0x1000, 8, 0, 0x1007, 16⟩ = some .overlap ∧
    checkArgs .hufEncode ⟨0x100, 0xFFFFFF00, 0, 0, 0⟩ = some .lengthRange := by decide

theorem witness_CheckOrder :
    usesSrc .hufEncode = true ∧ usesSrc .rleDecode = true ∧
    checkArgs .rleEncode ⟨0, 0, 0, 0, 0⟩ = none ∧ checkArgs .rleEncode ⟨0, 1, 0, 0, 0⟩ = some .nullBuffer ∧
    checkArgs .rleEncode ⟨0xFFFFFFF0, 0x10, 0, 0x2000, 16⟩ = none ∧
    checkArgs .rleEncode ⟨0x1000, 8, 0, 0x1008, 16⟩ = none ∧ checkArgs .rleEncode ⟨0x1000, 8, 0, 0x1004, 0⟩ = none ∧
    checkArgs .hufEncode ⟨0xFF, 0xFFFFFEFF, 0, 0, 0⟩ = none := by decide

/-! ### Witnesses: the RLE codec -/

theorem witness_RleEncodeSucceeds :
    let s := codec [0x41, 0x41, 0x41, 0x42] 4
    checkArgs .rleEncode s.latched = none ∧
      (encodeStream (rlePackets s.srcBytes)).length = s.latched.dstCap.toNat := by decide +kernel

theorem witness_RleEncodeOverflows :
    let s := codec [0x41, 0x41, 0x41, 0x42] 3
    checkArgs .rleEncode s.latched = none ∧
      s.latched.dstCap.toNat < (encodeStream (rlePackets s.srcBytes)).length := by decide +kernel

theorem witness_RleEncoderShapes :
    let bytes := (List.range 128).map (BitVec.ofNat 8)
    rlePackets [0x41, 0x42, 0x42, 0x42] = [] ++ [.lit [0x41], .run 3 0x42] ++ [] ∧
      rlePackets (bytes ++ [0x80]) = [] ++ [.lit bytes, .lit [0x80]] ++ [] ∧
      rlePackets [0x41, 0x41, 0x41, 0x42] = [] ++ [.run 3 0x41] ++ [.lit [0x42]] ∧
      rlePackets [0x41, 0x42, 0x42] = [] ++ [.lit ([0x41] ++ [0x42, 0x42])] ++ [] := by decide +kernel

theorem witness_RleWorstCaseBound :
    let s := codec [0x41, 0x42] 3
    checkArgs .rleEncode s.latched = none ∧
      s.latched.srcLen.toNat + cdiv s.latched.srcLen.toNat 128 ≤ s.latched.dstCap.toNat ∧
      ∃ t, exec .rleEncode s = .next t ∧ t.status = Status.completed .none :=
  ⟨by decide +kernel, by decide +kernel, _, rfl, by decide +kernel⟩

theorem witness_RleDecodeSucceeds :
    let s := codec [0x00, 0x41, 0x82, 0x42] 4
    let ps : List Packet := [.lit [0x41], .run 3 0x42]
    checkArgs .rleDecode s.latched = none ∧ (∀ p ∈ ps, p.wf = true) ∧ s.srcBytes = encodeStream ps ∧
      (ps.flatMap Packet.span).length ≤ s.latched.dstCap.toNat := by decide +kernel

theorem witness_RleDecodeFails :
    let ps : List Packet := [.lit [0x41]]
    (let s := codec [0x00, 0x41, 0x01, 0x42] 4
     checkArgs .rleDecode s.latched = none ∧ (∀ p ∈ ps, p.wf = true) ∧
       s.srcBytes = encodeStream ps ++ [0x01, 0x42] ∧ (ps.flatMap Packet.span).length ≤ s.latched.dstCap.toNat ∧
       splitPacket [0x01, 0x42] = none) ∧
    (let s := codec [0x00, 0x41, 0x82, 0x42] 3
     checkArgs .rleDecode s.latched = none ∧ s.srcBytes = encodeStream ps ++ [0x82, 0x42] ∧
       (ps.flatMap Packet.span).length ≤ s.latched.dstCap.toNat ∧
       splitPacket [0x82, 0x42] = some (.run 3 0x42, []) ∧
       s.latched.dstCap.toNat < (ps.flatMap Packet.span).length + (Packet.run 3 0x42).span.length) := by
  decide +kernel

theorem witness_RleRoundTrip :
    let s := codec [0x41, 0x41, 0x41, 0x42] 4
    let u (cap : Nat) := codec [0x82, 0x41, 0x00, 0x42] cap
    ∃ t, exec .rleEncode s = .next t ∧ t.status = Status.completed .none ∧ checkArgs .rleEncode s.latched = none ∧
      checkArgs .rleDecode (u 4).latched = none ∧ checkArgs .rleDecode (u 3).latched = none ∧
      (u 4).srcBytes = t.mem.readBytes s.latched.dstBase.toNat t.res.len.toNat ∧
      (u 3).srcBytes = t.mem.readBytes s.latched.dstBase.toNat t.res.len.toNat ∧
      s.latched.srcLen.toNat ≤ (u 4).latched.dstCap.toNat ∧
      (u 3).latched.dstCap.toNat + 1 = s.latched.srcLen.toNat := ⟨_, rfl, by decide +kernel⟩

theorem witness_LitCopies :
    let s := codec [0x01, 0x41, 0x42] 2
    s.latched.src.inSpace = true ∧ s.latched.dst.inSpace = true ∧
      s.work.rleDec.ipos.toNat + 1 + ((1 : BitVec 7).toNat + 1) = s.latched.srcLen.toNat ∧
      s.work.rleDec.opos.toNat + ((1 : BitVec 7).toNat + 1) = s.latched.dstCap.toNat := by decide +kernel

theorem witness_RunRepeats :
    let s := codec [0xFF, 0x41] 128
    s.latched.src.inSpace = true ∧ s.latched.dst.inSpace = true ∧
      s.work.rleDec.ipos.toNat + 2 = s.latched.srcLen.toNat ∧
      s.work.rleDec.opos.toNat + ((127 : BitVec 7).toNat + 1) = s.latched.dstCap.toNat := by decide +kernel

/-- One byte short of the stream, then one byte short of the destination, then a window past the last address. -/
theorem witness_PacketFailures :
    (let s := codec [0x01, 0x41] 2
     s.latched.src.inSpace = true ∧ s.latched.dst.inSpace = true ∧
       s.latched.srcLen.toNat < s.work.rleDec.ipos.toNat + 1 + ((1 : BitVec 7).toNat + 1)) ∧
    (let s := codec [0x81] 2
     s.latched.srcLen.toNat < s.work.rleDec.ipos.toNat + 2) ∧
    (let s := codec [0x01, 0x41, 0x42] 1
     s.work.rleDec.ipos.toNat + 1 + ((1 : BitVec 7).toNat + 1) ≤ s.latched.srcLen.toNat ∧
       s.latched.dstCap.toNat < s.work.rleDec.opos.toNat + ((1 : BitVec 7).toNat + 1)) ∧
    (let s := codec [0x81, 0x41] 1
     s.work.rleDec.ipos.toNat + 2 ≤ s.latched.srcLen.toNat ∧
       s.latched.dstCap.toNat < s.work.rleDec.opos.toNat + ((1 : BitVec 7).toNat + 1)) ∧
    (let s := ready [] ⟨0xFFFFFFFF, 2, 0, 0x2000, 4⟩
     (s.latched.src.inSpace && s.latched.dst.inSpace) = false) := by decide +kernel

/-! ### Witnesses: the Huffman code -/

/-- A symbol that is absent, an input of one symbol and one of two. -/
theorem witness_CodeLengthsFormFullTree :
    (freqOf [0x41]).getD 0x42 0 = 0 ∧ (freqOf [0x41, 0x41]).countP (· ≠ 0) = 1 ∧
      (freqOf [0x41, 0x41]).getD 0x41 0 ≠ 0 ∧ (freqOf [0x41, 0x42]).countP (· ≠ 0) = 2 ∧
      (freqOf [0x41, 0x42]).getD 0x42 0 ≠ 0 := by decide +kernel

theorem witness_PayloadBitBound :
    (freqOf []).countP (· ≠ 0) = 0 ∧ (freqOf [0x41, 0x41]).countP (· ≠ 0) = 1 ∧
      [(0x41 : Byte), 0x41].length < 2 ^ 32 := by decide +kernel

/-- Of three leaves the lighter two are taken, the smaller symbol first on a tie. -/
theorem witness_TreeBuilderIsGreedy :
    let live : List Tree := [.leaf 9 5, .leaf 7 2, .leaf 3 2]
    extractLeast live = some (.leaf 3 2, [.leaf 9 5, .leaf 7 2]) ∧
      extractLeast [.leaf 9 5, .leaf 7 2] = some (.leaf 7 2, [.leaf 9 5]) ∧
      2 ≤ (leavesOf [2, 2, 5]).length ∧ (buildTree [2, 2, 5]).isSome = true := by decide +kernel

/-- Code lengths 1, 2, 2 for the symbols 0, 1, 2. -/
def threeLengths : List Nat := [1, 2, 2] ++ List.replicate 253 0

theorem witness_CanonicalCodeIsPrefixFree :
    threeLengths.length = 256 ∧ (∀ l ∈ threeLengths, l ≤ 255) ∧ kraftOK threeLengths = true ∧
      threeLengths.getD 2 0 ≠ 0 ∧ canon threeLengths = [⟨0, 1, 0⟩, ⟨1, 2, 2⟩, ⟨2, 2, 3⟩] := by decide +kernel

theorem witness_DecodeTablesMatch :
    threeLengths.length = 256 ∧ (∀ l ∈ threeLengths, l ≤ 255) ∧ kraftOK threeLengths = true ∧ 1 ≤ 1 ∧ 255 ≤ 255 := by
  decide +kernel

theorem witness_PackerLayout :
    0 < [true, false, true].length ∧ [true, false, true].length ≤ 7 ∧ 7 < 8 * cdiv [true, false, true].length 8 := by
  decide

theorem witness_HufEncodeSucceeds :
    let s := ready [0x41, 0x42] (windows 2 0) [some 0x8000]
    checkArgs .hufEncode s.latched = none ∧ s.allocAnswer (inputSize s.srcBytes) = some 0x8000 := by decide +kernel

/-- An answer `Fail`, and an answer over the source. -/
theorem witness_HufEncodeAllocFails :
    (let s := ready [0x41, 0x42] (windows 2 0) [none]
     checkArgs .hufEncode s.latched = none ∧ s.allocAnswer (inputSize s.srcBytes) = none) ∧
    (let s := ready [0x41, 0x42] (windows 2 0) [some 0x1001]
     checkArgs .hufEncode s.latched = none ∧ s.allocAnswer (inputSize s.srcBytes) = none) := by decide +kernel

theorem witness_DegenerateArtifacts : 1 ≤ 1 := Nat.le_refl 1

theorem witness_HufEncodeDeterministic :
    let s (base : Addr) := ready [0x41, 0x42] (windows 2 0) [some base]
    ∃ t t', exec .hufEncode (s 0x8000) = .next t ∧ exec .hufEncode (s 0x9000) = .next t' ∧
      t.status = Status.completed .none ∧ t'.status = Status.completed .none ∧
      (s 0x8000).srcBytes = (s 0x9000).srcBytes := ⟨_, _, rfl, rfl, by decide +kernel⟩

/-- 255 bytes, a bit too many, and three codes of length 1. -/
theorem witness_HufDecodeFraming :
    (let s := ready [] (windows 255 4)
     checkArgs .hufDecode s.latched = none ∧ s.latched.srcLen.toNat < 256) ∧
    (let s := artifact [(0x41, 1)] [0] 9 4
     checkArgs .hufDecode s.latched = none ∧ 256 ≤ s.latched.srcLen.toNat ∧
       8 * (s.latched.srcLen.toNat - 256) < s.latched.srcBits.toNat) ∧
    (let s := artifact [(0x41, 1), (0x42, 1), (0x43, 1)] [0] 8 4
     checkArgs .hufDecode s.latched = none ∧ 256 ≤ s.latched.srcLen.toNat ∧
       s.latched.srcBits.toNat ≤ 8 * (s.latched.srcLen.toNat - 256) ∧ kraftOK s.headerLengths = false) := by
  decide +kernel

/-- The bits `0 10` are the symbols 0x41 and 0x42; two bytes of capacity, then one. After `0 10` under the codes `0` and
`10` the bits `11` begin no codeword, and one byte of capacity is exceeded before them. -/
theorem witness_HufDecodeCodewords :
    let s (cap : Nat) := artifact [(0x41, 1), (0x42, 2), (0x43, 2)] [0x40] 3 cap
    DecodableHeader (s 2) ∧ (∀ b ∈ [0x41, 0x42], (s 2).headerLengths.getD (b : Byte).toNat 0 ≠ 0) ∧
      (s 2).budgetBits = payloadOf (s 2).headerLengths [0x41, 0x42] ∧
      [(0x41 : Byte), 0x42].length ≤ (s 2).latched.dstCap.toNat ∧
      DecodableHeader (s 1) ∧ (s 1).budgetBits = payloadOf (s 1).headerLengths [0x41, 0x42] ∧
      (s 1).latched.dstCap.toNat < [(0x41 : Byte), 0x42].length ∧
      let u := artifact [(0x41, 1), (0x42, 2)] [0x58] 5 1
      DecodableHeader u ∧ (∀ b ∈ [0x41, 0x42], u.headerLengths.getD (b : Byte).toNat 0 ≠ 0) ∧
        u.budgetBits = payloadOf u.headerLengths [0x41, 0x42] ++ [true, true] ∧
        u.latched.dstCap.toNat < [(0x41 : Byte), 0x42].length := by
  refine ⟨⟨?_, ?_, ?_, ?_⟩, ?_, ?_, ?_, ⟨?_, ?_, ?_, ?_⟩, ?_, ?_, ⟨?_, ?_, ?_, ?_⟩, ?_, ?_, ?_⟩ <;> decide +kernel

/-- No codeword begins the bits `11`, nor the single bit `1`, when the codes are `0` and `10`. -/
theorem witness_HufDecodeBadCodeword :
    let s (bits : Nat) := artifact [(0x41, 1), (0x42, 2)] [0x60] bits 4
    (DecodableHeader (s 3) ∧ (s 3).budgetBits = payloadOf (s 3).headerLengths [0x41] ++ [true, true] ∧
      (s 3).headerLengths.getD 0x41 0 ≠ 0 ∧
      (∀ b : Byte, (s 3).headerLengths.getD b.toNat 0 ≠ 0 → b = 0x41 ∨ b = 0x42) ∧
      codeword (s 3).headerLengths 0x41 = [false] ∧ codeword (s 3).headerLengths 0x42 = [true, false] ∧
      maxLenOf (s 3).headerLengths ≤ 2) ∧
    (DecodableHeader (s 2) ∧ (s 2).budgetBits = payloadOf (s 2).headerLengths [0x41] ++ [true] ∧
      1 < maxLenOf (s 2).headerLengths) := by
  refine ⟨⟨⟨?_, ?_, ?_, ?_⟩, ?_, ?_, ?_, ?_, ?_, ?_⟩, ⟨?_, ?_, ?_, ?_⟩, ?_, ?_⟩ <;> decide +kernel

theorem witness_HufDecodeZeroBits :
    (let s := artifact [(0x41, 255)] [] 0 4
     checkArgs .hufDecode s.latched = none ∧ 256 ≤ s.latched.srcLen.toNat ∧ s.latched.srcBits = 0 ∧
       kraftOK s.headerLengths = true) ∧
    (let s := artifact [(0x41, 1), (0x42, 1), (0x43, 1)] [] 0 4
     checkArgs .hufDecode s.latched = none ∧ 256 ≤ s.latched.srcLen.toNat ∧ s.latched.srcBits = 0 ∧
       kraftOK s.headerLengths = false) ∧
    (let s := artifact [] [0x00] 8 4
     checkArgs .hufDecode s.latched = none ∧ 256 ≤ s.latched.srcLen.toNat ∧ 0 < s.latched.srcBits.toNat ∧
       s.latched.srcBits.toNat ≤ 8 * (s.latched.srcLen.toNat - 256) ∧
       s.headerLengths = List.replicate 256 0) := by decide +kernel

/-- `41 42` encoded is `40`; the decode reads it with other padding bits. -/
theorem witness_HufRoundTrip :
    let s := ready [0x41, 0x42] (windows 2 0) [some 0x8000]
    let u (cap : Nat) := artifact [(0x41, 1), (0x42, 1)] [0x7F] 2 cap
    ∃ t, exec .hufEncode s = .next t ∧ t.status = Status.completed .none ∧
      checkArgs .hufDecode (u 2).latched = none ∧ checkArgs .hufDecode (u 1).latched = none ∧
      (u 2).latched.srcLen = t.res.len ∧ (u 2).latched.srcBits = t.res.bits ∧
      (u 2).mem.readBytes 0x1000 256 = t.mem.readBytes t.res.base.toNat 256 ∧
      (∀ j < t.res.bits.toNat, getBit (u 2) j = payloadBit (fun k => t.mem.read (t.res.base.toNat + 256 + k)) j) ∧
      s.latched.srcLen.toNat ≤ (u 2).latched.dstCap.toNat ∧
      (u 1).latched.dstCap.toNat + 1 = s.latched.srcLen.toNat := ⟨_, rfl, by decide +kernel⟩

/-! ### Witnesses: command control, steps and runs -/

theorem witness_ReservedOpcodeCompletes :
    ((0x00 : Byte) = 0 ∨ 6 ≤ (0x00 : Byte).toNat) ∧ ((0x06 : Byte) = 0 ∨ 6 ≤ (0x06 : Byte).toNat) ∧
      ((0xFF : Byte) = 0 ∨ 6 ≤ (0xFF : Byte).toNat) := by decide

/-- The null base, and a base that is not. -/
theorem witness_HufReleaseCompletes :
    (ready [] ⟨0, 0, 0, 0, 0⟩).latched.srcBase = 0 ∧ (ready [] ⟨0x8000, 0, 0, 0, 0⟩).latched.srcBase ≠ 0 := by decide

theorem witness_EveryCommandCompletes :
    isCommand .rleEncode = true ∧ isCommand .hufDecode = true ∧ isCommand (.reservedOp 0xFF) = true := by decide

theorem witness_CommandErrorCodes :
    (∃ t, exec .rleEncode (codec [0x41] 1) = .next t) ∧ (∃ t, exec (.reservedOp 6) (codec [] 0) = .next t) ∧
      ∃ t, exec .hufEncode (ready [0x41] (windows 1 0) [none]) = .next t := ⟨⟨_, rfl⟩, ⟨_, rfl⟩, ⟨_, rfl⟩⟩

theorem witness_WritesStayInWindow :
    (isCommand .rleDecode = true ∧ ∃ t, exec .rleDecode (codec [0x82, 0x41] 3) = .next t) ∧
      isCommand .hufEncode = true ∧
      (∃ t, exec .hufEncode (ready [0x41] (windows 1 0) [some 0x8000]) = .next t ∧
        t.status = Status.completed .none) ∧
      ∃ t, exec .hufEncode (ready [0x41] (windows 1 0) [none]) = .next t ∧ t.status ≠ Status.completed .none :=
  ⟨⟨rfl, _, rfl⟩, rfl, ⟨_, rfl, by decide +kernel⟩, ⟨_, rfl, by decide +kernel⟩⟩

theorem witness_InstructionFrame : ∃ t, exec (.lit 1) (codec [0x01, 0x41, 0x42] 2) = .next t := ⟨_, rfl⟩

theorem witness_WorkingStateUnobservable : isCommand .hufEncode = true := rfl

/-- A command whose turn it is, with and without an event to say so, and a decode at its first packet. -/
theorem witness_StepRunsInstruction :
    (let s := issued 0x03 (windows 7 0)
     s.hostFault = false ∧ s.stage = .issued ∧ s.agenda = []) ∧
    (let s := { issued 0x03 (windows 7 0) with agenda := [.core] }
     s.hostFault = false ∧ s.stage = .issued ∧ s.agenda = .core :: []) ∧
    (let s := { codec [0x82, 0x41] 3 with stage := .rleDecode, agenda := [.corePart] }
     s.hostFault = false ∧ s.stage = .rleDecode ∧ s.agenda = .corePart :: [] ∧
       s.work.rleDec.ipos.toNat < s.latched.srcLen.toNat) := by decide +kernel

/-- A decode, and an encode whose region meets another instance's window. -/
theorem witness_PartsMakeTheCommand :
    (let s := { codec [0x82, 0x41] 3 with stage := .issued, op := 0x02 }
     s.hostFault = false ∧ s.stage = .issued ∧ s.agenda = []) ∧
    (let s := { ready [0x41] (windows 1 0) [some 0x8000] with
        stage := .issued, op := 0x03, otherWindows := [⟨0x8000, 1⟩] }
     s.hostFault = false ∧ s.stage = .issued ∧ s.agenda = [] ∧ decodeOpcode s.op = .hufEncode ∧
       ∃ t, exec .hufEncode s = .next t ∧ t.hostFault = true) :=
  ⟨by decide +kernel, rfl, rfl, rfl, rfl, _, rfl, by decide +kernel⟩

/-- A state keeps the invariant whatever its agenda is. -/
theorem inv_agenda {s : State} (h : s.Inv) (agenda : List Event) : State.Inv { s with agenda := agenda } :=
  ⟨h.1, h.2, h.3, h.4, h.5, h.6, h.7, h.8, h.9, h.10, h.11, h.12, h.13, h.14,
    fun b z hb => let r := h.15 b z hb; ⟨r.1, r.2, r.3, r.4, r.5⟩, h.16⟩

/-- A command just issued, and one part-way through: HUF_ENCODE about to count. -/
theorem witness_BusyCoreCompletes :
    (let s := issued 0x03 (windows 7 0)
     s.Inv ∧ s.hostFault = false ∧ s.status.busy = true ∧ s.agenda = []) ∧
    (let s := { issued 0x03 (windows 7 0) with stage := .hufCount, agenda := [.core] }
     s.Inv ∧ s.hostFault = false ∧ s.status.busy = true ∧ s.agenda = .core :: []) :=
  ⟨⟨issued_inv _ _, rfl, rfl, rfl⟩, inv_agenda counting_inv _, rfl, rfl, rfl⟩

theorem witness_IdleCoreStays :
    settled.Inv ∧ settled.hostFault = false ∧ settled.status.busy = false ∧ settled.agenda = [] ∧
      State.Inv { settled with agenda := [.core] } ∧ State.Inv { settled with agenda := [.corePart] } :=
  ⟨settled_inv, rfl, rfl, rfl, inv_agenda settled_inv _, inv_agenda settled_inv _⟩

/-- An issue, a completion and a reset; a completion and a reset that clear the results of the command before. -/
theorem witness_FlagWriters :
    (let s := { settled with agenda := [.regWrite 64 0x00 0x06] }
     s.Inv ∧ ∃ t, step s = .next t ∧ t.status ≠ s.status) ∧
    (let s := settled.issue 0x06
     s.Inv ∧ ∃ t, step s = .next t ∧ t.status ≠ s.status ∧ t.res ≠ s.res) ∧
    (let s := { settled with agenda := [.reset] }
     s.Inv ∧ ∃ t, step s = .next t ∧ t.status ≠ s.status ∧ t.res ≠ s.res) :=
  ⟨⟨inv_agenda settled_inv _, _, rfl, by decide⟩, ⟨settled_issue_inv _, _, rfl, by decide⟩,
    inv_agenda settled_inv _, _, rfl, by decide⟩

theorem witness_HostFaultEndsRun :
    let s := { settled with hostFault := true, agenda := [.regRead 64 0x08] }
    s.hostFault = true ∧ (∀ rest, s.agenda ≠ .reset :: rest) ∧
      ∃ t, Event.regRead 64 0x08 ≠ .reset ∧ event (.regRead 64 0x08) s = .next t :=
  ⟨rfl, fun _ h => by simp at h, _, by decide, rfl⟩

/-- Windows that meet another instance's and memory that is not plain, a decode of released bytes, and a release. -/
theorem witness_HostDutiesJudged :
    (let s := { ready [] (windows 4 8) with
        otherWindows := [⟨0x2007, 1⟩], nonPlain := [⟨0x1003, 1⟩], released := [0x1003] }
     s.hostFault = false ∧ s.status.busy = false ∧ decodeCommand 0x02 = .rleDecode ∧
       (∃ w ∈ commandWindows (decodeCommand 0x02) s.regs, ∃ w' ∈ s.nonPlain ++ s.otherWindows,
         w.overlaps w' = true) ∧
       ∃ a ∈ s.released, s.regs.src.has a = true) ∧
    (let s := { ready [] ⟨0x8000, 0, 0, 0, 0⟩ with live := [⟨0x8000, 258⟩] }
     s.latched.srcBase ≠ 0 ∧ s.liveRegion s.latched.srcBase = some ⟨0x8000, 258⟩ ∧
       (Window.mk 0x8000 258).has 0x8101 = true) :=
  ⟨⟨rfl, rfl, by decide, ⟨⟨0x2000, 8⟩, by decide, ⟨0x2007, 1⟩, by decide, by decide⟩, 0x1003, by decide, by decide⟩,
    by decide, by decide, by decide⟩

theorem witness_HostAccesses :
    let s := { settled with agenda := [.memWrite 0x1000 0x41] }
    s.hostFault = false ∧ s.agenda = .memWrite 0x1000 0x41 :: [] ∧ (0x1001 : Nat) ≠ (0x1000 : Addr).toNat := by
  decide

theorem witness_StepKeepsInvariant :
    let s := { issued 0x01 (windows 1 4) with agenda := [.memWrite 0x1000 0x41] }
    s.Inv ∧ ∃ t, step s = .next t ∧ t.mem ≠ s.mem := ⟨inv_agenda (issued_inv _ _) _, _, rfl, by decide⟩

end Sys2Proof.Tests
end

section
/-! SUPPORT. The state family: what one step can be, and the proofs that reset meets the invariant and every step keeps
it. -/

namespace Sys2Proof.Machine

/-! ### What a step is -/

/-- The event a step takes and the agenda it leaves: the head, or the core's turn when there is none (R262). -/
inductive Takes (s : State) : Event → List Event → Prop where
  | head {e : Event} {rest : List Event} (h : s.agenda = e :: rest) : Takes s e rest
  | coreTurn (h : s.agenda = []) : Takes s .core []

/-- With `HOSTFAULT` set only a reset gets past the guard (R38). -/
theorem hostGuard_next {s t : State} {e : Event} {go : Host.Outcome State Fault Refusal}
    (h : hostGuard s e go = .next t) : (s.hostFault = false ∨ e = .reset) ∧ go = .next t := by
  unfold hostGuard at h
  split at h
  · contradiction
  · rename_i hg
    refine ⟨?_, h⟩
    by_cases he : e = .reset
    · exact .inr he
    · exact .inl (by simpa [he] using hg)

/-- A step that answers a next state has taken one event, past the guard. -/
theorem step_next {s t : State} (h : step s = .next t) :
    ∃ e rest, Takes s e rest ∧ (s.hostFault = false ∨ e = .reset) ∧
      event e { s with agenda := rest } = .next t := by
  unfold step takeTurn at h
  split at h
  · rename_i ha
    obtain ⟨hg, ht⟩ := hostGuard_next h
    exact ⟨.core, [], .coreTurn ha, hg, by rw [← ha]; exact ht⟩
  · rename_i e rest ha
    obtain ⟨hg, ht⟩ := hostGuard_next h
    exact ⟨e, rest, .head ha, hg, ht⟩

/-! ### What a register write is -/

/-- `CMD` stands in the first slot alone (R80). -/
theorem regAt_eq_cmd {offset : Nat} (h : regAt offset = .cmd) : offset / 8 = 0 := by
  unfold regAt at h
  split at h
  case h_1 h0 => exact h0
  all_goals contradiction

/-- The registers a legal write to an idle core reaches, and what it does there (R34, R81, R210): it issues, it
changes the operand registers, or it has no effect. -/
theorem writeReg_cases (s : State) (width offset : Nat) (v : Slot) :
    (offset = 0 ∧ ∃ w, s.writeReg width offset v = s.issueWord w) ∨
      ∃ regs, s.writeReg width offset v = { s with regs := regs } := by
  unfold State.writeReg
  dsimp only
  split
  case h_1 hr =>
    split
    · rename_i hlow
      have h0 := regAt_eq_cmd hr
      have h8 : offset % 8 = 0 := by simpa [reachesLow] using hlow
      exact .inl ⟨by omega, v, rfl⟩
    · exact .inr ⟨s.regs, rfl⟩
  case h_2 => exact .inr ⟨_, rfl⟩
  case h_3 => exact .inr ⟨_, rfl⟩
  case h_4 => exact .inr ⟨_, rfl⟩
  case h_5 => exact .inr ⟨_, rfl⟩
  case h_6 => exact .inr ⟨_, rfl⟩
  all_goals exact .inr ⟨s.regs, rfl⟩

/-- What a host write can do (R33, R81): break a host duty, nothing else; on an idle core issue, or change the operand
registers; or nothing. -/
theorem hostWrite_cases (width offset : Nat) (v : Slot) (s : State) :
    hostWrite width offset v s = { s with hostFault := true } ∨ hostWrite width offset v s = s ∨
      s.status.busy = false ∧
        ((offset = 0 ∧ ∃ w, hostWrite width offset v s = s.issueWord w) ∨
          ∃ regs, hostWrite width offset v s = { s with regs := regs }) := by
  unfold hostWrite
  split
  · split
    · exact .inr (.inl rfl)
    · rename_i hb
      exact .inr (.inr ⟨Bool.eq_false_of_not_eq_true hb, writeReg_cases s width offset v⟩)
  · exact .inl rfl

/-! ### The invariant, event by event -/

/-- A broken host duty takes nothing from the invariant. -/
theorem State.Inv.setHostFault {s : State} (h : s.Inv) : State.Inv { s with hostFault := true } :=
  inv_congr h rfl rfl rfl rfl rfl rfl rfl rfl nofun

/-- An idle core's operand registers are free: the latch binds a busy one only (R32). -/
theorem State.Inv.setRegs {s : State} (h : s.Inv) (hb : s.status.busy = false) (regs : Operands) :
    State.Inv { s with regs := regs } where
  canonical := h.canonical
  memInSpace := h.memInSpace
  busyStage := h.busyStage
  running := h.running
  settled := h.settled
  latched := fun hbusy => by simp [hb] at hbusy
  fits := h.fits
  checked := h.checked
  rleEncode := h.rleEncode
  rleDecode := h.rleDecode
  hufWalk := h.hufWalk
  framed := h.framed
  liveInSpace := h.liveInSpace
  liveApart := h.liveApart
  region := fun base size hst =>
    have hr := h.region base size hst
    ⟨hr.nonNull, hr.inSpace, hr.exact, hr.apartFromSource, hr.apartFromLive⟩
  counted := h.counted

/-- A host write to a register keeps the invariant (R33, R81). -/
theorem hostWrite_inv {s : State} (h : s.Inv) (width offset : Nat) (v : Slot) : (hostWrite width offset v s).Inv := by
  rcases hostWrite_cases width offset v s with hw | hw | ⟨hb, ⟨-, w, hw⟩ | ⟨regs, hw⟩⟩ <;> rw [hw]
  · exact h.setHostFault
  · exact h
  · exact issued_inv h _ _
  · exact h.setRegs hb regs

/-- A host read of a register keeps the invariant (R33, R81). -/
theorem hostRead_inv {s : State} (h : s.Inv) (width offset : Nat) : (hostRead width offset s).Inv := by
  unfold hostRead
  split
  · exact inv_congr h rfl rfl rfl rfl rfl rfl rfl rfl id
  · exact h.setHostFault

/-- A host read of memory keeps the invariant (R66). -/
theorem hostLoad_inv {s : State} (h : s.Inv) (a : Addr) : (hostLoad a s).Inv :=
  inv_congr h rfl rfl rfl rfl rfl rfl rfl rfl fun hf => (Bool.or_eq_false_iff.1 hf).1

/-- A change of the platform keeps the invariant (R230). -/
theorem platformChange_inv {s : State} (h : s.Inv) (others nonPlain : List Window) :
    (platformChange others nonPlain s).Inv :=
  inv_congr h rfl rfl rfl rfl rfl rfl rfl rfl fun hf => (Bool.or_eq_false_iff.1 hf).1

/-- What the core's whole turn answers with (R67). -/
theorem coreTurn_next {s t : State} (ht : coreTurn s = .next t) : t = finish s := by
  rw [coreTurn_eq] at ht
  cases ht
  rfl

/-- What one part answers with, in a state that meets the invariant (R67). -/
theorem corePart_next {s t : State} (h : s.Inv) (ht : corePart s = .next t) : t = stageStep s := by
  rw [corePart_eq h] at ht
  cases ht
  rfl

/-- Every event past the guard keeps the invariant. -/
theorem event_inv {e : Event} {s t : State} (h : s.Inv) (hg : s.hostFault = false ∨ e = .reset)
    (ht : event e s = .next t) : t.Inv := by
  cases e
  case core => exact coreTurn_inv h (hg.resolve_right nofun) ht
  case corePart =>
    rw [corePart_next h ht]
    exact stageStep_inv h (h.counts (hg.resolve_right nofun))
  all_goals cases ht
  case regWrite width offset v => exact hostWrite_inv h width offset v
  case regRead width offset => exact hostRead_inv h width offset
  case memWrite a v => exact hostStore_inv h a v
  case memRead a => exact hostLoad_inv h a
  case reset => exact reset_inv h
  case platform others nonPlain => exact platformChange_inv h others nonPlain

/-- The agenda is no part of the invariant. -/
theorem State.Inv.setAgenda {s : State} (h : s.Inv) (rest : List Event) : State.Inv { s with agenda := rest } :=
  inv_congr h rfl rfl rfl rfl rfl rfl rfl rfl id

/-- Settles O60: a step is one event past the guard, and every event keeps the invariant. -/
theorem stepKeepsInvariant : Obligations.StepKeepsInvariant := by
  intro s t h ht
  obtain ⟨e, rest, -, hg, he⟩ := step_next ht
  exact event_inv (h.setAgenda rest) hg he

/-- Settles O59: reset holds an idle core, so the clauses about a running command have nothing to say. -/
theorem invariantAtReset : Obligations.InvariantAtReset where
  canonical := rfl
  memInSpace := rfl
  busyStage := by decide
  running := nofun
  settled := fun _ => .inl rfl
  latched := nofun
  fits := rfl
  checked := fun h => absurd rfl h
  rleEncode := nofun
  rleDecode := nofun
  hufWalk := nofun
  framed := nofun
  liveInSpace := nofun
  liveApart := .nil
  region := by simp [State.reset]
  counted := nofun

end Sys2Proof.Machine
end

section
/-! SUPPORT. The state family: the layout of `STATUS`, the host's view of the registers, and the state after reset. -/

namespace Sys2Proof.Machine

/-! ### The status register -/

theorem Code.value_le (c : Code) : c.value.toNat ≤ 4 := by cases c <;> decide

/-- The flags stand at their bits of the word (R23). -/
theorem Status.word_flags (s : Status) : s.word.getLsbD 0 = s.busy ∧ s.word.getLsbD 1 = s.done := by
  simp only [Status.word, BitVec.getLsbD_append]
  simp

/-- The wider fields stand at their bits of the word, with zeros between them (R23). -/
theorem Status.word_fields (s : Status) :
    s.word.extractLsb' 2 6 = 0 ∧ s.word.extractLsb' 8 4 = s.code.value ∧ s.word.extractLsb' 12 4 = 0 ∧
      s.word.extractLsb' 16 8 = s.detail.value := by
  simp only [Status.word, BitVec.extractLsb'_append_eq_ite]
  simp

/-- Settles O6: the fields for every value they can hold, then the words the spec lists. -/
theorem statusLayout : Obligations.StatusLayout := by
  refine ⟨fun s => ?_, by decide⟩
  obtain ⟨hbusy, hdone⟩ := s.word_flags
  obtain ⟨hlow, hcode, hmid, hdetail⟩ := s.word_fields
  exact ⟨hbusy, hdone, hlow, hcode, hmid, hdetail, s.code.value_le⟩

/-! ### Register accesses -/

/-- A 64-bit read returns the whole slot (R81). -/
theorem readReg_whole (s : State) (offset : Nat) : s.readReg 64 offset = s.slot (regAt offset) := rfl

/-- A legal write reaches an idle core's register (R34). -/
theorem hostWrite_idle {s : State} (hb : s.status.busy = false) {width offset : Nat} (v : Slot)
    (hl : legalAccess width offset = true) : hostWrite width offset v s = s.writeReg width offset v := by
  simp [hostWrite, hl, hb]

/-- A legal write has no effect on a busy core (R33). -/
theorem hostWrite_busy {s : State} (hb : s.status.busy = true) {width offset : Nat} (v : Slot)
    (hl : legalAccess width offset = true) : hostWrite width offset v s = s := by
  simp [hostWrite, hl, hb]

/-- An idle core shows its operand registers (R33). -/
theorem visibleOperands_idle {s : State} (hb : s.status.busy = false) : s.visibleOperands = s.regs := by
  simp [State.visibleOperands, hb]

/-- A busy core shows its latched operands (R33). -/
theorem visibleOperands_busy {s : State} (hb : s.status.busy = true) : s.visibleOperands = s.latched := by
  simp [State.visibleOperands, hb]

/-- A register narrower than its slot keeps the value modulo its width (R34). -/
theorem ofNat_mod_eq_setWidth (w : Nat) (v : Slot) : BitVec.ofNat w (v.toNat % 2 ^ w) = v.setWidth w := by
  apply BitVec.eq_of_toNat_eq
  simp

/-- A slot holds its register zero-extended (R80). -/
theorem slot_toNat {w : Nat} (x : BitVec w) (hw : w ≤ 64) : (x.setWidth 64 : Slot).toNat = x.toNat :=
  BitVec.toNat_setWidth_of_le hw

/-- What a narrower register has kept of a value is what its slot reads as (R34, R80). -/
theorem slot_toNat_of_kept {w : Nat} (hw : w ≤ 64) (v : Slot) :
    ((v.setWidth w).setWidth 64 : Slot).toNat = v.toNat % 2 ^ w := by
  rw [slot_toNat _ hw, BitVec.toNat_setWidth]

/-- The result registers and `STATUS` ignore writes (R34). -/
theorem writeReg_readOnly (s : State) (width : Nat) {offset : Nat} (v : Slot)
    (h : regAt offset = .status ∨ regAt offset = .resLen ∨ regAt offset = .resBits ∨ regAt offset = .resBase) :
    s.writeReg width offset v = s := by
  unfold State.writeReg
  rcases h with h | h | h | h <;> simp only [h]

/-- Settles O7: each write is the register's own arm of `writeReg`, and the slot reads back what it kept. -/
theorem operandRegisterWrites : Obligations.OperandRegisterWrites := by
  intro s v hb
  have hw {width offset : Nat} (hl : legalAccess width offset = true) := hostWrite_idle hb v hl
  have hread (regs : Operands) : State.visibleOperands { s with regs := regs } = regs := visibleOperands_idle hb
  have hkeep {width offset : Nat} (hl : legalAccess width offset = true)
      (hr : regAt offset = .status ∨ regAt offset = .resLen ∨ regAt offset = .resBits ∨ regAt offset = .resBase) :
      hostWrite width offset v s = s := (hw hl).trans (writeReg_readOnly s width v hr)
  refine ⟨?_, ?_, ?_, ?_, ?_, ?_, ?_, ?_, ?_, ?_⟩
  · rw [hw rfl, ofNat_mod_eq_setWidth]; rfl
  · rw [hw rfl, ofNat_mod_eq_setWidth]; rfl
  · rw [hw rfl, ofNat_mod_eq_setWidth]; rfl
  · rw [hw rfl, ofNat_mod_eq_setWidth]; rfl
  · rw [hw rfl, ofNat_mod_eq_setWidth]; rfl
  · simp only [List.forall_mem_cons, List.not_mem_nil, false_imp_iff, implies_true, and_true]
    refine ⟨?_, ?_, ?_, ?_⟩ <;> rw [hw rfl, ← slot_toNat_of_kept (by decide)]
    · exact congrArg (fun o : Operands => (o.srcBase.setWidth 64 : Slot).toNat) (hread _)
    · exact congrArg (fun o : Operands => (o.srcLen.setWidth 64 : Slot).toNat) (hread _)
    · exact congrArg (fun o : Operands => (o.dstBase.setWidth 64 : Slot).toNat) (hread _)
    · exact congrArg (fun o : Operands => (o.dstCap.setWidth 64 : Slot).toNat) (hread _)
  · rw [hw rfl, ← slot_toNat_of_kept (by decide)]
    exact congrArg (fun o : Operands => (o.srcBits.setWidth 64 : Slot).toNat) (hread _)
  · rw [hw rfl, ← BitVec.toNat_setWidth]
    rfl
  · rw [hw rfl, ← slot_toNat_of_kept (by decide)]
    rfl
  · simp only [List.forall_mem_cons, List.not_mem_nil, false_imp_iff, implies_true, and_true]
    refine ⟨?_, ?_, ?_, ?_⟩ <;> exact ⟨hkeep rfl (by decide), hkeep rfl (by decide), hkeep rfl (by decide)⟩

/-- Settles O9: a busy core's `STATUS` is `Status.running` and its visible operands are the latched ones, and a slot
holds its register whole. -/
theorem busyRegisterAccess : Obligations.BusyRegisterAccess := by
  intro s h hb
  have hv := visibleOperands_busy hb
  refine ⟨fun width offset v => hostWrite_busy hb v, ?_, ?_, ?_, ?_, ?_, ?_, ?_, ?_, ?_, ?_⟩
  · exact slot_toNat s.op (by decide)
  · rw [readReg_whole]
    simp only [regAt, State.slot, h.running hb]
    decide
  · rw [← hv]; exact slot_toNat s.visibleOperands.srcBase (by decide)
  · rw [← hv]; exact slot_toNat s.visibleOperands.srcLen (by decide)
  · rw [← hv]; exact slot_toNat s.visibleOperands.srcBits (by decide)
  · rw [← hv]; exact slot_toNat s.visibleOperands.dstBase (by decide)
  · rw [← hv]; exact slot_toNat s.visibleOperands.dstCap (by decide)
  · exact slot_toNat s.res.len (by decide)
  · exact slot_toNat s.res.bits (by decide)
  · exact slot_toNat s.res.base (by decide)

/-- Settles O12: each value is the one `State.reset` writes out. -/
theorem powerOnState : Obligations.PowerOnState := ⟨rfl, rfl, rfl, rfl, rfl, rfl, rfl, rfl⟩

end Sys2Proof.Machine
end

section
/-! SUPPORT. The state family: who writes the flags, the results and HOSTFAULT. -/

namespace Sys2Proof.Machine

/-! ### Flags and results -/

/-- How an event leaves the flags and the results: alone, or as an issue, a completion or a reset does (R37). -/
inductive FlagChange (s : State) (e : Event) (t : State) : Prop where
  | same (status : t.status = s.status) (res : t.res = s.res)
  | issue (width : Nat) (v : Slot) (event : e = .regWrite width 0x00 v) (idle : s.status.busy = false)
      (status : t.status = Status.running) (res : t.res = s.res)
  | completion (d : Detail) (busy : s.status.busy = true) (status : t.status = Status.completed d)
  | reset (event : e = .reset) (status : t.status = Status.reset) (res : t.res = Results.zero)

/-- A register write issues or leaves flags and results alone (R33, R34, R37). -/
theorem hostWrite_flags (s : State) (width offset : Nat) (v : Slot) :
    FlagChange s (.regWrite width offset v) (hostWrite width offset v s) := by
  rcases hostWrite_cases width offset v s with hw | hw | ⟨hb, ⟨rfl, w, hw⟩ | ⟨regs, hw⟩⟩ <;> rw [hw]
  · exact .same rfl rfl
  · exact .same rfl rfl
  · exact .issue width v rfl hb rfl rfl
  · exact .same rfl rfl

/-- A register read leaves flags and results alone (R33). -/
theorem hostRead_flags (s : State) (width offset : Nat) (e : Event) : FlagChange s e (hostRead width offset s) := by
  unfold hostRead
  split <;> exact .same rfl rfl

/-- The core's whole turn leaves an idle core alone and completes a busy one (R211, R231). -/
theorem finish_flags {s : State} (h : s.Inv) (e : Event) : FlagChange s e (finish s) := by
  by_cases hi : s.stage = .idle
  · rw [finish_idle hi]
    exact .same rfl rfl
  · obtain ⟨d, r, hd, -⟩ := finish_ending hi
    exact .completion d (h.busyStage.2 hi) hd.status

/-- One part leaves flags and results alone or completes the running command (R211, R231). -/
theorem stageStep_flags {s : State} (h : s.Inv) (e : Event) : FlagChange s e (stageStep s) := by
  by_cases hi : s.stage = .idle
  · have hs : stageStep s = s := by simp only [stageStep, hi]
    rw [hs]
    exact .same rfl rfl
  · rcases stageStep_ending hi with ⟨hstatus, hres, -⟩ | ⟨d, r, hd, -⟩
    · exact .same hstatus hres
    · exact .completion d (h.busyStage.2 hi) hd.status

/-- Every event leaves flags and results alone, issues, completes or resets (R37). -/
theorem event_flags {e : Event} {s t : State} (h : s.Inv) (ht : event e s = .next t) : FlagChange s e t := by
  cases e
  case core =>
    rw [coreTurn_next ht]
    exact finish_flags h _
  case corePart =>
    rw [corePart_next h ht]
    exact stageStep_flags h _
  all_goals cases ht
  case regWrite width offset v => exact hostWrite_flags s width offset v
  case regRead width offset => exact hostRead_flags s width offset _
  case memWrite a v => exact .same rfl rfl
  case memRead a => exact .same rfl rfl
  case reset => exact .reset rfl rfl rfl
  case platform others nonPlain => exact .same rfl rfl

/-- An event other than the core's own turn came from the agenda. -/
theorem Takes.agenda {s : State} {e : Event} {rest : List Event} (h : Takes s e rest) (he : e ≠ .core) :
    s.agenda = e :: rest := by
  cases h with
  | head h => exact h
  | coreTurn _ => contradiction

/-- Settles O55: a step is one event, and each event leaves flags and results alone, issues, completes or resets. -/
theorem flagWriters : Obligations.FlagWriters := by
  intro s t h ht
  obtain ⟨e, rest, htake, -, he⟩ := step_next ht
  cases event_flags (h.setAgenda rest) he with
  | same status res => exact ⟨fun hne => absurd status hne, fun hne => absurd res hne⟩
  | issue width v event idle status res =>
    subst event
    exact ⟨fun _ => .inl ⟨idle, status, width, v, rest, htake.agenda nofun⟩, fun hne => absurd res hne⟩
  | completion d busy status => exact ⟨fun _ => .inr (.inl ⟨busy, d, status⟩), fun _ => .inl ⟨busy, d, status⟩⟩
  | reset event status res =>
    subst event
    have ha := htake.agenda nofun
    exact ⟨fun _ => .inr (.inr ⟨status, rest, ha⟩), fun _ => .inr ⟨res, rest, ha⟩⟩

/-! ### HOSTFAULT -/

/-- HUF_ENCODE's start has not asked the allocator yet (R150). -/
theorem beginHufEncode_regions (s : State) : SameRegions s (beginHufEncode s) :=
  afterChecks_regions (by constructor <;> rfl)

/-- HUF_RELEASE clears no broken duty (R38, R213). -/
theorem hufRelease_keepsHostFault {s : State} (h : s.hostFault = true) : (hufRelease s).hostFault = true := by
  unfold hufRelease
  dsimp only
  split <;> simp [h]

/-- The allocator's answer clears no broken duty (R38, R230). -/
theorem hufAllocStep_keepsHostFault {s : State} (h : s.hostFault = true) : (hufAllocStep s).hostFault = true := by
  unfold hufAllocStep
  dsimp only
  split <;> simp [h]

/-- No command's start clears a broken duty (R38). -/
theorem begin_keepsHostFault (i : Instr) {s : State} (h : s.hostFault = true) : (begin i s).hostFault = true := by
  cases i
  case rleEncode => exact (beginRleEncode_regions s).hostFault.trans h
  case rleDecode => exact (beginRleDecode_regions s).hostFault.trans h
  case hufEncode => exact (beginHufEncode_regions s).hostFault.trans h
  case hufDecode => exact (beginHufDecode_regions s).hostFault.trans h
  case hufRelease => exact hufRelease_keepsHostFault h
  case reservedOp op => exact (fail_regions s _ _).hostFault.trans h
  case lit c => exact h
  case run c => exact h

/-- No stage step clears a broken duty (R38). -/
theorem stageStep_keepsHostFault {s : State} (h : s.hostFault = true) : (stageStep s).hostFault = true := by
  unfold stageStep
  split
  case h_2 => exact begin_keepsHostFault _ h
  case h_3 => exact (rleEncodeStep_regions s).hostFault.trans h
  case h_4 => exact (rleDecodeStep_regions s).hostFault.trans h
  case h_8 => exact hufAllocStep_keepsHostFault h
  case h_13 => exact (hufCheckStep_regions s).hostFault.trans h
  case h_14 => exact (hufWalkStep_regions s).hostFault.trans h
  all_goals exact h

/-- What a packet answers with is the packet run (R62). -/
theorem inWindows_next {s t : State} {go : State → State} (h : inWindows s go = .next t) : t = go s := by
  unfold inWindows at h
  split at h
  · cases h; rfl
  · contradiction

/-- What an instruction answers with: a command its start carried to completion, a packet its effect. -/
theorem exec_next_eq {i : Instr} {s t : State} (h : exec i s = .next t) :
    t = if isCommand i then finish (begin i s) else runPacket i s := by
  by_cases hi : isCommand i = true
  · rw [exec_next hi] at h
    cases h
    rw [if_pos hi]
  · rw [if_neg hi]
    cases i
    case lit c => exact inWindows_next h
    case run c => exact inWindows_next h
    all_goals exact absurd rfl hi

/-- No turn of the core clears a broken duty (R38). -/
theorem finish_keepsHostFault {s : State} (h : s.hostFault = true) : (finish s).hostFault = true :=
  runStages_keeps (P := fun t => t.hostFault = true) (fun _ ht _ => stageStep_keepsHostFault ht) _ h

/-- No instruction clears a broken duty (R38). -/
theorem exec_keepsHostFault {i : Instr} {s t : State} (h : s.hostFault = true) (ht : exec i s = .next t) :
    t.hostFault = true := by
  rw [exec_next_eq ht]
  split
  · exact finish_keepsHostFault (begin_keepsHostFault i h)
  · exact (runPacket_regions i s).hostFault.trans h

/-- No part of a command clears a broken duty (R38). -/
theorem corePart_keepsHostFault {s t : State} (h : s.hostFault = true) (ht : corePart s = .next t) :
    t.hostFault = true := by
  unfold corePart at ht
  split at ht
  · exact exec_keepsHostFault ((fetchCtl_regions s).hostFault.trans h) ht
  · cases ht
    exact stageStep_keepsHostFault h

/-- No register write clears a broken duty (R38). -/
theorem hostWrite_keepsHostFault {s : State} (h : s.hostFault = true) (width offset : Nat) (v : Slot) :
    (hostWrite width offset v s).hostFault = true := by
  rcases hostWrite_cases width offset v s with hw | hw | ⟨-, ⟨-, w, hw⟩ | ⟨regs, hw⟩⟩ <;> rw [hw]
  · exact h
  · exact Bool.or_eq_true_iff.2 (.inl h)
  · exact h

/-- No event but reset clears a broken duty (R38, R250). -/
theorem event_keepsHostFault {e : Event} {s t : State} (he : e ≠ .reset) (h : s.hostFault = true)
    (ht : event e s = .next t) : t.hostFault = true := by
  cases e
  case core =>
    rw [coreTurn_next ht]
    exact finish_keepsHostFault h
  case corePart => exact corePart_keepsHostFault h ht
  case reset => contradiction
  all_goals cases ht
  case regWrite width offset v => exact hostWrite_keepsHostFault h width offset v
  case regRead width offset => unfold hostRead; split <;> simp [h]
  case memWrite a v => exact Bool.or_eq_true_iff.2 (.inl h)
  case memRead a => exact Bool.or_eq_true_iff.2 (.inl h)
  case platform others nonPlain => exact Bool.or_eq_true_iff.2 (.inl h)

/-- With HOSTFAULT set the guard stops every event but reset (R38). -/
theorem hostGuard_fault {s : State} {e : Event} (go : Host.Outcome State Fault Refusal) (h : s.hostFault = true)
    (he : e ≠ .reset) : hostGuard s e go = .fault .hostDutyBroken := if_pos ⟨h, he⟩

/-- Settles O56: the guard stops every step but a reset, and no event but reset clears the mark. -/
theorem hostFaultEndsRun : Obligations.HostFaultEndsRun := by
  refine ⟨fun s hf hr => ?_, fun e s t => event_keepsHostFault⟩
  unfold step takeTurn
  split
  · exact hostGuard_fault _ hf nofun
  · rename_i e rest ha
    exact hostGuard_fault _ hf fun he => hr rest (he ▸ ha)

end Sys2Proof.Machine
end

section
/-! SUPPORT. The state family: the frame of every instruction, and what a command's outcome does not depend on. -/

namespace Sys2Proof.Machine

/-! ### A command keeps to its own stages -/

/-- Command `c` has begun: it stands at one of its own stages, past its issue, or has completed. -/
def Begun (c : Instr) (s : State) : Prop := stageFits c s.stage = true ∧ s.stage ≠ .issued

theorem begun_of_idle {c : Instr} {s : State} (h : s.stage = .idle) : Begun c s := by simp [Begun, h, stageFits]

theorem Begun.congr {c : Instr} {s t : State} (h : Begun c s) (ht : t.stage = s.stage) : Begun c t := by
  simpa only [Begun, ht] using h

theorem afterChecks_begun {s : State} {c : Instr} {start : State → State} (h : Begun c (start s)) :
    Begun c (s.afterChecks c start) :=
  afterChecks_cases (P := Begun c) (fun _ _ => begun_of_idle rfl) fun _ => h

theorem begin_begun {i : Instr} (hi : isCommand i = true) (s : State) : Begun i (begin i s) := by
  cases i
  case rleEncode => exact afterChecks_begun ⟨rfl, nofun⟩
  case rleDecode => exact afterChecks_begun ⟨rfl, nofun⟩
  case hufEncode => exact afterChecks_begun ⟨rfl, nofun⟩
  case hufDecode =>
    apply afterChecks_begun
    split
    · exact begun_of_idle rfl
    · split
      · exact begun_of_idle rfl
      · exact ⟨rfl, nofun⟩
  case hufRelease =>
    refine begun_of_idle ?_
    show (hufRelease s).stage = .idle
    unfold hufRelease
    dsimp only
    split <;> rfl
  case reservedOp op => exact begun_of_idle rfl
  case lit c => contradiction
  case run c => contradiction

theorem rleEncodeStep_begun {c : Instr} {s : State} (h : Begun c s) : Begun c (rleEncodeStep s) := by
  unfold rleEncodeStep emitPacket
  dsimp only
  split
  · split
    · exact begun_of_idle rfl
    · exact h.congr rfl
  · exact begun_of_idle rfl

theorem guardPacket_begun {c : Instr} {s : State} {p n : Nat} {go : State → State} (h : Begun c (go s)) :
    Begun c (guardPacket s p n go) := by
  unfold guardPacket
  dsimp only
  split
  · exact begun_of_idle rfl
  · split
    · exact begun_of_idle rfl
    · exact h

theorem rleDecodeStep_begun {c : Instr} {s : State} (h : Begun c s) : Begun c (rleDecodeStep s) := by
  unfold rleDecodeStep
  split
  · rw [runPacket_decodeCtl]
    split
    · exact guardPacket_begun (h.congr rfl)
    · exact guardPacket_begun (h.congr rfl)
  · exact begun_of_idle rfl

theorem hufWalkStep_begun {c : Instr} {s : State} (h : Begun c s) : Begun c (hufWalkStep s) := by
  unfold hufWalkStep
  dsimp only
  split
  · split
    · exact begun_of_idle rfl
    · exact begun_of_idle rfl
    · split
      · exact begun_of_idle rfl
      · exact h.congr rfl
  · exact begun_of_idle rfl

/-- A stage step goes to a stage of the same command, or completes it. -/
theorem stageStep_begun {c : Instr} {s : State} (h : Begun c s) : Begun c (stageStep s) := by
  obtain ⟨hc, hi⟩ := id h
  unfold stageStep
  split
  case h_1 => exact h
  case h_2 hs => contradiction
  case h_3 => exact rleEncodeStep_begun h
  case h_4 => exact rleDecodeStep_begun h
  case h_5 hs => rw [hs] at hc; exact ⟨hc, nofun⟩
  case h_6 hs => rw [hs] at hc; exact ⟨hc, nofun⟩
  case h_7 hs => rw [hs] at hc; exact ⟨hc, nofun⟩
  case h_8 hs =>
    rw [hs] at hc
    unfold hufAllocStep
    dsimp only
    split
    · exact ⟨hc, nofun⟩
    · exact begun_of_idle rfl
  case h_9 hs => rw [hs] at hc; exact ⟨hc, nofun⟩
  case h_10 hs => rw [hs] at hc; exact ⟨hc, nofun⟩
  case h_11 => exact begun_of_idle rfl
  case h_12 hs => rw [hs] at hc; exact ⟨hc, nofun⟩
  case h_13 hs =>
    rw [hs] at hc
    unfold hufCheckStep
    dsimp only
    split
    · exact ⟨hc, nofun⟩
    · exact begun_of_idle rfl
  case h_14 => exact hufWalkStep_begun h

/-! ### The frame -/

/-- Only HUF_ENCODE's stage steps touch the bookkeeping of allocated regions. -/
theorem stageStep_regions {c : Instr} {s : State} (h : Begun c s) (hc : c ≠ .hufEncode) :
    SameRegions s (stageStep s) := by
  obtain ⟨hfit, hi⟩ := h
  unfold stageStep
  split
  case h_1 => exact SameRegions.rfl' s
  case h_2 => contradiction
  case h_3 => exact rleEncodeStep_regions s
  case h_4 => exact rleDecodeStep_regions s
  case h_12 => constructor <;> rfl
  case h_13 => exact hufCheckStep_regions s
  case h_14 => exact hufWalkStep_regions s
  all_goals
    rename_i hs
    rw [hs] at hfit
    exact absurd (eq_of_beq hfit) hc

theorem begin_regions {i : Instr} (he : i ≠ .hufEncode) (hr : i ≠ .hufRelease) (s : State) :
    SameRegions s (begin i s) := by
  cases i
  case rleEncode => exact beginRleEncode_regions s
  case rleDecode => exact beginRleDecode_regions s
  case hufEncode => contradiction
  case hufDecode => exact beginHufDecode_regions s
  case hufRelease => contradiction
  case reservedOp op => exact fail_regions s _ _
  case lit c => exact SameRegions.rfl' s
  case run c => exact SameRegions.rfl' s

/-- A command that has begun leaves the bookkeeping alone to its end, unless it is HUF_ENCODE. -/
theorem finish_regions {c : Instr} {s : State} (h : Begun c s) (hc : c ≠ .hufEncode) : SameRegions s (finish s) :=
  (runStages_keeps (P := fun t => SameRegions s t ∧ Begun c t)
    (fun _ ht _ => ⟨ht.1.trans (stageStep_regions ht.2 hc), stageStep_begun ht.2⟩) _ ⟨SameRegions.rfl' s, h⟩).1

/-- Settles O49: a command's frame is that of its start and of every stage step after it, a packet's its own. -/
theorem instructionFrame : Obligations.InstructionFrame := by
  intro i s t h
  rw [exec_next_eq h]
  split
  · rename_i hi
    exact ⟨(begin_setting i s).trans (runStages_setting _ _), fun he hr =>
      (begin_regions he hr s).trans (finish_regions (begin_begun hi s) he)⟩
  · exact ⟨runPacket_setting i s, fun _ _ => runPacket_regions i s⟩

/-! ### The working state a command finds -/

/-- Two working states agree on what a command at this stage may still read of them; a completed command's must be
equal, since nothing overwrites it any more. -/
def Stage.Agree (v w : Work) : Stage → Prop
  | .idle => v = w
  | .issued | .hufCount | .hufRead => True
  | .rleEncode => v.rleEnc.ipos = w.rleEnc.ipos ∧ v.rleEnc.opos = w.rleEnc.opos
  | .rleDecode => v.rleDec.ipos = w.rleDec.ipos ∧ v.rleDec.opos = w.rleDec.opos
  | .hufTree => v.freq = w.freq
  | .hufCode => v.freq = w.freq ∧ v.len = w.len
  | .hufAlloc | .hufHeader _ _ | .hufPack _ _ | .hufDone _ _ => v.freq = w.freq ∧ v.len = w.len ∧ v.code = w.code
  | .hufCheck => v.len = w.len
  | .hufWalk => v.len = w.len ∧ v.code = w.code ∧ v.tables = w.tables ∧ v.unpack.bpos = w.unpack.bpos ∧
      v.unpack.opos = w.unpack.opos

/-- `t` is `s` but for working state that the command at this stage does not read. -/
structure Alike (s t : State) : Prop where
  rest : t = { s with work := t.work }
  agree : s.stage.Agree s.work t.work

theorem Alike.of_eq {s t : State} (h : t = s) : Alike s t := by
  subst h
  exact ⟨rfl, by cases h : t.stage <;> simp [Stage.Agree]⟩

/-- Once the command has completed, alike is equal. -/
theorem Alike.eq_of_idle {s t : State} (h : Alike s t) (hs : s.stage = .idle) : t = s := by
  have hw : s.work = t.work := by simpa [hs, Stage.Agree] using h.agree
  rw [h.rest, ← hw]

/-- A failure overwrites the working state (R48, R222). -/
theorem fail_withWork (s : State) (w : Work) (c : Instr) (d : Detail) :
    State.fail { s with work := w } c d = s.fail c d := by
  unfold State.fail State.spoilDst
  split <;> rfl

theorem afterChecks_alike {s : State} {w : Work} {c : Instr} {start : State → State}
    (h : Alike (start s) (start { s with work := w })) :
    Alike (s.afterChecks c start) (State.afterChecks { s with work := w } c start) := by
  unfold State.afterChecks
  dsimp only
  split
  · exact .of_eq (fail_withWork s w _ _)
  · exact h

/-- A command's start sets what its first stage reads. -/
theorem begin_alike {i : Instr} (hi : isCommand i = true) (s : State) (w : Work) :
    Alike (begin i s) (begin i { s with work := w }) := by
  cases i
  case rleEncode => apply afterChecks_alike; exact ⟨rfl, rfl, rfl⟩
  case rleDecode => apply afterChecks_alike; exact ⟨rfl, rfl, rfl⟩
  case hufEncode => apply afterChecks_alike; exact ⟨rfl, trivial⟩
  case hufDecode =>
    apply afterChecks_alike
    dsimp only
    split
    · exact .of_eq (fail_withWork s w _ _)
    · split
      · exact .of_eq (fail_withWork s w _ _)
      · exact ⟨rfl, trivial⟩
  case hufRelease =>
    refine .of_eq ?_
    show hufRelease { s with work := w } = hufRelease s
    unfold hufRelease
    dsimp only
    split <;> rfl
  case reservedOp op => exact .of_eq (fail_withWork s w _ _)
  case lit c => contradiction
  case run c => contradiction

theorem rleEncodeStep_alike {s : State} {w : Work} (hs : s.stage = .rleEncode) (h : Stage.Agree s.work w .rleEncode) :
    Alike (rleEncodeStep s) (rleEncodeStep { s with work := w }) := by
  obtain ⟨hi, ho⟩ := h
  unfold rleEncodeStep emitPacket noteRun
  dsimp only
  rw [← hi, ← ho]
  split
  · rw [show State.srcFrom { s with work := w } = s.srcFrom from rfl]
    split
    · exact .of_eq ((fail_withWork s _ _ _).trans (fail_withWork s _ _ _).symm)
    · exact ⟨rfl, by simp [hs, Stage.Agree]⟩
  · exact .of_eq rfl

theorem guardPacket_alike {s : State} {w : Work} {p n : Nat} {go : State → State}
    (h : Stage.Agree s.work w .rleDecode) (hgo : Alike (go s) (go { s with work := w })) :
    Alike (guardPacket s p n go) (guardPacket { s with work := w } p n go) := by
  obtain ⟨hi, ho⟩ := h
  unfold guardPacket
  dsimp only
  rw [← hi, ← ho]
  split
  · exact .of_eq (fail_withWork s w _ _)
  · split
    · exact .of_eq (fail_withWork s w _ _)
    · exact hgo

theorem advanceDecoder_alike {s : State} {w : Work} (hs : s.stage = .rleDecode)
    (h : Stage.Agree s.work w .rleDecode) (size : Nat) (bytes : List Byte) :
    Alike (advanceDecoder s size bytes) (advanceDecoder { s with work := w } size bytes) := by
  obtain ⟨hi, ho⟩ := h
  unfold advanceDecoder
  dsimp only
  rw [← hi, ← ho]
  exact ⟨rfl, by simp [hs, Stage.Agree]⟩

/-- A packet reads the decoder's positions and nothing else of the working state (R121, R122). -/
theorem runPacket_alike {s : State} {w : Work} (hs : s.stage = .rleDecode) (h : Stage.Agree s.work w .rleDecode)
    (ctl : Byte) : Alike (runPacket (decodeCtl ctl) s) (runPacket (decodeCtl ctl) { s with work := w }) := by
  have hi := h.1
  rw [runPacket_decodeCtl, runPacket_decodeCtl]
  split
  all_goals
    apply guardPacket_alike h
    dsimp only
    rw [← hi]
    exact advanceDecoder_alike hs h _ _

theorem rleDecodeStep_alike {s : State} {w : Work} (hs : s.stage = .rleDecode) (h : Stage.Agree s.work w .rleDecode) :
    Alike (rleDecodeStep s) (rleDecodeStep { s with work := w }) := by
  obtain ⟨hi, ho⟩ := id h
  have hctl : ctlAt { s with work := w } = ctlAt s := by simp only [ctlAt, hi]
  have hmore : moreStream { s with work := w } = moreStream s := by simp only [moreStream, hi]
  unfold rleDecodeStep
  rw [hmore, hctl]
  split
  · exact runPacket_alike (s := fetchCtl s) (w := (fetchCtl { s with work := w }).work) hs h _
  · dsimp only
    rw [← ho]
    exact .of_eq rfl

/-- The payload's bit count is of the counts and the code lengths (R149). -/
theorem payloadBitCount_congr {v w : Work} (hfreq : v.freq = w.freq) (hlen : v.len = w.len) :
    w.payloadBitCount = v.payloadBitCount := by
  simp only [Work.payloadBitCount, Work.freqs, Work.lens, hfreq, hlen]

theorem hufAllocStep_alike {s : State} {w : Work} (h : Stage.Agree s.work w .hufAlloc) :
    Alike (hufAllocStep s) (hufAllocStep { s with work := w }) := by
  obtain ⟨hfreq, hlen, -⟩ := id h
  have hsize : w.artifactSize = s.work.artifactSize := by
    rw [Work.artifactSize, payloadBitCount_congr hfreq hlen, Work.artifactSize]
  unfold hufAllocStep
  dsimp only
  rw [hsize, show State.allocAnswer { s with work := w } = s.allocAnswer from rfl]
  split
  · exact ⟨rfl, h⟩
  · exact .of_eq (fail_withWork (s.requestAlloc _) w _ _)

theorem hufCheckStep_alike {s : State} {w : Work} (h : Stage.Agree s.work w .hufCheck) :
    Alike (hufCheckStep s) (hufCheckStep { s with work := w }) := by
  have hlen : s.work.len = w.len := h
  unfold hufCheckStep Work.lens
  dsimp only
  rw [← hlen]
  split
  · exact ⟨rfl, rfl, rfl, rfl, rfl, rfl⟩
  · exact .of_eq (fail_withWork s w _ _)

theorem hufWalkStep_alike {s : State} {w : Work} (hs : s.stage = .hufWalk) (h : Stage.Agree s.work w .hufWalk) :
    Alike (hufWalkStep s) (hufWalkStep { s with work := w }) := by
  obtain ⟨hlen, hcode, htables, hbpos, hopos⟩ := h
  have hsym : decodeSymbol { s with work := w } = decodeSymbol s := by
    unfold decodeSymbol Work.lens
    dsimp only
    rw [← hlen, ← hcode, ← htables, ← hbpos]
    rfl
  unfold hufWalkStep
  dsimp only
  rw [hsym, ← hbpos, ← hopos]
  split
  · split
    · exact .of_eq (fail_withWork s w _ _)
    · exact .of_eq (fail_withWork s w _ _)
    · split
      · exact .of_eq (fail_withWork s w _ _)
      · exact ⟨rfl, by simp [hs, Stage.Agree, hlen, hcode, htables]⟩
  · exact .of_eq rfl

/-- A stage step reads no working state but what its stage names. -/
theorem stageStep_alike {s t : State} (h : Alike s t) : Alike (stageStep s) (stageStep t) := by
  obtain ⟨ht, h⟩ := h
  generalize t.work = w at ht h
  subst ht
  unfold stageStep
  dsimp only
  split
  case h_1 => exact ⟨rfl, h⟩
  case h_2 => exact begin_alike (isCommand_decodeOpcode _) s w
  all_goals
    rename_i hs
    rw [hs] at h
  case h_3 => exact rleEncodeStep_alike hs h
  case h_4 => exact rleDecodeStep_alike hs h
  case h_5 => exact ⟨rfl, rfl⟩
  case h_6 =>
    have hfreq : s.work.freqs = w.freqs := congrArg (fun f => f.toList.map BitVec.toNat) h
    unfold hufTreeStep
    dsimp only
    rw [← hfreq]
    exact ⟨rfl, h, rfl⟩
  case h_7 =>
    obtain ⟨hfreq, hlen⟩ := h
    have hlens : s.work.lens = w.lens := congrArg (fun l => l.toList.map BitVec.toNat) hlen
    unfold hufCodeStep
    dsimp only
    rw [← hlens]
    exact ⟨rfl, hfreq, hlen, rfl⟩
  case h_8 => exact hufAllocStep_alike h
  case h_9 =>
    have hlen := h.2.1
    unfold hufHeaderStep
    dsimp only
    rw [← hlen]
    exact ⟨rfl, h⟩
  case h_10 =>
    obtain ⟨-, hlen, hcode⟩ := id h
    have hpay : w.payload = s.work.payload := by
      funext input
      simp only [Work.payload, hlen, hcode]
    unfold hufPackStep
    dsimp only
    rw [hpay]
    exact ⟨rfl, h⟩
  case h_11 =>
    obtain ⟨hfreq, hlen, -⟩ := h
    unfold hufDoneStep
    dsimp only
    rw [payloadBitCount_congr hfreq hlen]
    exact .of_eq rfl
  case h_12 => exact ⟨rfl, rfl⟩
  case h_13 => exact hufCheckStep_alike h
  case h_14 => exact hufWalkStep_alike hs h

/-- A command carried on keeps alike states alike. -/
theorem runStages_alike (n : Nat) {s t : State} (h : Alike s t) : Alike (runStages n s) (runStages n t) := by
  induction n generalizing s t with
  | zero => exact h
  | succ n ih =>
    by_cases hs : s.stage = .idle
    · rw [h.eq_of_idle hs]
      exact .of_eq rfl
    · have ht : t.stage ≠ .idle := by rw [h.rest]; exact hs
      rw [runStages_succ hs, runStages_succ ht]
      exact ih (stageStep_alike h)

/-- Two alike states of a running command complete to one state. -/
theorem finish_eq_of_alike {s t : State} (h : Alike s t) : finish t = finish s := by
  have hb : stageBound t = stageBound s := by rw [h.rest]; rfl
  unfold finish
  rw [hb]
  exact (runStages_alike _ h).eq_of_idle (finish_stage s)

/-- Settles O50: each stage of a command reads only working state that an earlier one has written, and its completion
overwrites it all. -/
theorem workingStateUnobservable : Obligations.WorkingStateUnobservable := by
  intro i s w hi
  rw [exec_next hi, exec_next hi, finish_eq_of_alike (begin_alike hi s w)]

end Sys2Proof.Machine
end

section
/-! SUPPORT. The memory family: host accesses of memory (20_memory.md R61, R66) and the agenda's next event. -/

namespace Sys2Proof.Machine

/-- A step takes the next event of the agenda, when no host duty is broken (R38). -/
theorem step_head {s : State} {e : Event} {rest : List Event} (hf : s.hostFault = false) (ha : s.agenda = e :: rest) :
    step s = event e { s with agenda := rest } := by
  simp [step, takeTurn, hostGuard, ha, hf]

/-- A host store writes its one byte (R61). -/
theorem hostStore_mem (a : Addr) (v : Byte) (s : State) : (hostStore a v s).mem = s.mem.write a.toNat v := rfl

/-- A host load returns the byte memory holds (R66). -/
theorem hostLoad_busData (a : Addr) (s : State) : (hostLoad a s).busData.toNat = (s.mem.read a.toNat).toNat :=
  slot_toNat _ (by decide)

/-- Settles O58: a store is one write of memory, a load one read of it, and a step is the event at the agenda's head. -/
theorem hostAccesses : Obligations.HostAccesses := by
  refine ⟨fun s a v => ?_, fun s a => ⟨hostLoad_busData a s, rfl⟩, fun s rest hf => ?_⟩
  · have hread : (hostStore a v s).mem.read a.toNat = v := by rw [hostStore_mem, Memory.read_write_self]
    refine ⟨hread, fun b hb => ?_, ?_, rfl⟩
    · rw [hostStore_mem, Memory.read_write_ne _ _ hb]
    · rw [hostLoad_busData, hread]
  · exact ⟨fun _ _ => step_head hf, fun _ => step_head hf, fun _ _ _ => step_head hf, fun _ _ => step_head hf⟩

end Sys2Proof.Machine
end

section
/-! SUPPORT. The memory family: the code lengths of an input fit their entries of `LEN` (41_huffman_encode.md R141 to
R146). -/

namespace Sys2Proof.Machine

/-- The number of leaves of a tree. -/
def Tree.leafCount : Tree → Nat
  | .leaf _ _ => 1
  | .internal _ _ child0 child1 => child0.leafCount + child1.leafCount

theorem Tree.leafCount_pos (t : Tree) : 0 < t.leafCount := by
  induction t with
  | leaf => exact Nat.one_pos
  | internal key weight child0 child1 ih0 ih1 => simp only [Tree.leafCount]; omega

/-- A leaf lies above at most all the other leaves (R145, R146). -/
theorem Tree.depth?_lt_leafCount {t : Tree} {s d : Nat} (h : t.depth? s = some d) : d < t.leafCount := by
  induction t generalizing d with
  | leaf sym weight =>
    simp only [Tree.depth?, Option.ite_none_right_eq_some, Option.some.injEq] at h
    simp only [Tree.leafCount]
    omega
  | internal key weight child0 child1 ih0 ih1 =>
    have := child0.leafCount_pos
    have := child1.leafCount_pos
    simp only [Tree.depth?, Option.map_eq_some_iff, Option.or_eq_some_iff] at h
    simp only [Tree.leafCount]
    obtain ⟨e, h0 | ⟨-, h1⟩, rfl⟩ := h
    · have := ih0 h0; omega
    · have := ih1 h1; omega

/-- A code length is 1 for a lone leaf, and else below the number of leaves (R144, R145). -/
theorem Tree.lengthOf_le_leafCount (root : Tree) (s : Nat) : root.lengthOf s ≤ max 1 (root.leafCount - 1) := by
  cases root with
  | leaf sym weight => simp only [Tree.lengthOf]; split <;> omega
  | internal key weight child0 child1 =>
    simp only [Tree.lengthOf]
    cases h : (Tree.internal key weight child0 child1).depth? s with
    | none => simp
    | some d => have := Tree.depth?_lt_leafCount h; simp only [Option.getD_some]; omega

/-- The leaves of a forest. -/
def forestLeaves (live : List Tree) : Nat := (live.map Tree.leafCount).sum

@[simp] theorem forestLeaves_nil : forestLeaves [] = 0 := rfl

@[simp] theorem forestLeaves_cons (t : Tree) (live : List Tree) :
    forestLeaves (t :: live) = t.leafCount + forestLeaves live := rfl

/-- Only the empty priority set has no least node (R142). -/
theorem eq_nil_of_extractLeast {live : List Tree} (h : extractLeast live = none) : live = [] := by
  cases live with
  | nil => rfl
  | cons t live =>
    simp only [extractLeast] at h
    split at h
    · contradiction
    · split at h <;> contradiction

/-- Taking the least node out of the priority set loses no leaf (R142). -/
theorem forestLeaves_extractLeast {live : List Tree} {a : Tree} {rest : List Tree}
    (h : extractLeast live = some (a, rest)) : forestLeaves live = a.leafCount + forestLeaves rest := by
  induction live generalizing a rest with
  | nil => contradiction
  | cons t live ih =>
    simp only [extractLeast] at h
    split at h
    · rename_i hnone
      cases h
      rw [eq_nil_of_extractLeast hnone, forestLeaves_cons]
    · rename_i least others hsome
      have := ih hsome
      split at h <;> cases h <;> simp only [forestLeaves_cons] <;> omega

/-- The merged root has no more leaves than the forest it is made of (R142). -/
theorem mergeAll_leafCount {fuel m : Nat} {live : List Tree} {root : Tree} (h : mergeAll fuel m live = some root) :
    root.leafCount ≤ forestLeaves live := by
  induction fuel generalizing m live with
  | zero =>
    cases live with
    | nil => contradiction
    | cons t live => cases h; simp
  | succ fuel ih =>
    simp only [mergeAll] at h
    split at h
    · contradiction
    · rename_i a live' ha
      have hsum := forestLeaves_extractLeast ha
      split at h
      · cases h; omega
      · rename_i b others hb
        have := ih h
        have := forestLeaves_extractLeast hb
        simp only [forestLeaves_cons, Tree.leafCount] at *
        omega

/-- The tree has at most one leaf per symbol (R141). -/
theorem buildTree_leafCount {freq : List Nat} {root : Tree} (h : buildTree freq = some root) :
    root.leafCount ≤ freq.length := by
  have hleaves : forestLeaves (leavesOf freq) = (leavesOf freq).length := by
    simp [forestLeaves, leavesOf, Function.comp_def, Tree.leafCount]
  have hle : (leavesOf freq).length ≤ freq.length := by
    simpa [leavesOf] using List.length_filter_le (fun p => decide (p.1 ≠ 0)) freq.zipIdx
  exact (mergeAll_leafCount h).trans (hleaves.trans_le hle)

@[simp] theorem length_freqOf (input : List Byte) : (freqOf input).length = 256 := by simp [freqOf]

@[simp] theorem length_codeLengths (freq : List Nat) : (codeLengths freq).length = 256 := by
  unfold codeLengths
  split <;> simp

/-- A code length of 256 symbols fits its 8 bits (R44, R146). -/
theorem codeLengths_le {freq : List Nat} (hf : freq.length = 256) : ∀ l ∈ codeLengths freq, l ≤ 255 := by
  unfold codeLengths
  split
  · intro l hl
    rw [List.eq_of_mem_replicate hl]
    omega
  · rename_i root hroot
    have hleaves := buildTree_leafCount hroot
    intro l hl
    obtain ⟨s, -, rfl⟩ := List.mem_map.1 hl
    have := root.lengthOf_le_leafCount s
    omega

/-- `LEN` of a list of 256 lengths of 8 bits holds just these (R44). -/
theorem toNat_tabulate_lengths {lens : List Nat} (hl : lens.length = 256) (hle : ∀ l ∈ lens, l ≤ 255) :
    (tabulate 256 fun i => BitVec.ofNat 8 (lens.getD i 0)).toList.map BitVec.toNat = lens := by
  rw [toList_tabulate]
  apply List.ext_getElem
  · simp [hl]
  · intro i _ hi
    have := hle _ (List.getElem_mem hi)
    simp [List.getD_eq_getElem?_getD, List.getElem?_eq_getElem hi]
    omega

/-- The tree builder leaves the code lengths of its counts in `LEN`, none cut off (R144, R145). -/
theorem hufTreeStep_lens (s : State) : (hufTreeStep s).work.lens = codeLengths s.work.freqs :=
  toNat_tabulate_lengths (length_codeLengths _) (codeLengths_le (by simp [Work.freqs]))

end Sys2Proof.Machine
end

section
/-! SUPPORT. The memory family: HUF_ENCODE as a whole (41_huffman_encode.md R150 to R155). -/

namespace Sys2Proof.Machine

/-! ### The working state HUF_ENCODE requests its buffer with -/

/-- HUF_ENCODE past its counting, its tree and its codes (R140 to R147), from a state that has passed the checks. -/
def hufCoded (s : State) : State := hufCodeStep (hufTreeStep (hufCountStep { s with stage := .hufCount }))

/-- Counting and coding change the stage and the working state alone. -/
theorem hufCoded_eq (s : State) : hufCoded s = { s with stage := .hufAlloc, work := (hufCoded s).work } := rfl

@[simp] theorem hufCoded_latched (s : State) : (hufCoded s).latched = s.latched := by rw [hufCoded_eq]

@[simp] theorem hufCoded_live (s : State) : (hufCoded s).live = s.live := by rw [hufCoded_eq]

@[simp] theorem hufCoded_srcBytes (s : State) : (hufCoded s).srcBytes = s.srcBytes := by rw [hufCoded_eq]; rfl

theorem hufCoded_freqs (s : State) : (hufCoded s).work.freqs = freqOf s.srcBytes := hufCountStep_freqs _

@[simp] theorem length_inputLengths (input : List Byte) : (inputLengths input).length = 256 := length_codeLengths _

theorem hufCoded_lens (s : State) : (hufCoded s).work.lens = inputLengths s.srcBytes :=
  (hufTreeStep_lens _).trans (congrArg codeLengths (hufCountStep_freqs { s with stage := .hufCount }))

theorem hufCoded_code (s : State) : (hufCoded s).work.code = codeTable (inputLengths s.srcBytes) :=
  congrArg codeTable (hufCoded_lens s)

/-- The payload bit count is that of the input (R149). -/
theorem hufCoded_payloadBitCount (s : State) : (hufCoded s).work.payloadBitCount = inputBits s.srcBytes := by
  rw [Work.payloadBitCount, hufCoded_freqs, hufCoded_lens]; rfl

/-- The buffer asked for is of the artifact's exact size (R154). -/
theorem hufCoded_artifactSize (s : State) : (hufCoded s).work.artifactSize = inputSize s.srcBytes := by
  rw [Work.artifactSize, hufCoded_payloadBitCount]; rfl

/-- The header bytes are the code lengths' (R148). -/
theorem Work.len_eq_headerOf (w : Work) : w.len.toList = headerOf w.lens := by
  simp [headerOf, Work.lens, Function.comp_def]

/-- Each source byte's codeword is the canonical one when `CODE` is (R93, R147). -/
theorem Work.payload_eq {w : Work} (hc : w.code = codeTable w.lens) (input : List Byte) :
    w.payload input = payloadOf w.lens input := by
  unfold Work.payload payloadOf codeword
  congr 1
  funext b
  have hb : b.toNat < 256 := b.isLt
  simp [hc, Work.lens, List.getD_eq_getElem?_getD, hb]

/-! ### The region -/

/-- A region an answer grants meets `RegionFits` in any state with this request's size, source and LIVE (R71, R154). -/
theorem regionFits_of_answer {s t : State} {base : Addr} {size : Nat} (h : s.allocAnswer size = some base)
    (hs : size = t.work.artifactSize) (hl : t.latched = s.latched) (hv : t.live = s.live) :
    RegionFits t base size := by
  obtain ⟨hbase, hspace, hsrc, hlive, -⟩ := allocAnswer_contract h
  exact ⟨hbase, hspace, hs, hl ▸ hsrc, hv ▸ hlive⟩

theorem Memory.writeBytes_append (m : Memory) (a : Nat) (bs cs : List Byte) :
    m.writeBytes a (bs ++ cs) = (m.writeBytes a bs).writeBytes (a + bs.length) cs := by
  induction bs generalizing m a with
  | nil => rfl
  | cons b bs ih =>
    rw [List.cons_append, Memory.writeBytes, ih, Memory.writeBytes, List.length_cons]
    congr 1
    omega

theorem length_headerOf_inputLengths (input : List Byte) : (headerOf (inputLengths input)).length = 256 := by
  simp [headerOf]

/-! ### The whole command -/

/-- The region a granted request gives (R154). -/
def State.region (s : State) (base : Addr) : Window := ⟨base.toNat, inputSize s.srcBytes⟩

/-- HUF_ENCODE's own effect when its request is granted (R150, R154, R155): the artifact fills the region, which joins
LIVE. -/
def hufEncoded (s : State) (base : Addr) : State :=
  { s.requestAlloc (inputSize s.srcBytes) with
    mem := s.mem.writeBytes base.toNat (artifactOf s.srcBytes)
    hostFault := s.hostFault || s.meetsOther (s.region base)
    live := s.region base :: s.live
    released := s.released.filter fun x => !(s.region base).has x }

/-- The state in which HUF_ENCODE holds a region and has written nothing yet (R154). -/
def hufGranted (s : State) (base : Addr) (size : Nat) : State :=
  { s.requestAlloc size with
    stage := .hufHeader base size
    hostFault := s.hostFault || s.meetsOther ⟨base.toNat, size⟩ }

@[simp] theorem hufGranted_work (s : State) (base : Addr) (size : Nat) : (hufGranted s base size).work = s.work := rfl

theorem hufGranted_srcBytes (s : State) (base : Addr) (size : Nat) : (hufGranted s base size).srcBytes = s.srcBytes :=
  rfl

theorem hufAllocStep_granted {s : State} {base : Addr} {size : Nat} (hs : s.work.artifactSize = size)
    (h : s.allocAnswer size = some base) : hufAllocStep s = hufGranted s base size := by
  subst hs
  simp only [hufAllocStep, h]
  rfl

theorem hufAllocStep_refused {s : State} {size : Nat} (hs : s.work.artifactSize = size)
    (h : s.allocAnswer size = none) : hufAllocStep s = (s.requestAlloc size).fail .hufEncode .allocFail := by
  subst hs
  simp only [hufAllocStep, h]

/-- Past its checks, HUF_ENCODE is what follows its request (R150). -/
theorem finish_beginHufEncode {s : State} (h : checkArgs .hufEncode s.latched = none) :
    finish (beginHufEncode s) = finish (hufAllocStep (hufCoded s)) := by
  let s0 : State := { s with stage := .hufCount }
  have hbegin : beginHufEncode s = s0 := by simp only [beginHufEncode, State.afterChecks, h, s0]
  calc finish (beginHufEncode s) = finish s0 := by rw [hbegin]
    _ = finish (hufCountStep s0) := (finish_stageStep (s := s0) nofun).symm
    _ = finish (hufTreeStep (hufCountStep s0)) := (finish_stageStep (s := hufCountStep s0) nofun).symm
    _ = finish (hufCoded s) := (finish_stageStep (s := hufTreeStep (hufCountStep s0)) nofun).symm
    _ = finish (hufAllocStep (hufCoded s)) := (finish_stageStep (s := hufCoded s) nofun).symm

/-- Once its region is given, HUF_ENCODE writes the header, then the payload, and hands the region over (R150). -/
theorem finish_of_hufHeader {s : State} {base : Addr} {size : Nat} (h : s.stage = .hufHeader base size) :
    finish s = hufDoneStep base size (hufPackStep base size (hufHeaderStep base size s)) := by
  have hheader : stageStep s = hufHeaderStep base size s := by simp only [stageStep, h]
  calc finish s = finish (hufHeaderStep base size s) := by
        rw [← finish_stageStep (s := s) (by simp [h]), hheader]
    _ = finish (hufPackStep base size (hufHeaderStep base size s)) :=
        (finish_stageStep (s := hufHeaderStep base size s) nofun).symm
    _ = finish (hufDoneStep base size (hufPackStep base size (hufHeaderStep base size s))) :=
        (finish_stageStep (s := hufPackStep base size (hufHeaderStep base size s)) nofun).symm
    _ = _ := finish_idle rfl

/-- Header and payload, written one after the other, are the artifact; nothing else changes but the stage and the
packer (R90, R148, R151). -/
theorem hufPackStep_hufHeaderStep {s : State} {base : Addr} {size : Nat} {input : List Byte}
    (hreg : RegionFits s base size) (hsrc : s.srcBytes = input) (hcode : s.work.code = codeTable (inputLengths input))
    (hlens : s.work.lens = inputLengths input) :
    ∃ pack, hufPackStep base size (hufHeaderStep base size s) =
      { s with
        mem := s.mem.writeBytes base.toNat (artifactOf input)
        stage := .hufDone base size
        work := { s.work with pack := pack } } := by
  have hmem : s.mem.writeBytes base.toNat (artifactOf input) =
      (s.mem.writeBytes base.toNat s.work.len.toList).writeBytes (base.toNat + 256)
        (packBits (s.work.payload input)).out := by
    rw [Work.payload_eq (by rw [hcode, hlens]), Work.len_eq_headerOf, hlens, artifactOf, Memory.writeBytes_append,
      length_headerOf_inputLengths]
  refine ⟨(hufPackStep base size (hufHeaderStep base size s)).work.pack, ?_⟩
  rw [hmem, hufPackStep, hufHeaderStep_srcBytes hreg, hsrc]
  rfl

/-- Handing the region over: what the packer holds is gone with the rest of the working state (R155, R48). -/
theorem hufDoneStep_eq (base : Addr) (size : Nat) (s : State) (mem : Memory) (pack : PackWork) :
    hufDoneStep base size
        { s with mem := mem, stage := .hufDone base size, work := { s.work with pack := pack } } =
      State.succeed
        { s with
          mem := mem
          live := ⟨base.toNat, size⟩ :: s.live
          released := s.released.filter fun x => !(Window.mk base.toNat size).has x }
        size s.work.payloadBitCount base := rfl

/-- A refused request ends HUF_ENCODE, with nothing written (R154). -/
theorem finish_beginHufEncode_refused {s : State} (h : checkArgs .hufEncode s.latched = none)
    (ha : s.allocAnswer (inputSize s.srcBytes) = none) :
    finish (beginHufEncode s) = (s.requestAlloc (inputSize s.srcBytes)).fail .hufEncode .allocFail := by
  rw [finish_beginHufEncode h, hufAllocStep_refused (hufCoded_artifactSize s) ha, finish_idle rfl, hufCoded_eq]
  rfl

/-- A granted request leads HUF_ENCODE to success (R150, R154, R155). -/
theorem finish_beginHufEncode_granted {s : State} {base : Addr} (h : checkArgs .hufEncode s.latched = none)
    (ha : s.allocAnswer (inputSize s.srcBytes) = some base) :
    finish (beginHufEncode s) =
      (hufEncoded s base).succeed (inputSize s.srcBytes) (inputBits s.srcBytes) base := by
  have hreg : RegionFits (hufGranted (hufCoded s) base (inputSize s.srcBytes)) base (inputSize s.srcBytes) :=
    regionFits_of_answer ha (by rw [hufGranted_work, hufCoded_artifactSize]) (hufCoded_latched s) (hufCoded_live s)
  obtain ⟨pack, hpack⟩ := hufPackStep_hufHeaderStep (input := s.srcBytes) hreg
    (by rw [hufGranted_srcBytes, hufCoded_srcBytes]) (by rw [hufGranted_work, hufCoded_code])
    (by rw [hufGranted_work, hufCoded_lens])
  rw [finish_beginHufEncode h, hufAllocStep_granted (hufCoded_artifactSize s) ha, finish_of_hufHeader rfl, hpack,
    hufDoneStep_eq, hufGranted_work, hufCoded_payloadBitCount, hufCoded_eq]
  rfl

/-! ### What the region holds -/

theorem length_artifactOf (input : List Byte) : (artifactOf input).length = inputSize input := by
  have hpay : (payloadOf (inputLengths input) input).length = inputBits input := by
    rw [inputBits, payloadBits_freqOf _ _ (length_inputLengths _), payloadOf, List.length_flatMap]
    simp [codeword, codeBits]
  rw [artifactOf, List.length_append, length_headerOf_inputLengths, packBits_length, hpay]
  rfl

/-- A granted region's size fits `RES_LEN` and its bit count `RES_BITS` (R71). -/
theorem granted_fits {s : State} {base : Addr} (h : s.allocAnswer (inputSize s.srcBytes) = some base) :
    inputSize s.srcBytes < 2 ^ 32 ∧ inputBits s.srcBytes < 2 ^ 35 := by
  obtain ⟨hbase, hspace, -⟩ := allocAnswer_contract h
  have hpos : base.toNat ≠ 0 := fun h0 => hbase (BitVec.eq_of_toNat_eq h0)
  have hsize : inputSize s.srcBytes = 256 + (inputBits s.srcBytes + 8 - 1) / 8 := rfl
  simp only [Config.addrSpace] at hspace
  omega

/-- Only the region's bytes change (R63). -/
theorem hufEncoded_outside (s : State) (base : Addr) : SameOutside [s.region base] s (hufEncoded s base) := by
  intro a ha
  have hout := (Window.has_false_iff _ _).1 (ha _ (List.mem_singleton.2 rfl))
  exact Memory.read_writeBytes_outside _ _ _ _ (by rw [length_artifactOf]; exact hout)

theorem hufEncoded_setting (s : State) (base : Addr) : SameSetting s (hufEncoded s base) := by
  constructor <;> simp [hufEncoded]

/-- Settles O35: past its checks HUF_ENCODE is `hufEncoded`, handed over, and the artifact is as long as the region. -/
theorem hufEncodeSucceeds : Obligations.HufEncodeSucceeds := by
  intro s base hk ha
  obtain ⟨hsize, hbits⟩ := granted_fits ha
  refine ⟨_, congrArg Host.Outcome.next (finish_beginHufEncode_granted hk ha), ⟨?_, ?_, ?_⟩,
    Nat.mod_eq_of_lt hsize, Nat.mod_eq_of_lt hbits, ?_, hufEncoded_outside s base, ?_, ?_, ?_, ?_, ?_,
    (hufEncoded_setting s base).trans (succeed_setting _ _ _ _)⟩
  case refine_4 =>
    rw [← length_artifactOf]
    exact Memory.readBytes_writeBytes _ _ _
  all_goals simp [hufEncoded, State.meetsOther, State.region]

end Sys2Proof.Machine
end

section
/-! SUPPORT. The memory family: every command writes in its own window alone (20_memory.md R63, R222, R223). -/

namespace Sys2Proof.Machine

/-- The unpacker has written no further than its window (R223). -/
def WalkFits (s : State) : Prop := s.stage = .hufWalk → s.work.unpack.opos.toNat ≤ s.latched.dstCap.toNat

theorem walkFits_of_stage {s : State} (h : s.stage ≠ .hufWalk) : WalkFits s := fun hs => absurd hs h

/-- A failure writes in the destination window alone (R222). -/
theorem fail_outside (s : State) (c : Instr) (d : Detail) : SameOutside [s.latched.dst] s (s.fail c d) :=
  fun _ ha => s.fail_read_outside c d (ha _ (List.mem_singleton.2 rfl))

/-- What leaves memory alone writes outside no window. -/
theorem sameOutside_of_mem {s t : State} (ws : List Window) (h : t.mem = s.mem) : SameOutside ws s t :=
  fun a _ => congrArg (Memory.read · a) h

/-- Bytes stored at an offset that the destination window has room for change nothing outside it (R63). -/
theorem store_outside {s t : State} {off : Nat} {bs : List Byte}
    (ht : t.mem = s.mem.writeBytes (s.latched.dstBase.toNat + off) bs)
    (h : off + bs.length ≤ s.latched.dstCap.toNat) : SameOutside [s.latched.dst] s t := by
  intro a ha
  have hout := (Window.has_false_iff _ _).1 (ha _ (List.mem_singleton.2 rfl))
  simp only [Operands.dst] at hout
  rw [ht]
  exact Memory.read_writeBytes_outside _ _ _ _ (by omega)

theorem rleEncodeStep_outside (s : State) : SameOutside [s.latched.dst] s (rleEncodeStep s) := by
  unfold rleEncodeStep emitPacket
  dsimp only
  split
  · split
    · exact fail_outside (noteRun s _) _ _
    · rename_i hcap
      exact store_outside rfl (Nat.not_lt.1 hcap)
  · exact sameOutside_of_mem _ rfl

theorem guardPacket_outside {s : State} {p n : Nat} {go : State → State}
    (h : s.work.rleDec.opos.toNat + n ≤ s.latched.dstCap.toNat → SameOutside [s.latched.dst] s (go s)) :
    SameOutside [s.latched.dst] s (guardPacket s p n go) := by
  unfold guardPacket
  dsimp only
  split
  · exact fail_outside s _ _
  · split
    · exact fail_outside s _ _
    · rename_i hcap
      exact h (Nat.not_lt.1 hcap)

theorem rleDecodeStep_outside (s : State) : SameOutside [s.latched.dst] s (rleDecodeStep s) := by
  unfold rleDecodeStep
  split
  · rw [runPacket_decodeCtl]
    split
    · exact guardPacket_outside (s := fetchCtl s) fun hcap => store_outside rfl (by simpa using hcap)
    · exact guardPacket_outside (s := fetchCtl s) fun hcap => store_outside rfl (by simpa using hcap)
  · exact sameOutside_of_mem _ rfl

theorem hufWalkStep_outside {s : State} (hs : s.stage = .hufWalk) (h : WalkFits s) :
    SameOutside [s.latched.dst] s (hufWalkStep s) := by
  have hfit := h hs
  unfold hufWalkStep
  dsimp only
  split
  · split
    · exact fail_outside s _ _
    · exact fail_outside s _ _
    · split
      · exact fail_outside s _ _
      · refine store_outside rfl ?_
        simp only [List.length_singleton]
        omega
  · exact sameOutside_of_mem _ rfl

/-- No stage step of a command other than HUF_ENCODE writes outside the destination window (R63, R222). -/
theorem stageStep_outside {c : Instr} {s : State} (hb : Begun c s) (hc : c ≠ .hufEncode) (h : WalkFits s) :
    SameOutside [s.latched.dst] s (stageStep s) := by
  obtain ⟨hfit, hi⟩ := hb
  unfold stageStep
  split
  case h_1 => exact sameOutside_of_mem _ rfl
  case h_2 => contradiction
  case h_3 => exact rleEncodeStep_outside s
  case h_4 => exact rleDecodeStep_outside s
  case h_12 => exact sameOutside_of_mem _ rfl
  case h_13 =>
    unfold hufCheckStep
    dsimp only
    split
    · exact sameOutside_of_mem _ rfl
    · exact fail_outside s _ _
  case h_14 hs => exact hufWalkStep_outside hs h
  all_goals
    rename_i hs
    rw [hs] at hfit
    exact absurd (eq_of_beq hfit) hc

theorem hufWalkStep_walkFits {s : State} (hs : s.stage = .hufWalk) (h : WalkFits s) : WalkFits (hufWalkStep s) := by
  have hfit := h hs
  unfold hufWalkStep
  dsimp only
  split
  · split
    · exact walkFits_of_stage nofun
    · exact walkFits_of_stage nofun
    · split
      · exact walkFits_of_stage nofun
      · intro _
        show (BitVec.ofNat 32 (s.work.unpack.opos.toNat + 1)).toNat ≤ s.latched.dstCap.toNat
        rw [ofNat_toNat_of_le s.latched.dstCap (by omega)]
        omega
  · exact walkFits_of_stage nofun

/-- Only HUF_DECODE walks codewords. -/
theorem Begun.walkFits {c : Instr} {s : State} (h : Begun c s) (hc : c ≠ .hufDecode) : WalkFits s := by
  refine walkFits_of_stage fun hs => hc ?_
  have hfit := h.1
  rw [hs] at hfit
  exact eq_of_beq hfit

/-- The unpacker stays in its window (R223). -/
theorem stageStep_walkFits {c : Instr} {s : State} (hb : Begun c s) (h : WalkFits s) : WalkFits (stageStep s) := by
  by_cases hc : c = .hufDecode
  · obtain ⟨hfit, hi⟩ := hb
    subst hc
    unfold stageStep
    split
    case h_1 => exact h
    case h_2 => contradiction
    case h_12 => exact walkFits_of_stage nofun
    case h_13 =>
      unfold hufCheckStep
      dsimp only
      split
      · exact fun _ => Nat.zero_le _
      · exact walkFits_of_stage nofun
    case h_14 hs => exact hufWalkStep_walkFits hs h
    all_goals
      rename_i hs
      rw [hs] at hfit
      contradiction
  · exact (stageStep_begun hb).walkFits hc

/-! ### A whole command -/

theorem afterChecks_outside {s : State} {c : Instr} {start : State → State}
    (h : SameOutside [s.latched.dst] s (start s)) : SameOutside [s.latched.dst] s (s.afterChecks c start) :=
  afterChecks_cases (P := SameOutside [s.latched.dst] s) (fun d _ => fail_outside s c d) fun _ => h

/-- HUF_DECODE's start writes nothing but a failure's window and has not begun to walk (R180, R181). -/
theorem beginHufDecode_outside (s : State) :
    SameOutside [s.latched.dst] s (beginHufDecode s) ∧ WalkFits (beginHufDecode s) := by
  unfold beginHufDecode
  refine afterChecks_cases (P := fun t => SameOutside [s.latched.dst] s t ∧ WalkFits t)
    (fun d _ => ⟨fail_outside s _ d, walkFits_of_stage nofun⟩) fun _ => ?_
  split
  · exact ⟨fail_outside s _ _, walkFits_of_stage nofun⟩
  · split
    · exact ⟨fail_outside s _ _, walkFits_of_stage nofun⟩
    · exact ⟨sameOutside_of_mem _ rfl, walkFits_of_stage nofun⟩

/-- A command that has begun writes in its destination window alone to its end, unless it is HUF_ENCODE (R63). -/
theorem finish_outside {c : Instr} {s t : State} (hset : SameSetting s t) (hst : SameOutside [s.latched.dst] s t)
    (hb : Begun c t) (hc : c ≠ .hufEncode) (hw : WalkFits t) : SameOutside [s.latched.dst] s (finish t) :=
  (runStages_keeps
    (P := fun u => SameSetting s u ∧ SameOutside [s.latched.dst] s u ∧ Begun c u ∧ WalkFits u)
    (fun u ⟨hset, hout, hb, hw⟩ _ =>
      ⟨hset.trans (stageStep_setting u), hout.trans (hset.latched ▸ stageStep_outside hb hc hw), stageStep_begun hb,
        stageStep_walkFits hb hw⟩) _ ⟨hset, hst, hb, hw⟩).2.1

theorem hufRelease_mem (s : State) : (hufRelease s).mem = s.mem := by
  unfold hufRelease
  dsimp only
  split <;> rfl

theorem hufRelease_stage (s : State) : (hufRelease s).stage = .idle := by
  unfold hufRelease
  dsimp only
  split <;> rfl

/-- Every command but HUF_ENCODE writes in the destination window it was given, if it was given one (R63, R222). -/
theorem command_outside {i : Instr} (hi : isCommand i = true) (he : i ≠ .hufEncode) (s : State) :
    SameOutside (destination i s.latched) s (finish (begin i s)) := by
  have hset := begin_setting i s
  have hb := begin_begun hi s
  cases i
  case rleEncode =>
    exact finish_outside hset (afterChecks_outside (sameOutside_of_mem _ rfl)) hb he (hb.walkFits nofun)
  case rleDecode =>
    exact finish_outside hset (afterChecks_outside (sameOutside_of_mem _ rfl)) hb he (hb.walkFits nofun)
  case hufEncode => contradiction
  case hufDecode => exact finish_outside hset (beginHufDecode_outside s).1 hb he (beginHufDecode_outside s).2
  case hufRelease =>
    rw [show begin .hufRelease s = hufRelease s from rfl, finish_idle (hufRelease_stage s)]
    exact sameOutside_of_mem _ (hufRelease_mem s)
  case reservedOp op =>
    rw [show begin (.reservedOp op) s = s.fail (.reservedOp s.op) .illegalOp from rfl, finish_idle rfl]
    exact sameOutside_of_mem _ (s.fail_mem_of_none _ rfl)
  case lit c => contradiction
  case run c => contradiction

/-- HUF_ENCODE writes in the region it was granted, or, when it was granted none, nowhere (R63, R154). -/
theorem hufEncode_writes (s : State) :
    SameMemory s (finish (beginHufEncode s)) ∨
      ∃ base, s.allocAnswer (inputSize s.srcBytes) = some base ∧
        finish (beginHufEncode s) =
          (hufEncoded s base).succeed (inputSize s.srcBytes) (inputBits s.srcBytes) base := by
  cases hk : checkArgs .hufEncode s.latched with
  | some d =>
    left
    have hfail : beginHufEncode s = s.fail .hufEncode d := by simp only [beginHufEncode, State.afterChecks, hk]
    rw [hfail, finish_idle rfl]
    exact fun a => congrArg (Memory.read · a) (s.fail_mem_of_none d rfl)
  | none =>
    cases ha : s.allocAnswer (inputSize s.srcBytes) with
    | none =>
      left
      rw [finish_beginHufEncode_refused hk ha]
      exact fun a => congrArg (Memory.read · a) (State.fail_mem_of_none (s.requestAlloc _) _ rfl)
    | some base => exact .inr ⟨base, rfl, finish_beginHufEncode_granted hk ha⟩

/-- Settles O48: a stage step stores only at an offset its window has room for, and HUF_ENCODE's stores are the artifact
in its region. -/
theorem writesStayInWindow : Obligations.WritesStayInWindow := by
  intro i s t hi ht
  rw [exec_next hi] at ht
  cases ht
  refine ⟨fun he => command_outside hi he s, ?_⟩
  rintro rfl
  rcases hufEncode_writes s with hmem | ⟨base, ha, ht⟩
  · exact ⟨fun _ a _ => hmem a, fun _ => hmem⟩
  · have hsize : (BitVec.ofNat 32 (inputSize s.srcBytes)).toNat = inputSize s.srcBytes :=
      Nat.mod_eq_of_lt (granted_fits ha).1
    rw [show begin .hufEncode s = beginHufEncode s from rfl, ht, State.succeed_res, hsize]
    exact ⟨fun _ => hufEncoded_outside s base, fun h => absurd (State.succeed_status _ _ _ _) h⟩

end Sys2Proof.Machine
end

section
/-! SUPPORT. The memory family: a command taken part by part comes to the state of its whole transaction (20_memory.md
R67). -/

namespace Sys2Proof.Machine

/-! ### The agenda plays no part in a stage step -/

/-- A state with another agenda. -/
def State.withAgenda (s : State) (agenda : List Event) : State := { s with agenda := agenda }

section
variable (s : State) (l : List Event)

@[simp] theorem State.withAgenda_op : (s.withAgenda l).op = s.op := rfl
@[simp] theorem State.withAgenda_latched : (s.withAgenda l).latched = s.latched := rfl
@[simp] theorem State.withAgenda_work : (s.withAgenda l).work = s.work := rfl
@[simp] theorem State.withAgenda_stage : (s.withAgenda l).stage = s.stage := rfl

end

theorem fail_withAgenda (s : State) (l : List Event) (c : Instr) (d : Detail) :
    (s.withAgenda l).fail c d = (s.fail c d).withAgenda l := by
  unfold State.fail State.spoilDst
  split <;> rfl

theorem afterChecks_withAgenda {s : State} {l : List Event} {c : Instr} {start : State → State}
    (h : start (s.withAgenda l) = (start s).withAgenda l) :
    (s.withAgenda l).afterChecks c start = (s.afterChecks c start).withAgenda l := by
  unfold State.afterChecks
  rw [State.withAgenda_latched]
  split
  · exact fail_withAgenda s l _ _
  · exact h

theorem beginRleEncode_withAgenda (s : State) (l : List Event) :
    beginRleEncode (s.withAgenda l) = (beginRleEncode s).withAgenda l := afterChecks_withAgenda rfl

theorem beginRleDecode_withAgenda (s : State) (l : List Event) :
    beginRleDecode (s.withAgenda l) = (beginRleDecode s).withAgenda l := afterChecks_withAgenda rfl

theorem beginHufEncode_withAgenda (s : State) (l : List Event) :
    beginHufEncode (s.withAgenda l) = (beginHufEncode s).withAgenda l := afterChecks_withAgenda rfl

theorem beginHufDecode_withAgenda (s : State) (l : List Event) :
    beginHufDecode (s.withAgenda l) = (beginHufDecode s).withAgenda l := by
  apply afterChecks_withAgenda
  rw [State.withAgenda_latched]
  split
  · exact fail_withAgenda s l _ _
  · split
    · exact fail_withAgenda s l _ _
    · rfl

theorem hufRelease_withAgenda (s : State) (l : List Event) :
    hufRelease (s.withAgenda l) = (hufRelease s).withAgenda l := by
  unfold hufRelease
  rw [State.withAgenda_latched]
  dsimp only
  split <;> rfl

theorem begin_withAgenda (i : Instr) (s : State) (l : List Event) :
    begin i (s.withAgenda l) = (begin i s).withAgenda l := by
  cases i
  case rleEncode => exact beginRleEncode_withAgenda s l
  case rleDecode => exact beginRleDecode_withAgenda s l
  case hufEncode => exact beginHufEncode_withAgenda s l
  case hufDecode => exact beginHufDecode_withAgenda s l
  case hufRelease => exact hufRelease_withAgenda s l
  case reservedOp op => exact fail_withAgenda s l _ _
  case lit c => rfl
  case run c => rfl

theorem emitPacket_withAgenda (s : State) (l : List Event) (p : Packet) :
    emitPacket (s.withAgenda l) p = (emitPacket s p).withAgenda l := by
  unfold emitPacket
  rw [State.withAgenda_latched, State.withAgenda_work]
  dsimp only
  split
  · exact fail_withAgenda s l _ _
  · rfl

theorem rleEncodeStep_withAgenda (s : State) (l : List Event) :
    rleEncodeStep (s.withAgenda l) = (rleEncodeStep s).withAgenda l := by
  unfold rleEncodeStep
  rw [State.withAgenda_latched, State.withAgenda_work]
  dsimp only
  split
  · exact emitPacket_withAgenda (noteRun s _) l _
  · rfl

theorem guardPacket_withAgenda {s : State} {l : List Event} {p n : Nat} {go : State → State}
    (h : go (s.withAgenda l) = (go s).withAgenda l) :
    guardPacket (s.withAgenda l) p n go = (guardPacket s p n go).withAgenda l := by
  unfold guardPacket
  rw [State.withAgenda_latched, State.withAgenda_work]
  dsimp only
  split
  · exact fail_withAgenda s l _ _
  · split
    · exact fail_withAgenda s l _ _
    · exact h

theorem rleDecodeStep_withAgenda (s : State) (l : List Event) :
    rleDecodeStep (s.withAgenda l) = (rleDecodeStep s).withAgenda l := by
  unfold rleDecodeStep
  rw [show moreStream (s.withAgenda l) = moreStream s from rfl, show ctlAt (s.withAgenda l) = ctlAt s from rfl]
  split
  · rw [runPacket_decodeCtl, runPacket_decodeCtl]
    split
    · exact guardPacket_withAgenda (s := fetchCtl s) rfl
    · exact guardPacket_withAgenda (s := fetchCtl s) rfl
  · rfl

theorem hufAllocStep_withAgenda (s : State) (l : List Event) :
    hufAllocStep (s.withAgenda l) = (hufAllocStep s).withAgenda l := by
  unfold hufAllocStep
  rw [State.withAgenda_work, show (s.withAgenda l).allocAnswer = s.allocAnswer from rfl]
  dsimp only
  split
  · rfl
  · exact fail_withAgenda (s.requestAlloc _) l _ _

theorem hufCheckStep_withAgenda (s : State) (l : List Event) :
    hufCheckStep (s.withAgenda l) = (hufCheckStep s).withAgenda l := by
  unfold hufCheckStep
  rw [State.withAgenda_work]
  dsimp only
  split
  · rfl
  · exact fail_withAgenda s l _ _

theorem hufWalkStep_withAgenda (s : State) (l : List Event) :
    hufWalkStep (s.withAgenda l) = (hufWalkStep s).withAgenda l := by
  unfold hufWalkStep
  rw [State.withAgenda_latched, State.withAgenda_work,
    show decodeSymbol (s.withAgenda l) = decodeSymbol s from rfl]
  dsimp only
  split
  · split
    · exact fail_withAgenda s l _ _
    · exact fail_withAgenda s l _ _
    · split
      · exact fail_withAgenda s l _ _
      · rfl
  · rfl

/-- What a stage step does depends on no agenda, and it leaves the agenda alone. -/
theorem stageStep_withAgenda (s : State) (l : List Event) :
    stageStep (s.withAgenda l) = (stageStep s).withAgenda l := by
  unfold stageStep
  rw [State.withAgenda_stage, State.withAgenda_op]
  split
  case h_2 => exact begin_withAgenda _ s l
  case h_3 => exact rleEncodeStep_withAgenda s l
  case h_4 => exact rleDecodeStep_withAgenda s l
  case h_8 => exact hufAllocStep_withAgenda s l
  case h_13 => exact hufCheckStep_withAgenda s l
  case h_14 => exact hufWalkStep_withAgenda s l
  all_goals rfl

/-! ### One part is one stage step -/

/-- A running RLE_DECODE has windows inside the address space, as its checks left them (R62, R225). -/
def PacketsFit (s : State) : Prop :=
  s.stage = .rleDecode → s.latched.src.inSpace = true ∧ s.latched.dst.inSpace = true

/-- With windows that fit, a part is a stage step (R67, R120). -/
theorem corePart_eq_of_packetsFit {s : State} (h : PacketsFit s) : corePart s = .next (stageStep s) := by
  unfold corePart
  split
  · rename_i hs
    obtain ⟨hstage, hmore⟩ := hs
    obtain ⟨hsrc, hdst⟩ := h hstage
    rw [exec_ctl (s := fetchCtl s) hsrc hdst]
    simp only [stageStep, hstage, rleDecodeStep, hmore, if_true]
  · rfl

/-- Only RLE_DECODE takes packets. -/
theorem Begun.eq_rleDecode {c : Instr} {s : State} (h : Begun c s) (hs : s.stage = .rleDecode) : c = .rleDecode := by
  have hfit := h.1
  rw [hs] at hfit
  exact eq_of_beq hfit

/-- RLE_DECODE, once begun, takes packets until it has completed (R120). -/
theorem Begun.stage_of_rleDecode {s : State} (h : Begun .rleDecode s) : s.stage = .idle ∨ s.stage = .rleDecode := by
  obtain ⟨hfit, hi⟩ := h
  cases hs : s.stage
  case idle => exact .inl rfl
  case rleDecode => exact .inr rfl
  case issued => contradiction
  all_goals
    rw [hs] at hfit
    contradiction

/-- RLE_DECODE starts with windows that fit the address space (R225). -/
theorem begin_packetsFit {i : Instr} (hi : isCommand i = true) (s : State) : PacketsFit (begin i s) := by
  intro hs
  obtain rfl := (begin_begun hi s).eq_rleDecode hs
  cases hk : checkArgs .rleDecode s.latched with
  | some d =>
    have hfail : begin .rleDecode s = s.fail .rleDecode d := by
      simp only [begin, beginRleDecode, State.afterChecks, hk]
    rw [hfail] at hs
    contradiction
  | none =>
    rw [(begin_setting _ s).latched]
    exact ⟨decide_eq_true (checkArgs_src hk).1, decide_eq_true (checkArgs_dst hk rfl).1⟩

/-- A command that has begun keeps its windows (R32). -/
theorem stageStep_packetsFit {c : Instr} {s : State} (hb : Begun c s) (h : PacketsFit s) :
    PacketsFit (stageStep s) := by
  intro hs
  obtain rfl := (stageStep_begun hb).eq_rleDecode hs
  rcases hb.stage_of_rleDecode with hi | hr
  · rw [show stageStep s = s by simp only [stageStep, hi], hi] at hs
    contradiction
  · rw [(stageStep_setting s).latched]
    exact h hr

/-! ### The parts of a command -/

/-- `k` stage steps, none of them of a completed command, lead from `s` to the completed `t`. -/
inductive Parts : Nat → State → State → Prop where
  | done {s : State} (h : s.stage = .idle) : Parts 0 s s
  | part {k : Nat} {s t : State} (h : s.stage ≠ .idle) (rest : Parts k (stageStep s) t) : Parts (k + 1) s t

/-- A command has as many parts as it takes to carry it to its completion (R67, R262). -/
theorem exists_parts (s : State) : ∃ k, Parts k s (finish s) := by
  induction hn : stepsLeft s using Nat.strong_induction_on generalizing s with
  | _ n ih =>
    by_cases hi : s.stage = .idle
    · rw [finish_idle hi]
      exact ⟨0, .done hi⟩
    · obtain ⟨k, hk⟩ := ih _ (hn ▸ stageStep_closer hi) (stageStep s) rfl
      rw [finish_stageStep hi] at hk
      exact ⟨k + 1, .part hi hk⟩

/-- The state with `k` parts on its agenda. -/
def State.withParts (s : State) (k : Nat) : State := s.withAgenda (List.replicate k .corePart)

theorem coreRun_succ_of_next {M : Host.Core} {s t : M.State} (k : Nat) (h : M.step s = .next t) :
    M.run (k + 1) s = M.run k t := by
  simp only [Host.Core.run, h]

theorem coreRun_succ_of_fault {M : Host.Core} {s : M.State} {r : M.Fault} (k : Nat) (h : M.step s = .fault r) :
    M.run (k + 1) s = .fault r := by
  simp only [Host.Core.run, h]

/-- While no host duty is broken, a part on the agenda is a stage step (R67). -/
theorem run_part {s : State} (k : Nat) (hf : s.hostFault = false) (h : PacketsFit s) :
    run (k + 1) (s.withParts (k + 1)) = run k ((stageStep s).withParts k) := by
  have hfit : PacketsFit (s.withParts k) := h
  have hstep : step (s.withParts (k + 1)) = .next ((stageStep s).withParts k) :=
    calc step (s.withParts (k + 1)) = corePart (s.withParts k) :=
          step_head (s := s.withParts (k + 1)) (rest := List.replicate k .corePart) hf rfl
      _ = .next (stageStep (s.withParts k)) := corePart_eq_of_packetsFit hfit
      _ = .next ((stageStep s).withParts k) := congrArg Host.Outcome.next (stageStep_withAgenda s _)
  exact coreRun_succ_of_next (M := core) k hstep

/-- With a host duty broken, a part on the agenda stops the run (R38). -/
theorem run_part_fault {s : State} (k : Nat) (hf : s.hostFault = true) :
    run (k + 1) (s.withParts (k + 1)) = .fault .hostDutyBroken :=
  coreRun_succ_of_fault (M := core) k (hostGuard_fault _ hf nofun)

/-! ### Host duties on the way -/

/-- A part that completes a command breaks no host duty: the allocator's answer, which can break one, does not complete
HUF_ENCODE (R154, R230). -/
theorem stageStep_hostFault_of_idle {c : Instr} {s : State} (hb : Begun c s) (hi : (stageStep s).stage = .idle) :
    (stageStep s).hostFault = s.hostFault := by
  by_cases ha : s.stage = .hufAlloc
  · rw [show stageStep s = hufAllocStep s by simp only [stageStep, ha]] at hi ⊢
    unfold hufAllocStep at hi ⊢
    dsimp only at hi ⊢
    split at hi
    · contradiction
    · exact State.fail_hostFault (s.requestAlloc _) _ _
  · have hissued := hb.2
    unfold stageStep
    split
    case h_2 => contradiction
    case h_3 => exact (rleEncodeStep_regions s).hostFault
    case h_4 => exact (rleDecodeStep_regions s).hostFault
    case h_8 => contradiction
    case h_13 => exact (hufCheckStep_regions s).hostFault
    case h_14 => exact (hufWalkStep_regions s).hostFault
    all_goals rfl

/-- A command that ends with no host duty broken had none broken on its way (R38). -/
theorem Parts.hostFault_start {k : Nat} {s t : State} (hp : Parts k s t) (ht : t.hostFault = false) :
    s.hostFault = false := by
  induction hp with
  | done => exact ht
  | part h rest ih =>
    by_contra hf
    have := stageStep_keepsHostFault (Bool.eq_true_of_not_eq_false hf)
    simp [ih ht] at this

/-- The parts of a begun command run to its completion, when HUF_ENCODE's region breaks no host duty (R67). -/
theorem Parts.run_next {k : Nat} {c : Instr} {s t : State} (hp : Parts k s t) (hb : Begun c s) (hfit : PacketsFit s)
    (hf : s.stage ≠ .idle → s.hostFault = false) (hc : c = .hufEncode → t.hostFault = false) :
    run k (s.withParts k) = .next (t.withAgenda []) := by
  induction hp with
  | done h => rfl
  | part h rest ih =>
    rw [run_part _ (hf h) hfit]
    refine ih (stageStep_begun hb) (stageStep_packetsFit hb hfit) (fun _ => ?_) hc
    by_cases he : c = .hufEncode
    · exact rest.hostFault_start (hc he)
    · exact (stageStep_regions hb he).hostFault.trans (hf h)

/-- Parts in which a host duty gets broken stop there (R38). -/
theorem Parts.run_fault {k : Nat} {c : Instr} {s t : State} (hp : Parts k s t) (hb : Begun c s) (hfit : PacketsFit s)
    (hf : s.stage = .idle → s.hostFault = false) (ht : t.hostFault = true) :
    run k (s.withParts k) = .fault .hostDutyBroken := by
  induction hp with
  | done h => simp [hf h] at ht
  | @part k s t h rest ih =>
    cases hs : s.hostFault with
    | true => exact run_part_fault k hs
    | false =>
      rw [run_part k hs hfit]
      exact ih (stageStep_begun hb) (stageStep_packetsFit hb hfit)
        (fun hi => (stageStep_hostFault_of_idle hb hi).trans hs) ht

/-- Settles O52: the first part is the command's start, every other one a stage step, and a run past a broken host duty
stops at its next part. -/
theorem partsMakeTheCommand : Obligations.PartsMakeTheCommand := by
  intro s hf hs ha
  have hi := isCommand_decodeOpcode s.op
  have hb := begin_begun hi s
  have hfit := begin_packetsFit hi s
  have hbegin := begin_of_issued hs
  obtain ⟨k, hk⟩ := exists_parts (begin (decodeOpcode s.op) s)
  have hfirst : run (k + 1) { s with agenda := List.replicate (k + 1) .corePart } =
      run k ((begin (decodeOpcode s.op) s).withParts k) := by
    rw [← hbegin]
    exact run_part k hf fun hr => by simp [hs] at hr
  refine ⟨k + 1, finish (begin (decodeOpcode s.op) s), exec_next hi s, ?_⟩
  dsimp only
  rw [hfirst]
  constructor
  · intro hc
    have hagenda : (finish (begin (decodeOpcode s.op) s)).agenda = [] :=
      ((begin_setting _ s).trans (runStages_setting _ _)).agenda.trans ha
    rw [hk.run_next hb hfit (fun hne => ?_) hc, State.withAgenda, ← hagenda]
    rw [← hbegin] at hne ⊢
    exact (stageStep_hostFault hne (by simp [hs])).trans hf
  · intro hc ht
    refine hk.run_fault hb hfit (fun _ => ?_) ht
    rw [hc]
    exact (beginHufEncode_regions s).hostFault.trans hf

end Sys2Proof.Machine
end

section
/-! SUPPORT. The encoding family: one reading for every byte, and the round trips of instructions and packets
(30_encoding.md R82 to R89). -/

namespace Sys2Proof.Machine

/-! ### The fields of a control byte -/

/-- `TYPE` is the bit above `COUNTM1` (R84). -/
theorem ctlType_append (t : Bool) (c : BitVec 7) : ctlType (BitVec.ofBool t ++ c) = t := by
  rw [ctlType, BitVec.getLsbD_append]
  simp

/-- `COUNTM1` is the low seven bits (R84). -/
theorem ctlCountM1_append (t : Bool) (c : BitVec 7) : ctlCountM1 (BitVec.ofBool t ++ c) = c := by
  rw [ctlCountM1, BitVec.setWidth_append]
  simp

/-- A control byte is its two fields: no bit of it is reserved (R84, R88). -/
theorem ctl_eq_append (ctl : Byte) : ctl = BitVec.ofBool (ctlType ctl) ++ ctlCountM1 ctl := by
  apply BitVec.eq_of_getLsbD_eq
  intro i hi
  rw [BitVec.getLsbD_append, ctlType, ctlCountM1, BitVec.getLsbD_setWidth, BitVec.getLsbD_ofBool]
  by_cases h : i < 7
  · simp [h]
  · obtain rfl : i = 7 := by omega
    simp

/-- The count is read off bits 6 to 0 (R87). -/
theorem packetCount_ctl (ctl : Byte) : packetCount (ctlCountM1 ctl) = ctl.toNat % 128 + 1 := by
  simp [packetCount, ctlCountM1]

theorem packetCount_range (c : BitVec 7) : 1 ≤ packetCount c ∧ packetCount c ≤ 128 := by
  have := c.isLt
  unfold packetCount
  omega

/-- The seven bits of a count less one are that count's own (R87). -/
theorem packetCount_ofNat {n : Nat} (h1 : 1 ≤ n) (h128 : n ≤ 128) : packetCount (BitVec.ofNat 7 (n - 1)) = n := by
  rw [packetCount, BitVec.toNat_ofNat, Nat.mod_eq_of_lt (by omega)]
  omega

theorem ofNat_packetCount (c : BitVec 7) : BitVec.ofNat 7 (packetCount c - 1) = c := by
  rw [packetCount, Nat.add_sub_cancel, BitVec.ofNat_toNat, BitVec.setWidth_eq]

/-! ### Instructions -/

theorem encodeByte_decodeOpcode (op : Byte) : encodeByte (decodeOpcode op) = op := by
  unfold decodeOpcode
  split
  case h_6 => rfl
  all_goals exact (BitVec.eq_of_toNat_eq ‹_›).symm

/-- What no opcode names is a reserved value (R83, R96). -/
theorem decodeOpcode_wf (op : Byte) : (decodeOpcode op).wf = true := by
  unfold decodeOpcode
  split
  case h_6 h1 h2 h3 h4 h5 =>
    have hnamed : op.toNat ≠ 1 ∧ op.toNat ≠ 2 ∧ op.toNat ≠ 3 ∧ op.toNat ≠ 4 ∧ op.toNat ≠ 5 := ⟨h1, h2, h3, h4, h5⟩
    simp only [Instr.wf, reservedOpcode, Bool.or_eq_true, beq_iff_eq, decide_eq_true_eq]
    omega
  all_goals rfl

theorem decodeOpcode_port (op : Byte) : (decodeOpcode op).port = .commandRegister :=
  eq_of_beq (isCommand_decodeOpcode op)

theorem encodeByte_decodeCtl (ctl : Byte) : encodeByte (decodeCtl ctl) = ctl := by
  have hctl := ctl_eq_append ctl
  unfold decodeCtl
  cases ht : ctlType ctl <;> rw [ht] at hctl <;> exact hctl.symm

theorem decodeCtl_wf (ctl : Byte) : (decodeCtl ctl).wf = true := by
  unfold decodeCtl
  split <;> rfl

theorem decodeCtl_port (ctl : Byte) : (decodeCtl ctl).port = .rleStream := by
  unfold decodeCtl
  split <;> rfl

/-- Settles O1, constructor by constructor. -/
theorem decodeOfEncode : Obligations.DecodeOfEncode := by
  intro i rest hw
  cases i with
  | rleEncode => exact Laws.RoundTrip.rleEncode hw rest
  | rleDecode => exact Laws.RoundTrip.rleDecode hw rest
  | hufEncode => exact Laws.RoundTrip.hufEncode hw rest
  | hufDecode => exact Laws.RoundTrip.hufDecode hw rest
  | hufRelease => exact Laws.RoundTrip.hufRelease hw rest
  | reservedOp op => exact Laws.RoundTrip.reservedOp op hw rest
  | lit c => exact Laws.RoundTrip.lit c hw rest
  | run c => exact Laws.RoundTrip.run c hw rest

/-- Settles O2: at the command register by the opcode, in the stream by the two fields of the control byte. -/
theorem encodeOfDecode : Obligations.EncodeOfDecode := by
  refine ⟨fun p b rest => ?_, fun _ => rfl⟩
  cases p with
  | commandRegister =>
    exact ⟨decodeOpcode b, rfl, decodeOpcode_wf b, decodeOpcode_port b,
      congrArg (fun x => [x]) (encodeByte_decodeOpcode b)⟩
  | rleStream =>
    exact ⟨decodeCtl b, rfl, decodeCtl_wf b, decodeCtl_port b, congrArg (fun x => [x]) (encodeByte_decodeCtl b)⟩

/-- Settles O3: each word is decoded. -/
theorem specWordsDecode : Obligations.SpecWordsDecode := by
  unfold Obligations.SpecWordsDecode
  decide

/-! ### Packets and their control bytes -/

theorem packet_wf_iff (p : Packet) : p.wf = true ↔ 1 ≤ p.count ∧ p.count ≤ 128 := by
  cases p <;> simp [Packet.wf, Packet.count]

/-- A packet's control byte holds `TYPE` and the count less one (R84, R87). -/
theorem packetCtl_eq_append (p : Packet) :
    packetCtl p = BitVec.ofBool p.isRun ++ BitVec.ofNat 7 (p.count - 1) := by cases p <;> rfl

theorem packetCtl_of_fields {p : Packet} {t : Bool} {n : Nat} (ht : p.isRun = t) (hn : p.count = n) :
    packetCtl p = BitVec.ofBool t ++ BitVec.ofNat 7 (n - 1) := by rw [packetCtl_eq_append, ht, hn]

theorem ctlType_packetCtl (p : Packet) : ctlType (packetCtl p) = p.isRun := by
  rw [packetCtl_eq_append, ctlType_append]

theorem packetCount_packetCtl {p : Packet} (h : p.wf = true) : packetCount (ctlCountM1 (packetCtl p)) = p.count := by
  obtain ⟨h1, h128⟩ := (packet_wf_iff p).1 h
  rw [packetCtl_eq_append, ctlCountM1_append, packetCount_ofNat h1 h128]

/-- `ctl = (TYPE << 7) | (count - 1)` (R87). -/
theorem packetCtl_toNat {p : Packet} (h : p.wf = true) :
    (packetCtl p).toNat = (if p.isRun then 1 <<< 7 else 0) ||| (p.count - 1) := by
  obtain ⟨h1, h128⟩ := (packet_wf_iff p).1 h
  rw [packetCtl_eq_append, BitVec.toNat_append, BitVec.toNat_ofNat, Nat.mod_eq_of_lt (by omega)]
  cases p.isRun <;> rfl

/-- The control byte of a packet read back into its fields is that of the packet so read (R87). -/
theorem packetCtl_eq {p : Packet} {ctl : Byte} (ht : p.isRun = ctlType ctl)
    (hc : p.count = packetCount (ctlCountM1 ctl)) : packetCtl p = ctl := by
  rw [packetCtl_of_fields ht hc, ofNat_packetCount, ← ctl_eq_append]

/-- Settles O4: the fields of a packet's control byte, then the six examples. -/
theorem controlByteCount : Obligations.ControlByteCount :=
  ⟨fun p h => ⟨packetCtl_toNat h, packetCount_packetCtl h, ctlType_packetCtl p⟩, packetCount_ctl,
    fun _ => packetCtl_of_fields (t := false) (n := 1) rfl rfl,
    fun _ => packetCtl_of_fields (t := false) (n := 128) rfl List.length_replicate,
    fun _ => packetCtl_of_fields (t := true) (n := 1) rfl rfl,
    fun _ => packetCtl_of_fields (t := true) (n := 3) rfl rfl,
    fun _ => packetCtl_of_fields (t := true) (n := 18) rfl rfl,
    fun _ => packetCtl_of_fields (t := true) (n := 128) rfl rfl⟩

/-! ### Packet streams -/

/-- A control byte of `TYPE` 1 takes the next byte as its value (R86). -/
theorem splitPacket_run {ctl : Byte} (ht : ctlType ctl = true) (value : Byte) (rest : List Byte) :
    splitPacket (ctl :: value :: rest) = some (.run (packetCount (ctlCountM1 ctl)) value, rest) := by
  simp [splitPacket, ht]

/-- A control byte of `TYPE` 0 takes as many bytes as it counts (R85). -/
theorem splitPacket_lit {ctl : Byte} (ht : ctlType ctl = false) {bytes : List Byte}
    (hc : packetCount (ctlCountM1 ctl) = bytes.length) (rest : List Byte) :
    splitPacket (ctl :: (bytes ++ rest)) = some (.lit bytes, rest) := by
  simp [splitPacket, ht, hc]

/-- The packet at the head of a stream is read back, whatever comes after it (R89). -/
theorem splitPacket_encode {p : Packet} (h : p.wf = true) (rest : List Byte) :
    splitPacket (p.encode ++ rest) = some (p, rest) := by
  have ht := ctlType_packetCtl p
  have hc := packetCount_packetCtl h
  cases p with
  | lit bytes => exact splitPacket_lit ht hc rest
  | run count value => exact (splitPacket_run ht value rest).trans (by rw [hc]; rfl)

/-- What `splitPacket` takes off a stream is a well-formed packet's encoding (R85 to R89). -/
theorem splitPacket_some {stream rest : List Byte} {p : Packet} (h : splitPacket stream = some (p, rest)) :
    p.wf = true ∧ p.encode ++ rest = stream := by
  suffices hp : ∃ ctl body, stream = ctl :: body ∧ p.isRun = ctlType ctl ∧
      p.count = packetCount (ctlCountM1 ctl) ∧ p.encode ++ rest = packetCtl p :: body by
    obtain ⟨ctl, body, rfl, ht, hc, he⟩ := hp
    exact ⟨(packet_wf_iff p).2 (hc ▸ packetCount_range _), he.trans (by rw [packetCtl_eq ht hc])⟩
  unfold splitPacket at h
  split at h
  · contradiction
  · rename_i ctl body
    refine ⟨ctl, body, rfl, ?_⟩
    dsimp only at h
    split at h
    · rename_i ht
      split at h
      · contradiction
      · obtain ⟨rfl, rfl⟩ := by simpa using h
        exact ⟨ht.symm, rfl, rfl⟩
    · rename_i ht
      split at h
      · rename_i hle
        obtain ⟨rfl, rfl⟩ := by simpa using h
        exact ⟨(Bool.eq_false_of_not_eq_true ht).symm, List.length_take_of_le hle,
          congrArg (packetCtl _ :: ·) (List.take_append_drop _ body)⟩
      · contradiction

theorem parsePackets_nil (fuel : Nat) : parsePackets fuel [] = some [] := by cases fuel <;> rfl

theorem encode_length_pos (p : Packet) : 0 < p.encode.length := Nat.succ_pos _

/-- Parsing takes off the packet at the head, then parses the rest (R88). -/
theorem parsePackets_of_split {fuel : Nat} {stream rest : List Byte} {p : Packet}
    (h : splitPacket stream = some (p, rest)) :
    parsePackets (fuel + 1) stream = (parsePackets fuel rest).map (p :: ·) := by
  cases stream with
  | nil => contradiction
  | cons ctl body => simp only [parsePackets, h]

/-- Enough fuel parses the encoding of well-formed packets. -/
theorem parsePackets_encodeStream {ps : List Packet} (hw : ∀ p ∈ ps, p.wf = true) {fuel : Nat}
    (hf : (encodeStream ps).length ≤ fuel) : parsePackets fuel (encodeStream ps) = some ps := by
  induction ps generalizing fuel with
  | nil => exact parsePackets_nil fuel
  | cons p ps ih =>
    obtain ⟨hp, hps⟩ := List.forall_mem_cons.1 hw
    have hpos := encode_length_pos p
    rw [encodeStream_cons, List.length_append] at hf
    obtain ⟨n, rfl⟩ : ∃ n, fuel = n + 1 := ⟨fuel - 1, by omega⟩
    rw [encodeStream_cons, parsePackets_of_split (splitPacket_encode hp _), ih hps (by omega)]
    rfl

/-- What parses is the empty stream, or a packet and a rest that parses (R88, R89). -/
theorem parsePackets_some {fuel : Nat} {bytes : List Byte} {ps : List Packet} (h : parsePackets fuel bytes = some ps) :
    (bytes = [] ∧ ps = []) ∨
      ∃ n p rest qs, splitPacket bytes = some (p, rest) ∧ parsePackets n rest = some qs ∧ ps = p :: qs := by
  cases bytes with
  | nil =>
    rw [parsePackets_nil] at h
    exact .inl ⟨rfl, (Option.some.inj h).symm⟩
  | cons ctl body =>
    cases fuel with
    | zero => contradiction
    | succ n =>
      cases hs : splitPacket (ctl :: body) with
      | none => simp [parsePackets, hs] at h
      | some taken =>
        obtain ⟨p, rest⟩ := taken
        rw [parsePackets_of_split hs] at h
        obtain ⟨qs, hqs, hps⟩ := Option.map_eq_some_iff.1 h
        exact .inr ⟨n, p, rest, qs, rfl, hqs, hps.symm⟩

/-- Whatever the fuel, what parses is the encoding of the packets it gives, and they are well formed. -/
theorem encodeStream_of_parsePackets {fuel : Nat} {bytes : List Byte} {ps : List Packet}
    (h : parsePackets fuel bytes = some ps) : (∀ p ∈ ps, p.wf = true) ∧ encodeStream ps = bytes := by
  induction ps generalizing fuel bytes with
  | nil =>
    obtain ⟨rfl, -⟩ | ⟨_, _, _, _, -, -, hnil⟩ := parsePackets_some h
    · exact ⟨nofun, rfl⟩
    · contradiction
  | cons p ps ih =>
    obtain ⟨-, hcons⟩ | ⟨n, p', rest, ps', hsplit, hrest, hps⟩ := parsePackets_some h
    · contradiction
    · obtain ⟨rfl, rfl⟩ := List.cons.inj hps
      obtain ⟨hp, hencode⟩ := splitPacket_some hsplit
      obtain ⟨hwf, hstream⟩ := ih hrest
      exact ⟨List.forall_mem_cons.2 ⟨hp, hwf⟩, by rw [encodeStream_cons, hstream, hencode]⟩

/-- Settles O5: one packet is read back at a time, and what is read is its encoding. -/
theorem packetStreamRoundTrip : Obligations.PacketStreamRoundTrip :=
  ⟨fun _ hw => parsePackets_encodeStream hw le_rfl, fun _ _ h => encodeStream_of_parsePackets h⟩

end Sys2Proof.Machine
end

section
/-! SUPPORT. The encoding family: the payload the packer writes, bit by bit (30_encoding.md R92, R94;
41_huffman_encode.md R151). -/

namespace Sys2Proof.Machine

/-- An entry appended to a list is read at its end, and changes nothing else. -/
theorem getD_concat {α : Type} (l : List α) (x d : α) (k : Nat) :
    (l ++ [x]).getD k d = if k = l.length then x else l.getD k d := by
  rcases Nat.lt_trichotomy k l.length with h | rfl | h
  · rw [if_neg h.ne, List.getD_append _ _ _ _ h]
  · simp
  · rw [if_neg h.ne', List.getD_eq_default _ _ h.le, List.getD_eq_default _ _ (by simpa using h)]

/-- A payload with a zero byte after its end reads the same. -/
theorem getD_append_zero (bytes : List Byte) (k : Nat) : (bytes ++ [0]).getD k 0 = bytes.getD k 0 := by
  rw [getD_concat]
  split
  · rename_i h
    exact (List.getD_eq_default _ _ h.ge).symm
  · rfl

/-! ### One push -/

/-- Byte `k` of the payload so far: the bytes written, then the one being filled, then nothing (R151). -/
def Packer.byte (p : Packer) (k : Nat) : Byte := (p.out ++ [p.acc]).getD k 0

/-- A push changes only the byte being filled (R151). -/
theorem byte_push (p : Packer) (bit : Bool) (k : Nat) :
    (p.push bit).byte k =
      if k = p.out.length ∧ bit = true then p.byte k ||| BitVec.twoPow 8 (7 - p.nacc) else p.byte k := by
  have hfilled : (p.push bit).byte k =
      (p.out ++ [if bit then p.acc ||| BitVec.twoPow 8 (7 - p.nacc) else p.acc]).getD k 0 := by
    unfold Packer.push Packer.byte
    dsimp only
    split
    · exact getD_append_zero _ k
    · rfl
  rw [hfilled, Packer.byte, getD_concat, getD_concat]
  by_cases hk : k = p.out.length <;> simp [hk]

/-- A push puts its bit at the next payload position and leaves the other positions alone (R92, R151). -/
theorem payloadBit_push {p : Packer} (hp : p.nacc < 8) (bit : Bool) (j : Nat) :
    payloadBit (p.push bit).byte j =
      (payloadBit p.byte j || (bit && decide (j = 8 * p.out.length + p.nacc))) := by
  have hplace : j = 8 * p.out.length + p.nacc ↔ j / 8 = p.out.length ∧ 7 - j % 8 = 7 - p.nacc := by omega
  have hbit : 7 - j % 8 < 8 := by omega
  unfold payloadBit
  rw [byte_push]
  by_cases hk : j / 8 = p.out.length <;> cases bit <;> simp [hplace, hk, hbit]

/-! ### All of them -/

/-- The packer after a list of bits, before the last byte is written (R151). -/
def packed (bits : List Bool) : Packer := bits.foldl Packer.push Packer.start

theorem packBits_eq (bits : List Bool) : packBits bits = (packed bits).flush := rfl

theorem packed_concat (bits : List Bool) (bit : Bool) : packed (bits ++ [bit]) = (packed bits).push bit :=
  List.foldl_append ..

/-- The packer's counters: it stands at the bit after those it was given (R45, R151). -/
theorem packed_counters (bits : List Bool) :
    (packed bits).nacc < 8 ∧ 8 * (packed bits).out.length + (packed bits).nacc = bits.length ∧
      (packed bits).bpos = bits.length := by
  obtain ⟨hnacc, hplace, hbpos⟩ := foldl_push bits .start (by decide) rfl
  rw [show Packer.start.bpos = 0 from rfl, Nat.zero_add] at hbpos
  exact ⟨hnacc, hplace.symm.trans hbpos, hbpos⟩

/-- Payload bit `j` is the `j`-th bit given to the packer, and 0 past the last (R92, R94). -/
theorem payloadBit_packed (bits : List Bool) (j : Nat) : payloadBit (packed bits).byte j = bits.getD j false := by
  induction bits using List.reverseRecOn with
  | nil =>
    have hzero : (packed []).byte (j / 8) = 0 := getD_append_zero [] (j / 8)
    simp [payloadBit, hzero]
  | append_singleton bits bit ih =>
    obtain ⟨hnacc, hplace, -⟩ := packed_counters bits
    rw [packed_concat, payloadBit_push hnacc, ih, hplace, getD_concat]
    by_cases h : j = bits.length <;> simp [h]

/-- An empty byte being filled is 0 (R151). -/
theorem packed_acc (bits : List Bool) (h : (packed bits).nacc = 0) : (packed bits).acc = 0 := by
  induction bits using List.reverseRecOn with
  | nil => rfl
  | append_singleton bits bit _ =>
    rw [packed_concat] at h ⊢
    unfold Packer.push at h ⊢
    dsimp only at h ⊢
    split at h
    · rw [if_pos ‹_›]
    · contradiction

/-- What is written out is what was packed (R151). -/
theorem packBits_byte (bits : List Bool) (k : Nat) : (packBits bits).out.getD k 0 = (packed bits).byte k := by
  rw [packBits_eq, Packer.flush]
  split
  · rfl
  · rw [Packer.byte, packed_acc bits (by omega), getD_append_zero]

theorem packBits_bpos (bits : List Bool) : (packBits bits).bpos = bits.length := by
  rw [packBits_eq, Packer.flush]
  split <;> exact (packed_counters bits).2.2

/-- The written payload holds the bits in order, then zeros (R92, R94). -/
theorem payloadBit_packBits (bits : List Bool) (j : Nat) :
    payloadBit (fun k => (packBits bits).out.getD k 0) j = bits.getD j false := by
  rw [← payloadBit_packed]
  exact congrArg (payloadBit · j) (funext (packBits_byte bits))

/-- Settles O34: the counters, the length, and the bits one by one. -/
theorem packerLayout : Obligations.PackerLayout := by
  intro bits
  refine ⟨packBits_bpos bits, packBits_length bits, fun j hj => ?_, fun j hj _ => ?_⟩
  · rw [payloadBit_packBits, List.getD_eq_getElem _ _ hj, List.getElem?_eq_getElem hj]
  · rw [payloadBit_packBits, List.getD_eq_default _ _ hj]

end Sys2Proof.Machine
end

section
/-! SUPPORT. The encoding family: the widths of register accesses (30_encoding.md R80, R81). -/

namespace Sys2Proof.Machine

/-! ### Offsets -/

/-- The upper half of a slot belongs to the slot's register (R81). -/
theorem regAt_upper {o : Nat} (ho : o % 8 = 0) : regAt (o + 4) = regAt o := by
  have hslot : (o + 4) / 8 = o / 8 := by omega
  simp only [regAt, hslot]

theorem reachesLow_lower {o : Nat} (ho : o % 8 = 0) : reachesLow o = true := by simp [reachesLow, ho]

theorem reachesLow_upper {o : Nat} (ho : o % 8 = 0) : reachesLow (o + 4) = false := by
  simp only [reachesLow, beq_eq_false_iff_ne]
  omega

/-- From 0x50 on the slots are reserved (R80). -/
theorem regAt_reserved {o : Nat} (ho : 0x50 ≤ o) : regAt o = .reserved := by
  obtain ⟨n, hn⟩ : ∃ n, o / 8 = n + 10 := ⟨o / 8 - 10, by omega⟩
  simp only [regAt, hn]

theorem legalAccess_iff (width offset : Nat) : legalAccess width offset = true ↔
    offset < 0x60 ∧ ((width = 64 ∧ 8 ∣ offset) ∨ (width = 32 ∧ 4 ∣ offset)) := by
  simp [legalAccess, Nat.dvd_iff_mod_eq_zero]

/-- Both halves of a slot of the block are legal 32-bit accesses (R81). -/
theorem legalAccess_halves {o : Nat} (ho : o % 8 = 0) (hb : o < 0x60) :
    legalAccess 32 o = true ∧ legalAccess 32 (o + 4) = true := by
  rw [legalAccess_iff, legalAccess_iff]
  omega

/-! ### Halves of a slot -/

theorem toNat_append_halves (hi lo : BitVec 32) : (hi ++ lo : Slot).toNat = hi.toNat * 2 ^ 32 + lo.toNat := by
  rw [BitVec.toNat_append, ← Nat.shiftLeft_add_eq_or_of_lt lo.isLt, Nat.shiftLeft_eq]

theorem toNat_lowerHalf (v : Slot) : (v.extractLsb' 0 32).toNat = v.toNat % 2 ^ 32 := by
  rw [BitVec.extractLsb'_toNat, Nat.shiftRight_zero]

theorem toNat_upperHalf (v : Slot) : (v.extractLsb' 32 32).toNat = v.toNat / 2 ^ 32 := by
  have := v.isLt
  rw [BitVec.extractLsb'_toNat, Nat.shiftRight_eq_div_pow]
  omega

/-- A 32-bit write at a slot's offset changes bits 31 to 0 (R81). -/
theorem mergeWrite_lower {o : Nat} (ho : o % 8 = 0) (old v : Slot) :
    (mergeWrite 32 o old v).toNat = old.toNat / 2 ^ 32 * 2 ^ 32 + v.toNat % 2 ^ 32 := by
  have hmerge : mergeWrite 32 o old v = old.extractLsb' 32 32 ++ v.extractLsb' 0 32 := by
    simp [mergeWrite, reachesLow_lower ho]
  rw [hmerge, toNat_append_halves, toNat_upperHalf, toNat_lowerHalf]

/-- A 32-bit write four bytes on changes bits 63 to 32 (R81). -/
theorem mergeWrite_upper {o : Nat} (ho : o % 8 = 0) (old v : Slot) :
    (mergeWrite 32 (o + 4) old v).toNat = v.toNat % 2 ^ 32 * 2 ^ 32 + old.toNat % 2 ^ 32 := by
  have hmerge : mergeWrite 32 (o + 4) old v = v.extractLsb' 0 32 ++ old.extractLsb' 0 32 := by
    simp [mergeWrite, reachesLow_upper ho]
  rw [hmerge, toNat_append_halves, toNat_lowerHalf, toNat_lowerHalf]

/-- A 32-bit read at a slot's offset gives its bits 31 to 0 (R81). -/
theorem readReg_lower (s : State) {o : Nat} (ho : o % 8 = 0) :
    (s.readReg 32 o).toNat = (s.readReg 64 o).toNat % 2 ^ 32 := by
  have hread : s.readReg 32 o = ((s.slot (regAt o)).extractLsb' 0 32).setWidth 64 := by
    simp [State.readReg, reachesLow_lower ho]
  rw [hread, slot_toNat _ (by decide), toNat_lowerHalf, readReg_whole]

/-- A 32-bit read four bytes on gives its bits 63 to 32 (R81). -/
theorem readReg_upper (s : State) {o : Nat} (ho : o % 8 = 0) :
    (s.readReg 32 (o + 4)).toNat = (s.readReg 64 o).toNat / 2 ^ 32 := by
  have hread : s.readReg 32 (o + 4) = ((s.slot (regAt o)).extractLsb' 32 32).setWidth 64 := by
    simp [State.readReg, reachesLow_upper ho, regAt_upper ho]
  rw [hread, slot_toNat _ (by decide), toNat_upperHalf, readReg_whole]

/-! ### Operand registers -/

/-- The width of an operand register in bits (R24 to R28); no other register keeps what is written to it. -/
def Reg.operandWidth : Reg → Nat
  | .srcBase | .srcLen | .dstBase | .dstCap => 32
  | .srcBits => 35
  | .cmd | .status | .resLen | .resBits | .resBase | .reserved => 0

/-- An operand register's slot is no larger than the register (R80). -/
theorem slot_lt (s : State) {r : Reg} (hr : r.operandWidth ≠ 0) : (s.slot r).toNat < 2 ^ r.operandWidth := by
  cases r
  case srcBase | srcLen | srcBits | dstBase | dstCap =>
    exact (slot_toNat _ (by decide)).trans_lt (BitVec.isLt _)
  all_goals contradiction

/-- An idle core's operand register keeps its width of the merged slot, and reads back so (R34, R81). -/
theorem slot_writeReg {s : State} (hb : s.status.busy = false) {o : Nat} (hr : (regAt o).operandWidth ≠ 0)
    (width : Nat) (v : Slot) :
    ((s.writeReg width o v).slot (regAt o)).toNat =
      (mergeWrite width o (s.slot (regAt o)) v).toNat % 2 ^ (regAt o).operandWidth := by
  have hread (regs : Operands) : State.visibleOperands { s with regs := regs } = regs := visibleOperands_idle hb
  unfold State.writeReg
  dsimp only
  cases h : regAt o
  case srcBase | srcLen | srcBits | dstBase | dstCap =>
    simp only [State.slot, hread, Reg.operandWidth]
    exact slot_toNat_of_kept (by decide) _
  all_goals
    rw [h] at hr
    contradiction

/-- A 32-bit write to an operand register changes its half of the slot, then the register's width truncates (R81). -/
theorem slot_hostWrite_halves {s : State} (hb : s.status.busy = false) {o : Nat} (ho : o % 8 = 0)
    (hr : (regAt o).operandWidth ≠ 0) (v : Slot) :
    ((hostWrite 32 o v s).slot (regAt o)).toNat =
        ((s.slot (regAt o)).toNat / 2 ^ 32 * 2 ^ 32 + v.toNat % 2 ^ 32) % 2 ^ (regAt o).operandWidth ∧
      ((hostWrite 32 (o + 4) v s).slot (regAt o)).toNat =
        (v.toNat % 2 ^ 32 * 2 ^ 32 + (s.slot (regAt o)).toNat % 2 ^ 32) % 2 ^ (regAt o).operandWidth := by
  have hblock : o < 0x60 := by
    by_contra h
    exact hr (by rw [regAt_reserved (by omega)]; rfl)
  obtain ⟨hlower, hupper⟩ := legalAccess_halves ho hblock
  have hreg := regAt_upper ho
  constructor
  · rw [hostWrite_idle hb v hlower, slot_writeReg hb hr, mergeWrite_lower ho]
  · rw [hostWrite_idle hb v hupper, ← hreg, slot_writeReg hb (by rwa [hreg]), mergeWrite_upper ho]

/-- A 32-bit operand register fills the lower half of its slot: a write there replaces it, one above it has no effect
on it (R81). -/
theorem slot_hostWrite_word {s : State} (hb : s.status.busy = false) {o : Nat} (ho : o % 8 = 0)
    (hr : (regAt o).operandWidth = 32) (v : Slot) :
    ((hostWrite 32 o v s).slot (regAt o)).toNat = v.toNat % 2 ^ 32 ∧
      ((hostWrite 32 (o + 4) v s).slot (regAt o)).toNat = (s.slot (regAt o)).toNat := by
  obtain ⟨hlower, hupper⟩ := slot_hostWrite_halves hb ho (by simp [hr]) v
  have hlt := slot_lt s (r := regAt o) (by simp [hr])
  rw [hr] at hlower hupper hlt
  omega

/-! ### What a write leaves unchanged -/

/-- Only a write to `CMD`'s own offset issues (R81, R210). -/
theorem hostWrite_elsewhere (s : State) {width offset : Nat} (v : Slot) (h : offset ≠ 0x00) :
    (hostWrite width offset v s).status = s.status ∧ (hostWrite width offset v s).stage = s.stage ∧
      (hostWrite width offset v s).op = s.op := by
  obtain he | he | ⟨-, ⟨h0, -⟩ | ⟨regs, he⟩⟩ := hostWrite_cases width offset v s
  · rw [he]; exact ⟨rfl, rfl, rfl⟩
  · rw [he]; exact ⟨rfl, rfl, rfl⟩
  · contradiction
  · rw [he]; exact ⟨rfl, rfl, rfl⟩

/-- The reserved slots ignore writes and read as 0 (R80). -/
theorem reserved_access (s : State) {width offset : Nat} (v : Slot) (ho : 0x50 ≤ offset)
    (hl : legalAccess width offset = true) : hostWrite width offset v s = s ∧ s.readReg width offset = 0 := by
  have hr := regAt_reserved ho
  constructor
  · cases hb : s.status.busy with
    | true => exact hostWrite_busy hb v hl
    | false => simp only [hostWrite_idle hb v hl, State.writeReg, hr]
  · simp only [State.readReg, hr, State.slot]
    split
    · rfl
    · split <;> rfl

/-- A refused access sets HOSTFAULT and does nothing else (R81; notes/assumptions/22.md). -/
theorem refused_access (s : State) {width offset : Nat} (v : Slot) (h : legalAccess width offset = false) :
    hostWrite width offset v s = { s with hostFault := true } ∧
      hostRead width offset s = { s with hostFault := true } := by
  simp [hostWrite, hostRead, h]

/-- Settles O8: a write to an idle core is the register's own arm of `writeReg` on the merged slot, and a read the half
the offset names. -/
theorem registerAccessWidths : Obligations.RegisterAccessWidths := by
  refine ⟨fun s v hb => ?_, fun s _ _ v h => hostWrite_elsewhere s v h,
    fun s o ho => ⟨readReg_lower s ho, readReg_upper s ho⟩, fun s width offset h => if_pos h,
    fun s _ _ v ho hl => reserved_access s v ho hl, legalAccess_iff, fun s _ _ v h => refused_access s v h⟩
  have hw {width offset : Nat} (hl : legalAccess width offset = true) := hostWrite_idle hb v hl
  have hword {o : Nat} (ho : o % 8 = 0) (hr : (regAt o).operandWidth = 32) := slot_hostWrite_word hb ho hr v
  obtain ⟨hlower, hupper⟩ := slot_hostWrite_halves hb (o := 0x20) rfl (by decide) v
  simp only [List.forall_mem_cons, List.not_mem_nil, false_imp_iff, implies_true, and_true]
  exact ⟨⟨hword rfl rfl, hword rfl rfl, hword rfl rfl, hword rfl rfl⟩, hlower, hupper,
    ⟨⟨_, hw rfl⟩, _, hw rfl⟩, ⟨⟨_, hw rfl⟩, _, hw rfl⟩, ⟨⟨_, hw rfl⟩, _, hw rfl⟩, ⟨⟨_, hw rfl⟩, _, hw rfl⟩,
    ⟨⟨_, hw rfl⟩, _, hw rfl⟩, (hw rfl).trans (hw rfl).symm, congrArg State.status (hw rfl), hw rfl⟩

end Sys2Proof.Machine
end

section
/-! SUPPORT. The RLE family: what one packet does to the running RLE_DECODE (40_rle.md R121 to R124), and which
instruction a step runs (R120, 43_control.md R210). -/

namespace Sys2Proof.Machine

/-! ### Shared operations -/

/-- A store changes its own bytes alone (R63). -/
theorem store_outside_bytes (s : State) (a : Nat) (bs : List Byte) : SameOutside [⟨a, bs.length⟩] s (s.store a bs) :=
  fun _ hb => Memory.read_writeBytes_outside _ _ _ _ ((Window.has_false_iff _ _).1 (hb _ (List.mem_singleton.2 rfl)))

/-- What a failure is to the host: the error with all results 0, and its frame (R222). -/
theorem fail_effect (s : State) (c : Instr) (d : Detail) :
    Completed (s.fail c d) d ⟨0, 0, 0⟩ ∧ SameOutside [s.latched.dst] s (s.fail c d) ∧ SameSetting s (s.fail c d) ∧
      SameRegions s (s.fail c d) :=
  ⟨⟨rfl, rfl, rfl⟩, fail_outside s c d, fail_setting s c d, fail_regions s c d⟩

/-! ### The tests of a packet -/

section
variable {s : State} {payload count : Nat} {go : State → State}

theorem guardPacket_truncated (h : s.latched.srcLen.toNat < s.work.rleDec.ipos.toNat + 1 + payload) :
    guardPacket s payload count go = s.fail .rleDecode .rleTruncated := if_pos h

theorem guardPacket_framed (hi : s.work.rleDec.ipos.toNat + 1 + payload ≤ s.latched.srcLen.toNat) :
    guardPacket s payload count go =
      if s.latched.dstCap.toNat < s.work.rleDec.opos.toNat + count then s.fail .rleDecode .outCapacity else go s :=
  if_neg (Nat.not_lt.2 hi)

theorem guardPacket_overflows (hi : s.work.rleDec.ipos.toNat + 1 + payload ≤ s.latched.srcLen.toNat)
    (ho : s.latched.dstCap.toNat < s.work.rleDec.opos.toNat + count) :
    guardPacket s payload count go = s.fail .rleDecode .outCapacity := (guardPacket_framed hi).trans (if_pos ho)

theorem guardPacket_passes (hi : s.work.rleDec.ipos.toNat + 1 + payload ≤ s.latched.srcLen.toNat)
    (ho : s.work.rleDec.opos.toNat + count ≤ s.latched.dstCap.toNat) : guardPacket s payload count go = go s :=
  (guardPacket_framed hi).trans (if_neg (Nat.not_lt.2 ho))

end

theorem inWindows_inSpace {s : State} (hs : s.latched.src.inSpace = true) (hd : s.latched.dst.inSpace = true)
    (go : State → State) : inWindows s go = .next (go s) := by simp [inWindows, hs, hd]

theorem inWindows_outside {s : State} (h : (s.latched.src.inSpace && s.latched.dst.inSpace) = false)
    (go : State → State) : inWindows s go = .fault .outsideMemory := by simp [inWindows, h]

/-! ### The effect of a packet -/

/-- The effect of a packet that decodes to the `count` bytes `bytes` and ends at `pos` of the stream (R121, R122). -/
def PacketEffect (s t : State) (pos count : Nat) (bytes : List Byte) : Prop :=
  t.mem.readBytes (s.latched.dstBase.toNat + s.work.rleDec.opos.toNat) count = bytes ∧
  SameOutside [⟨s.latched.dstBase.toNat + s.work.rleDec.opos.toNat, count⟩] s t ∧
  t.work.rleDec.ipos.toNat = pos ∧ t.work.rleDec.opos.toNat = s.work.rleDec.opos.toNat + count ∧
  t.work = { s.work with rleDec := { s.work.rleDec with ipos := t.work.rleDec.ipos, opos := t.work.rleDec.opos } } ∧
  t.status = s.status ∧ t.res = s.res ∧ t.stage = s.stage ∧ SameSetting s t ∧ SameRegions s t

theorem advanceDecoder_effect {s : State} {size count pos : Nat} {bytes : List Byte} (hlen : bytes.length = count)
    (hpos : s.work.rleDec.ipos.toNat + size = pos) (hi : pos ≤ s.latched.srcLen.toNat)
    (ho : s.work.rleDec.opos.toNat + count ≤ s.latched.dstCap.toNat) :
    PacketEffect s (advanceDecoder s size bytes) pos count bytes := by
  subst hlen hpos
  exact ⟨Memory.readBytes_writeBytes _ _ _, store_outside_bytes s _ bytes, ofNat_toNat_of_le s.latched.srcLen hi,
    ofNat_toNat_of_le s.latched.dstCap ho, rfl, rfl, rfl, rfl, by constructor <;> rfl, by constructor <;> rfl⟩

/-- Settles O25: past its tests LIT is `advanceDecoder` over the payload's bytes. -/
theorem litCopies : Obligations.LitCopies := fun _ _ hs hd hi ho =>
  ⟨_, (inWindows_inSpace hs hd _).trans (congrArg Host.Outcome.next (guardPacket_passes hi ho)),
    advanceDecoder_effect (Memory.length_readBytes _ _ _) (Nat.add_assoc _ _ _).symm hi ho⟩

/-- Settles O26: past its tests RUN is `advanceDecoder` over the repeated byte. -/
theorem runRepeats : Obligations.RunRepeats := fun _ _ hs hd hi ho =>
  ⟨_, (inWindows_inSpace hs hd _).trans (congrArg Host.Outcome.next (guardPacket_passes hi ho)),
    advanceDecoder_effect List.length_replicate rfl hi ho⟩

/-- Settles O27: each failing test is a failure of RLE_DECODE, and windows that do not fit stop both packets. -/
theorem packetFailures : Obligations.PacketFailures := by
  intro countM1 s count d fails
  have hfails {i : Instr} {detail : Detail} (h : exec i s = .next (s.fail .rleDecode detail)) : fails i detail :=
    ⟨_, h, fail_effect s .rleDecode detail⟩
  refine ⟨fun hs hd => ?_, fun h => ⟨inWindows_outside h _, inWindows_outside h _⟩⟩
  have hexec {go : State → State} {detail : Detail} (h : go s = s.fail .rleDecode detail) :
      inWindows s go = .next (s.fail .rleDecode detail) := h ▸ inWindows_inSpace hs hd go
  exact ⟨fun hi => hfails (hexec (guardPacket_truncated hi)), fun hi => hfails (hexec (guardPacket_truncated hi)),
    fun hi ho => hfails (hexec (guardPacket_overflows hi ho)),
    fun hi ho => hfails (hexec (guardPacket_overflows hi ho))⟩

/-! ### The instruction a step runs -/

/-- A step with no event left is the core's turn, when no host duty is broken (R262, R38). -/
theorem step_coreTurn {s : State} (hf : s.hostFault = false) (ha : s.agenda = []) : step s = coreTurn s := by
  simp [step, takeTurn, hostGuard, ha, hf]

/-- The core's turn of an issued command runs it (R210). -/
theorem coreTurn_issued {s : State} (hs : s.stage = .issued) : coreTurn s = exec (decodeOpcode s.op) s := by
  simp [coreTurn, hs]

/-- A part of a running RLE_DECODE with stream left runs its next packet (R120). -/
theorem corePart_packet {s : State} (hs : s.stage = .rleDecode)
    (hi : s.work.rleDec.ipos.toNat < s.latched.srcLen.toNat) :
    corePart s = exec (decodeCtl (ctlAt s)) (fetchCtl s) := if_pos ⟨hs, decide_eq_true hi⟩

/-- Settles O51: the core's turn, from the end of the agenda or from an event, and a part of RLE_DECODE. -/
theorem stepRunsInstruction : Obligations.StepRunsInstruction :=
  ⟨fun _ hf hs ha => (step_coreTurn hf ha).trans (coreTurn_issued hs),
    fun _ _ hf hs ha => (step_head hf ha).trans (coreTurn_issued hs),
    fun _ _ hf hs ha hi => (step_head hf ha).trans (corePart_packet hs hi)⟩

end Sys2Proof.Machine
end

section
/-! SUPPORT. The RLE family: the packets of an input and the shapes they have (40_rle.md R110 to R118). -/

namespace Sys2Proof.Machine

/-! ### Runs and literals -/

/-- A run that is there is measured, up to `MAX_RUN` (R110). -/
theorem le_runLen_replicate {n : Nat} (hn : n ≤ 128) (v : Byte) (rest : List Byte) :
    n ≤ runLen (List.replicate n v ++ rest) := by
  cases n with
  | zero => exact Nat.zero_le _
  | succ n =>
    have hrun : List.replicate n v <+: ((List.replicate n v ++ rest).take (Config.maxRun - 1)).takeWhile (· == v) := by
      have hroom : (List.replicate n v).length ≤ Config.maxRun - 1 :=
        List.length_replicate.trans_le (Nat.le_of_succ_le_succ hn)
      rw [List.take_append, List.take_of_length_le hroom, List.takeWhile_append_of_pos (by simp)]
      exact List.prefix_append _ _
    have hlen := hrun.length_le
    rw [List.length_replicate] at hlen
    rw [List.replicate_succ, List.cons_append, runLen]
    omega

/-- No run that qualifies starts at a byte a Literal takes (R115). -/
theorem runLen_drop_of_lt_litLen {room k : Nat} {input : List Byte} (hk : k < litLen room input) :
    runLen (input.drop k) < 3 := by
  induction room generalizing input k with
  | zero => simp [litLen] at hk
  | succ room ih =>
    cases input with
    | nil => simp [litLen] at hk
    | cons v rest =>
      simp only [litLen] at hk
      split at hk
      · contradiction
      · rename_i hrun
        cases k with
        | zero => exact Nat.not_le.1 hrun
        | succ k =>
          rw [List.drop_succ_cons]
          exact ih (by omega)

/-- A Literal that is not full ends before a run that qualifies, or at the end of input (R115). -/
theorem stop_of_litLen_lt {room : Nat} {input : List Byte} (h : litLen room input < room) :
    input.drop (litLen room input) = [] ∨ 3 ≤ runLen (input.drop (litLen room input)) := by
  induction room generalizing input with
  | zero => contradiction
  | succ room ih =>
    cases input with
    | nil => exact .inl rfl
    | cons v rest =>
      simp only [litLen] at h ⊢
      split at h
      · rename_i hrun
        rw [if_pos hrun]
        exact .inr hrun
      · rename_i hrun
        rw [if_neg hrun, Nat.add_comm, List.drop_succ_cons]
        exact ih (by omega)

/-- What a Run packet says of the input it heads (R110, R114). -/
theorem nextPacket_run {input : List Byte} {n : Nat} {v : Byte} (h : nextPacket input = .run n v) :
    3 ≤ n ∧ runLen input = n := by
  unfold nextPacket at h
  split at h
  · obtain ⟨rfl, -⟩ := Packet.run.inj h
    exact ⟨‹_›, rfl⟩
  · contradiction

/-- What a Literal packet says of the input it heads (R114, R115). -/
theorem nextPacket_lit {input bytes : List Byte} (h : nextPacket input = .lit bytes) :
    runLen input < 3 ∧ bytes.length = litLen 128 input := by
  unfold nextPacket at h
  split at h
  · contradiction
  · rename_i hrun
    obtain rfl := Packet.lit.inj h
    exact ⟨Nat.not_le.1 hrun, List.length_take_of_le (litLen_le_length _ _)⟩

/-- What comes after a Literal: after one that is not full, nothing or a run that qualifies (R115). -/
theorem lit_full_or_stops {bytes rest : List Byte} (h : nextPacket (bytes ++ rest) = .lit bytes) :
    bytes.length = 128 ∨ rest = [] ∨ 3 ≤ runLen rest := by
  have hlen := (nextPacket_lit h).2
  by_cases hfull : bytes.length = 128
  · exact .inl hfull
  · have hroom := litLen_le_room 128 (bytes ++ rest)
    have hstop := stop_of_litLen_lt (room := 128) (input := bytes ++ rest) (by omega)
    rw [← hlen, List.drop_left] at hstop
    exact .inr hstop

/-! ### The packets of an input -/

/-- The packets partition the input (R118, R125). -/
theorem flatMap_span_rlePackets (input : List Byte) : (rlePackets input).flatMap Packet.span = input := by
  induction hn : input.length using Nat.strong_induction_on generalizing input with
  | _ n ih =>
    by_cases hne : input = []
    · subst hne; rfl
    · have hlen := List.length_pos_of_ne_nil hne
      have hpos := nextPacket_span_pos hne
      rw [rlePackets_cons hne, List.flatMap_cons,
        ih _ (by rw [List.length_drop]; omega) (input.drop (nextPacket input).span.length) rfl]
      conv_lhs => rw [nextPacket_span input]
      rw [List.length_take_of_le (nextPacket_span_le input), List.take_append_drop]

/-- The first packet of an input is the next one, and the others are those of the rest (R111). -/
theorem rlePackets_eq_cons {input : List Byte} {p : Packet} {ps : List Packet} (h : rlePackets input = p :: ps) :
    input ≠ [] ∧ nextPacket input = p ∧ rlePackets (input.drop p.span.length) = ps := by
  by_cases hne : input = []
  · subst hne; contradiction
  · rw [rlePackets_cons hne] at h
    obtain ⟨rfl, hps⟩ := List.cons.inj h
    exact ⟨hne, rfl, hps⟩

/-- A packet of an input is the next one of what was left of it, and the packets after it are those of the rest
(R111). -/
theorem rlePackets_at {input : List Byte} {before after : List Packet} {p : Packet}
    (h : rlePackets input = before ++ p :: after) :
    p.span ++ after.flatMap Packet.span ≠ [] ∧ nextPacket (p.span ++ after.flatMap Packet.span) = p ∧
      rlePackets (after.flatMap Packet.span) = after := by
  induction before generalizing input with
  | nil =>
    obtain ⟨hne, hp, hafter⟩ := rlePackets_eq_cons h
    have hinput : p.span ++ after.flatMap Packet.span = input := by
      rw [← List.flatMap_cons, ← List.nil_append (p :: after), ← h, flatMap_span_rlePackets]
    have hrest : after.flatMap Packet.span = input.drop p.span.length := by rw [← hafter, flatMap_span_rlePackets]
    exact ⟨hinput ▸ hne, hinput ▸ hp, hrest ▸ hafter⟩
  | cons q before ih => exact ih (rlePackets_eq_cons h).2.2

/-- The encoder's packets are well formed (R118). -/
theorem rlePackets_wf {input : List Byte} {p : Packet} (h : p ∈ rlePackets input) : p.wf = true := by
  obtain ⟨before, after, hsplit⟩ := List.append_of_mem h
  obtain ⟨hne, hp, -⟩ := rlePackets_at hsplit
  exact hp ▸ nextPacket_wf hne

/-! ### The shapes -/

theorem run_shape {input : List Byte} {n : Nat} {v : Byte} (h : .run n v ∈ rlePackets input) : 3 ≤ n ∧ n ≤ 128 := by
  obtain ⟨before, after, hsplit⟩ := List.append_of_mem h
  obtain ⟨hmin, hlen⟩ := nextPacket_run (rlePackets_at hsplit).2.1
  exact ⟨hmin, hlen ▸ runLen_le_max _⟩

/-- No run of 3 or more starts inside a Literal, however far it reaches (R115). -/
theorem runLen_inside_lit {input taken left : List Byte} {before after : List Packet}
    (h : rlePackets input = before ++ .lit (taken ++ left) :: after) (hl : left ≠ []) :
    runLen (left ++ after.flatMap Packet.span) < 3 := by
  obtain ⟨-, hp, -⟩ := rlePackets_at h
  have hlen := (nextPacket_lit hp).2
  have hpos := List.length_pos_of_ne_nil hl
  rw [List.length_append] at hlen
  have hdrop := runLen_drop_of_lt_litLen (room := 128) (k := taken.length)
    (input := (taken ++ left) ++ after.flatMap Packet.span) (by simp only [Packet.span] at hlen; omega)
  rwa [List.append_assoc, List.drop_left] at hdrop

/-- Three equal bytes do not start inside a Literal, even where they end past it. -/
theorem no_triple_inside_lit {input taken left : List Byte} {before after : List Packet}
    (h : rlePackets input = before ++ .lit (taken ++ left) :: after) (hl : left ≠ []) (v : Byte) (rest : List Byte) :
    left ++ after.flatMap Packet.span ≠ List.replicate 3 v ++ rest := fun heq =>
  absurd (heq ▸ runLen_inside_lit h hl) (Nat.not_lt.2 (le_runLen_replicate (by decide) v rest))

/-- Settles O20: each packet is the next one of what was left of the input, where `runLen` and `litLen` measured it. -/
theorem rleEncoderShapes : Obligations.RleEncoderShapes := by
  intro input
  refine ⟨flatMap_span_rlePackets input, fun n v => run_shape, fun bytes hmem => ?_, ?_, ?_, ?_, ?_⟩
  · have hwf := rlePackets_wf hmem
    simp only [Packet.wf, Bool.and_eq_true, decide_eq_true_eq] at hwf
    refine ⟨hwf.1, hwf.2, ?_⟩
    rintro taken v rest rfl
    obtain ⟨before, after, hsplit⟩ := List.append_of_mem hmem
    rw [List.append_assoc] at hsplit
    exact no_triple_inside_lit hsplit (by simp) v (rest ++ after.flatMap Packet.span) (by simp [List.replicate])
  · intro before bytes n v after h hlast
    rw [List.append_assoc] at h
    obtain ⟨taken, rfl⟩ := List.getLast?_eq_some_iff.1 hlast
    obtain ⟨m, rfl⟩ : ∃ m, n = m + 2 := by
      have := (run_shape (input := input) (n := n) (v := v) (by simp [h])).1
      exact ⟨n - 2, by omega⟩
    exact no_triple_inside_lit h (by simp) v (List.replicate m v ++ after.flatMap Packet.span)
      (by simp [Packet.span, List.replicate_succ])
  · intro before bytes bytes' after h
    simp only [List.append_assoc, List.cons_append, List.nil_append] at h
    obtain ⟨-, hp, hafter⟩ := rlePackets_at h
    obtain ⟨hne, hp', -⟩ := rlePackets_at (before := []) hafter
    rcases lit_full_or_stops hp with hfull | hnil | hrun
    · exact hfull
    · exact absurd hnil hne
    · exact absurd (nextPacket_lit hp').1 (Nat.not_lt.2 hrun)
  · intro before n v after h hn hhead
    simp only [List.append_assoc, List.cons_append, List.nil_append] at h
    obtain ⟨rest, hrest⟩ := List.head?_eq_some_iff.1 hhead
    obtain ⟨-, hp, -⟩ := rlePackets_at h
    have hlen := (nextPacket_run hp).2
    have hlonger := le_runLen_replicate (n := n + 1) hn v rest
    rw [List.replicate_succ', List.append_assoc, List.singleton_append, ← hrest] at hlonger
    simp only [Packet.span] at hlen
    omega
  · intro before taken left after h hl
    rw [List.append_assoc] at h
    exact runLen_inside_lit h hl

end Sys2Proof.Machine
end

section
/-! SUPPORT. The RLE family: a command that takes one packet a step, from its start to its completion (40_rle.md R111,
R120), and RLE_DECODE as such a loop (R120 to R126). -/

namespace Sys2Proof.Machine

/-! ### Packet loops -/

/-- A running command has written `bs` at offset `o` of its destination window, and its working state is `w`. -/
def State.written (s : State) (o : Nat) (bs : List Byte) (w : Work) : State :=
  { s.store (s.latched.dstBase.toNat + o) bs with work := w }

section
variable (s : State) (o : Nat) (bs : List Byte) (w : Work)

@[simp] theorem State.written_latched : (s.written o bs w).latched = s.latched := rfl
@[simp] theorem State.written_work : (s.written o bs w).work = w := rfl
@[simp] theorem State.written_stage : (s.written o bs w).stage = s.stage := rfl
@[simp] theorem State.written_mem :
    (s.written o bs w).mem = s.mem.writeBytes (s.latched.dstBase.toNat + o) bs := rfl

theorem State.written_written (cs : List Byte) (w' : Work) :
    (s.written o bs w).written (o + bs.length) cs w' = s.written o (bs ++ cs) w' := by
  simp only [State.written, State.store, Memory.writeBytes_append, Nat.add_assoc]

end

/-- An RLE command's whole effect when its output fits: the bytes `out`, handed over (R116, R126). -/
def State.delivered (s : State) (out : List Byte) : State :=
  (s.store s.latched.dstBase.toNat out).succeed out.length 0 0

theorem delivered_effect (s : State) (out : List Byte) :
    Completed (s.delivered out) .none ⟨BitVec.ofNat 32 out.length, 0, 0⟩ ∧
      (s.delivered out).mem.readBytes s.latched.dstBase.toNat out.length = out ∧
      SameOutside [⟨s.latched.dstBase.toNat, out.length⟩] s (s.delivered out) ∧ SameSetting s (s.delivered out) ∧
      SameRegions s (s.delivered out) :=
  ⟨⟨rfl, rfl, rfl⟩, Memory.readBytes_writeBytes _ _ _, store_outside_bytes s _ out, by constructor <;> rfl,
    by constructor <;> rfl⟩

/-- A command that takes one packet a step: with `ps` ahead and `o` bytes written, which `Ahead s o ps` says, a step
writes what `out` makes of the next packet, or fails for want of capacity (R112, R124). -/
structure PacketLoop (c : Instr) (out : Packet → List Byte) (Ahead : State → Nat → List Packet → Prop) : Prop where
  running {s : State} {o : Nat} {ps : List Packet} : Ahead s o ps → s.stage ≠ .idle
  writes {s : State} {o : Nat} {p : Packet} {ps : List Packet} : Ahead s o (p :: ps) →
    o + (out p).length ≤ s.latched.dstCap.toNat →
    ∃ w, stageStep s = s.written o (out p) w ∧ Ahead (s.written o (out p) w) (o + (out p).length) ps
  overflows {s : State} {o : Nat} {p : Packet} {ps : List Packet} : Ahead s o (p :: ps) →
    s.latched.dstCap.toNat < o + (out p).length → ∃ t : State, stageStep s = t.fail c .outCapacity

section
variable {c : Instr} {out : Packet → List Byte} {Ahead : State → Nat → List Packet → Prop} {s : State} {o : Nat}
  {ps : List Packet}

/-- Packets that fit are written in order, and the command goes on behind the last. -/
theorem PacketLoop.finish_fits (h : PacketLoop c out Ahead) (ha : Ahead s o ps)
    (hcap : o + (ps.flatMap out).length ≤ s.latched.dstCap.toNat) :
    ∃ w, finish s = finish (s.written o (ps.flatMap out) w) ∧
      Ahead (s.written o (ps.flatMap out) w) (o + (ps.flatMap out).length) [] := by
  induction ps generalizing s o with
  | nil => exact ⟨s.work, rfl, ha⟩
  | cons p ps ih =>
    rw [List.flatMap_cons, List.length_append, ← Nat.add_assoc] at hcap ⊢
    obtain ⟨w, hstep, hahead⟩ := h.writes ha (by omega)
    obtain ⟨w', hfinish, hend⟩ := ih hahead hcap
    rw [State.written_written] at hfinish hend
    rw [← finish_stageStep (h.running ha), hstep]
    exact ⟨w', hfinish, hend⟩

/-- Packets that do not fit end the command at the first that does not (R112, R124). -/
theorem PacketLoop.finish_overflows (h : PacketLoop c out Ahead) (ha : Ahead s o ps)
    (ho : o ≤ s.latched.dstCap.toNat) (hcap : s.latched.dstCap.toNat < o + (ps.flatMap out).length) :
    ∃ t : State, finish s = t.fail c .outCapacity := by
  induction ps generalizing s o with
  | nil => exact absurd ho (Nat.not_le.2 hcap)
  | cons p ps ih =>
    rw [List.flatMap_cons, List.length_append, ← Nat.add_assoc] at hcap
    rw [← finish_stageStep (h.running ha)]
    by_cases hp : o + (out p).length ≤ s.latched.dstCap.toNat
    · obtain ⟨w, hstep, hahead⟩ := h.writes ha hp
      rw [hstep]
      exact ih hahead hp hcap
    · obtain ⟨t, ht⟩ := h.overflows ha (Nat.not_le.1 hp)
      exact ⟨t, by rw [ht, finish_idle (State.fail_stage t _ _)]⟩

/-- A loop that ends in success when no packet is left delivers all its output, if it fits. -/
theorem PacketLoop.finish_delivers (h : PacketLoop c out Ahead)
    (hend : ∀ {s : State} {o : Nat}, Ahead s o [] → stageStep s = s.succeed o 0 0) (ha : Ahead s 0 ps)
    (hcap : (ps.flatMap out).length ≤ s.latched.dstCap.toNat) : finish s = s.delivered (ps.flatMap out) := by
  obtain ⟨w, hfinish, hlast⟩ := h.finish_fits ha (by rwa [Nat.zero_add])
  rw [hfinish, ← finish_stageStep (h.running hlast), hend hlast, finish_idle (State.succeed_stage _ _ _ _),
    Nat.zero_add]
  rfl

end

/-! ### The source bytes -/

/-- The source from an offset on is the byte there and the source after it (R63). -/
theorem srcFrom_eq_cons {s : State} {i : Nat} (h : i < s.latched.srcLen.toNat) :
    s.srcFrom i = s.mem.read (s.latched.srcBase.toNat + i) :: s.srcFrom (i + 1) := by
  obtain ⟨n, hn⟩ : ∃ n, s.latched.srcLen.toNat - i = n + 1 := ⟨s.latched.srcLen.toNat - i - 1, by omega⟩
  rw [State.srcFrom, State.srcFrom, hn, Memory.readBytes_succ, Nat.add_assoc]
  congr 2
  omega

theorem srcFrom_eq_nil_iff {s : State} {i : Nat} : s.srcFrom i = [] ↔ s.latched.srcLen.toNat ≤ i := by
  rw [← List.length_eq_zero_iff, srcFrom_length, Nat.sub_eq_zero_iff_le]

theorem lt_srcLen_of_srcFrom_ne {s : State} {i : Nat} (h : s.srcFrom i ≠ []) : i < s.latched.srcLen.toNat :=
  Nat.not_le.1 (mt srcFrom_eq_nil_iff.2 h)

theorem le_srcLen_of_srcFrom {s : State} {i n : Nat} (hpos : 0 < n) (h : n ≤ (s.srcFrom i).length) :
    i + n ≤ s.latched.srcLen.toNat := by
  rw [srcFrom_length] at h
  omega

/-- Reading on past `n` source bytes. -/
theorem srcFrom_drop (s : State) (i n : Nat) : (s.srcFrom i).drop n = s.srcFrom (i + n) := by
  apply List.ext_getElem
  · simp only [List.length_drop, srcFrom_length]; omega
  · intro k _ _
    rw [List.getElem_drop]
    simp only [State.srcFrom, Memory.getElem_readBytes, Nat.add_assoc]

/-- Bytes at the head of the source from an offset on are what memory holds there. -/
theorem readBytes_of_srcFrom {s : State} {i : Nat} {bs rest : List Byte} (h : s.srcFrom i = bs ++ rest) :
    s.mem.readBytes (s.latched.srcBase.toNat + i) bs.length = bs := by
  have hlen := congrArg List.length h
  rw [srcFrom_length, List.length_append] at hlen
  rw [State.srcFrom, hlen, Memory.readBytes_append] at h
  exact (List.append_inj h (Memory.length_readBytes _ _ _)).1

/-- A store in the destination window leaves the source alone, when the two do not overlap (R225). -/
theorem srcFrom_store_dst {s : State} {o : Nat} {bs : List Byte} (happ : s.latched.src.overlaps s.latched.dst = false)
    (ho : o + bs.length ≤ s.latched.dstCap.toNat) (i : Nat) :
    (s.store (s.latched.dstBase.toNat + o) bs).srcFrom i = s.srcFrom i :=
  srcFrom_store (w := s.latched.dst) i (Window.overlaps_comm _ _ ▸ happ) (Nat.le_add_right _ _)
    (by simp only [Operands.dst]; omega)

/-! ### One step of RLE_DECODE -/

/-- With a byte of the stream left, RLE_DECODE runs the packet of its control byte (R120). -/
theorem rleDecodeStep_of_cons {s : State} {ctl : Byte} {rest : List Byte}
    (h : s.srcFrom s.work.rleDec.ipos.toNat = ctl :: rest) :
    rleDecodeStep s = if ctlType ctl then decodeRun (packetCount (ctlCountM1 ctl)) (fetchCtl s)
      else decodeLit (packetCount (ctlCountM1 ctl)) (fetchCtl s) := by
  have hmore := lt_srcLen_of_srcFrom_ne (s := s) (i := s.work.rleDec.ipos.toNat) (by simp [h])
  have hctl : ctlAt s = ctl := by
    rw [srcFrom_eq_cons hmore] at h
    exact (List.cons.inj h).1
  rw [rleDecodeStep, if_pos (show moreStream s = true from decide_eq_true hmore), hctl, runPacket_decodeCtl]

/-- LIT over a payload that is in the stream (R121, R124). -/
theorem decodeLit_framed {s : State} {bytes rest : List Byte}
    (h : s.srcFrom (s.work.rleDec.ipos.toNat + 1) = bytes ++ rest)
    (hi : s.work.rleDec.ipos.toNat + 1 + bytes.length ≤ s.latched.srcLen.toNat) :
    decodeLit bytes.length s =
      if s.latched.dstCap.toNat < s.work.rleDec.opos.toNat + bytes.length then s.fail .rleDecode .outCapacity
      else advanceDecoder s (bytes.length + 1) bytes := by
  have hread := readBytes_of_srcFrom h
  rw [← Nat.add_assoc] at hread
  rw [decodeLit, guardPacket_framed hi]
  dsimp only
  rw [hread, Nat.add_comm 1]

/-- RUN whose value byte is in the stream (R122, R124). -/
theorem decodeRun_framed {s : State} {v : Byte} {rest : List Byte} {count : Nat}
    (h : s.srcFrom (s.work.rleDec.ipos.toNat + 1) = v :: rest)
    (hi : s.work.rleDec.ipos.toNat + 1 + 1 ≤ s.latched.srcLen.toNat) :
    decodeRun count s =
      if s.latched.dstCap.toNat < s.work.rleDec.opos.toNat + count then s.fail .rleDecode .outCapacity
      else advanceDecoder s 2 (List.replicate count v) := by
  rw [srcFrom_eq_cons hi, ← Nat.add_assoc] at h
  rw [decodeRun, guardPacket_framed hi]
  dsimp only
  rw [(List.cons.inj h).1]

/-- RLE_DECODE takes the well-formed packet at the head of its stream: its span is written if it fits (R121, R122,
R124). -/
theorem rleDecodeStep_packet {s : State} {p : Packet} {rest : List Byte} (hw : p.wf = true)
    (h : s.srcFrom s.work.rleDec.ipos.toNat = p.encode ++ rest) :
    rleDecodeStep s =
      if s.latched.dstCap.toNat < s.work.rleDec.opos.toNat + p.span.length then
        (fetchCtl s).fail .rleDecode .outCapacity
      else advanceDecoder (fetchCtl s) p.encode.length p.span := by
  have hbody : (fetchCtl s).srcFrom (s.work.rleDec.ipos.toNat + 1) = p.encode.tail ++ rest := by
    have hdrop := congrArg (List.drop 1) h
    rw [srcFrom_drop] at hdrop
    exact hdrop
  have hlen : s.work.rleDec.ipos.toNat + p.encode.length ≤ s.latched.srcLen.toNat :=
    le_srcLen_of_srcFrom (encode_length_pos p) (by simp [h])
  rw [rleDecodeStep_of_cons h, ctlType_packetCtl, packetCount_packetCtl hw]
  cases p with
  | lit bytes => exact decodeLit_framed hbody (by rw [Nat.add_assoc, Nat.add_comm 1]; exact hlen)
  | run count v =>
    rw [show (Packet.run count v).span.length = count from List.length_replicate]
    exact decodeRun_framed hbody hlen

/-- A control byte with fewer bytes after it than its packet takes (R89). -/
theorem splitPacket_none {ctl : Byte} {rest : List Byte} (h : splitPacket (ctl :: rest) = none) :
    rest.length < if ctlType ctl then 1 else packetCount (ctlCountM1 ctl) := by
  simp only [splitPacket] at h
  split at h
  · rename_i ht
    cases rest with
    | nil => simp [ht]
    | cons v rest => contradiction
  · rename_i ht
    rw [if_neg ht]
    split at h
    · contradiction
    · exact Nat.not_le.1 ‹_›

/-- RLE_DECODE fails on a stream that ends inside its next packet (R123). -/
theorem rleDecodeStep_truncated {s : State} (hne : s.srcFrom s.work.rleDec.ipos.toNat ≠ [])
    (h : splitPacket (s.srcFrom s.work.rleDec.ipos.toNat) = none) :
    rleDecodeStep s = (fetchCtl s).fail .rleDecode .rleTruncated := by
  have hcons := srcFrom_eq_cons (lt_srcLen_of_srcFrom_ne hne)
  rw [hcons] at h
  have hshort := splitPacket_none h
  rw [srcFrom_length] at hshort
  rw [rleDecodeStep_of_cons hcons]
  split <;> rename_i ht
  · rw [if_pos ht] at hshort
    exact guardPacket_truncated (s := fetchCtl s) (by simp only [fetchCtl]; omega)
  · rw [if_neg ht] at hshort
    exact guardPacket_truncated (s := fetchCtl s) (by simp only [fetchCtl]; omega)

/-- At the end of its stream RLE_DECODE succeeds (R126). -/
theorem rleDecodeStep_end {s : State} (h : s.srcFrom s.work.rleDec.ipos.toNat = []) :
    rleDecodeStep s = s.succeed s.work.rleDec.opos.toNat 0 0 := by
  have hmore : moreStream s = false := decide_eq_false (Nat.not_lt.2 (srcFrom_eq_nil_iff.1 h))
  rw [rleDecodeStep, hmore, if_neg Bool.false_ne_true]

/-! ### RLE_DECODE as a packet loop -/

/-- RLE_DECODE stands before the packets `ps` of its stream, which goes on with `rest`, with `o` bytes written. -/
structure DecodeAhead (rest : List Byte) (s : State) (o : Nat) (ps : List Packet) : Prop where
  stage : s.stage = .rleDecode
  apart : s.latched.src.overlaps s.latched.dst = false
  opos : s.work.rleDec.opos.toNat = o
  wf : ∀ p ∈ ps, p.wf = true
  stream : s.srcFrom s.work.rleDec.ipos.toNat = encodeStream ps ++ rest

theorem stageStep_rleDecode {s : State} (h : s.stage = .rleDecode) : stageStep s = rleDecodeStep s := by
  simp only [stageStep, h]

/-- Each step of RLE_DECODE writes the span of its next packet (R120 to R124). -/
theorem rleDecode_loop (rest : List Byte) : PacketLoop .rleDecode Packet.span (DecodeAhead rest) where
  running h := by simp [h.stage]
  writes {s o p ps} h hcap := by
    obtain ⟨hstage, happ, rfl, hwf, hstream⟩ := h
    obtain ⟨hp, hps⟩ := List.forall_mem_cons.1 hwf
    rw [encodeStream_cons, List.append_assoc] at hstream
    have hi : s.work.rleDec.ipos.toNat + p.encode.length ≤ s.latched.srcLen.toNat :=
      le_srcLen_of_srcFrom (encode_length_pos p) (by simp [hstream])
    refine ⟨(advanceDecoder (fetchCtl s) p.encode.length p.span).work, ?_, hstage, happ, ?_, hps, ?_⟩
    · rw [stageStep_rleDecode hstage, rleDecodeStep_packet hp hstream, if_neg (Nat.not_lt.2 hcap)]
      rfl
    · exact ofNat_toNat_of_le s.latched.dstCap hcap
    · have hpos : (advanceDecoder (fetchCtl s) p.encode.length p.span).work.rleDec.ipos.toNat =
          s.work.rleDec.ipos.toNat + p.encode.length := ofNat_toNat_of_le s.latched.srcLen hi
      calc (s.written _ p.span _).srcFrom _ = s.srcFrom (s.work.rleDec.ipos.toNat + p.encode.length) := by
            rw [State.written_work, hpos]
            exact srcFrom_store_dst happ hcap _
        _ = encodeStream ps ++ rest := by rw [← srcFrom_drop, hstream, List.drop_left]
  overflows {s o p ps} h hcap := by
    obtain ⟨hstage, -, rfl, hwf, hstream⟩ := h
    rw [encodeStream_cons, List.append_assoc] at hstream
    exact ⟨fetchCtl s, by
      rw [stageStep_rleDecode hstage, rleDecodeStep_packet (hwf p List.mem_cons_self) hstream, if_pos hcap]⟩

/-- RLE_DECODE past its checks, before its first packet (R120). -/
def rleDecodeStarted (s : State) : State :=
  { s with stage := .rleDecode, work := { s.work with rleDec := { s.work.rleDec with ipos := 0, opos := 0 } } }

theorem exec_rleDecode {s : State} (h : checkArgs .rleDecode s.latched = none) :
    exec .rleDecode s = .next (finish (rleDecodeStarted s)) := by
  have hbegin : beginRleDecode s = rleDecodeStarted s := by simp only [beginRleDecode, State.afterChecks, h]; rfl
  exact congrArg (fun t => Host.Outcome.next (finish t)) hbegin

theorem rleDecodeStarted_ahead {s : State} {ps : List Packet} {rest : List Byte}
    (h : checkArgs .rleDecode s.latched = none) (hw : ∀ p ∈ ps, p.wf = true)
    (hs : s.srcBytes = encodeStream ps ++ rest) : DecodeAhead rest (rleDecodeStarted s) 0 ps :=
  ⟨rfl, (checkArgs_dst h rfl).2, rfl, hw, hs⟩

theorem DecodeAhead.ends {s : State} {o : Nat} (h : DecodeAhead [] s o []) : stageStep s = s.succeed o 0 0 := by
  rw [stageStep_rleDecode h.stage, rleDecodeStep_end h.stream, h.opos]

/-- Settles O22: the loop writes every span, and ends at the end of the stream. -/
theorem rleDecodeSucceeds : Obligations.RleDecodeSucceeds := by
  intro s ps hk hw hs output hcap
  have hahead := rleDecodeStarted_ahead (rest := []) hk hw (by rw [hs, List.append_nil])
  refine ⟨s.delivered output, ?_, delivered_effect s output⟩
  rw [exec_rleDecode hk, (rleDecode_loop []).finish_delivers DecodeAhead.ends hahead hcap]
  rfl

/-- The commands with a destination window are commands, and touch no region (R63, R225). -/
theorem command_of_usesDst {c : Instr} (h : usesDst c = true) :
    isCommand c = true ∧ c ≠ .hufEncode ∧ c ≠ .hufRelease := by
  cases c
  case rleEncode => exact ⟨rfl, nofun, nofun⟩
  case rleDecode => exact ⟨rfl, nofun, nofun⟩
  case hufDecode => exact ⟨rfl, nofun, nofun⟩
  all_goals contradiction

/-- A command with a destination window that has failed, whatever it had done: the error and its frame (R222). -/
theorem exec_failed {c : Instr} {s t : State} {d : Detail} (hd : usesDst c = true)
    (h : exec c s = .next (t.fail c d)) :
    ∃ t, exec c s = .next t ∧ Completed t d ⟨0, 0, 0⟩ ∧ SameOutside [s.latched.dst] s t ∧ SameSetting s t ∧
      SameRegions s t := by
  obtain ⟨hc, he, hr⟩ := command_of_usesDst hd
  obtain ⟨hset, hreg⟩ := instructionFrame c s _ h
  have hout := (writesStayInWindow c s _ hc h).1 he
  rw [destination, if_pos hd] at hout
  exact ⟨_, h, ⟨rfl, rfl, rfl⟩, hout, hset, hreg he hr⟩

/-- RLE_DECODE of packets that do not all fit is CapacityExceeded, whatever comes after them (R124). -/
theorem exec_rleDecode_overflows {s : State} {ps : List Packet} {rest : List Byte}
    (hk : checkArgs .rleDecode s.latched = none) (hw : ∀ p ∈ ps, p.wf = true)
    (hs : s.srcBytes = encodeStream ps ++ rest)
    (hcap : s.latched.dstCap.toNat < (ps.flatMap Packet.span).length) :
    ∃ t : State, exec .rleDecode s = .next (t.fail .rleDecode .outCapacity) := by
  obtain ⟨t, ht⟩ := (rleDecode_loop rest).finish_overflows (rleDecodeStarted_ahead hk hw hs) (Nat.zero_le _)
    (by rw [Nat.zero_add]; exact hcap)
  exact ⟨t, by rw [exec_rleDecode hk, ht]⟩

/-- RLE_DECODE of packets that fit, with a truncated one after them, is RLE_TRUNCATED (R123). -/
theorem exec_rleDecode_truncated {s : State} {ps : List Packet} {rest : List Byte}
    (hk : checkArgs .rleDecode s.latched = none) (hw : ∀ p ∈ ps, p.wf = true)
    (hs : s.srcBytes = encodeStream ps ++ rest) (hne : rest ≠ [])
    (hcap : (ps.flatMap Packet.span).length ≤ s.latched.dstCap.toNat) (hsplit : splitPacket rest = none) :
    ∃ t : State, exec .rleDecode s = .next (t.fail .rleDecode .rleTruncated) := by
  obtain ⟨w, hfinish, hend⟩ := (rleDecode_loop rest).finish_fits (rleDecodeStarted_ahead hk hw hs)
    (by rw [Nat.zero_add]; exact hcap)
  have hrest := hend.stream
  rw [encodeStream_nil, List.nil_append] at hrest
  refine ⟨fetchCtl ((rleDecodeStarted s).written 0 (ps.flatMap Packet.span) w), ?_⟩
  rw [exec_rleDecode hk, hfinish, ← finish_stageStep (by rw [hend.stage]; exact nofun), stageStep_rleDecode hend.stage,
    rleDecodeStep_truncated (by rw [hrest]; exact hne) (by rw [hrest]; exact hsplit), finish_idle rfl]

/-- Settles O23: the loop reaches the packet that does not decode; one that does not fit is one packet more. -/
theorem rleDecodeFails : Obligations.RleDecodeFails := by
  intro s ps rest hk hw hs hne hcap
  refine ⟨fun hsplit => ?_, fun p rest' hsplit hover => ?_⟩
  · obtain ⟨t, ht⟩ := exec_rleDecode_truncated hk hw hs hne hcap hsplit
    exact exec_failed rfl ht
  · obtain ⟨hp, hencode⟩ := splitPacket_some hsplit
    obtain ⟨t, ht⟩ := exec_rleDecode_overflows (ps := ps ++ [p]) (rest := rest') hk
      (List.forall_mem_append.2 ⟨hw, List.forall_mem_singleton.2 hp⟩)
      (by rw [hs, ← hencode]; simp [encodeStream]) (by simpa using hover)
    exact exec_failed rfl ht

end Sys2Proof.Machine
end

section
/-! SUPPORT. The RLE family: RLE_ENCODE as a packet loop, its worst case and the round trip (40_rle.md R111 to R117,
R127). -/

namespace Sys2Proof.Machine

/-! ### RLE_ENCODE as a packet loop -/

/-- RLE_ENCODE stands before the packets `ps` of its input, with `o` bytes written. -/
structure EncodeAhead (s : State) (o : Nat) (ps : List Packet) : Prop where
  stage : s.stage = .rleEncode
  apart : s.latched.src.overlaps s.latched.dst = false
  opos : s.work.rleEnc.opos.toNat = o
  packets : rlePackets (s.srcFrom s.work.rleEnc.ipos.toNat) = ps

theorem stageStep_rleEncode {s : State} (h : s.stage = .rleEncode) : stageStep s = rleEncodeStep s := by
  simp only [stageStep, h]

/-- With input left, RLE_ENCODE emits the next packet of it (R111). -/
theorem rleEncodeStep_packet {s : State} {p : Packet}
    (hne : s.srcFrom s.work.rleEnc.ipos.toNat ≠ []) (hp : nextPacket (s.srcFrom s.work.rleEnc.ipos.toNat) = p) :
    rleEncodeStep s = emitPacket (noteRun s (s.srcFrom s.work.rleEnc.ipos.toNat)) p :=
  hp ▸ if_pos (lt_srcLen_of_srcFrom_ne hne)

/-- A packet that fits is written, and both positions move past it (R112, R113). -/
theorem emitPacket_fits {s : State} {p : Packet}
    (h : s.work.rleEnc.opos.toNat + p.encode.length ≤ s.latched.dstCap.toNat) :
    ∃ w, emitPacket s p = s.written s.work.rleEnc.opos.toNat p.encode w ∧
      w.rleEnc.ipos = BitVec.ofNat 32 (s.work.rleEnc.ipos.toNat + p.span.length) ∧
      w.rleEnc.opos = BitVec.ofNat 32 (s.work.rleEnc.opos.toNat + p.encode.length) :=
  ⟨_, if_neg (Nat.not_lt.2 h), rfl, rfl⟩

/-- Each step of RLE_ENCODE writes the bytes of its next packet (R111 to R114). -/
theorem rleEncode_loop : PacketLoop .rleEncode Packet.encode EncodeAhead where
  running h := by simp [h.stage]
  writes {s o p ps} h hcap := by
    obtain ⟨hstage, happ, rfl, hpackets⟩ := h
    obtain ⟨hne, hp, hps⟩ := rlePackets_eq_cons hpackets
    obtain ⟨w, hemit, hipos, hopos⟩ :=
      emitPacket_fits (s := noteRun s (s.srcFrom s.work.rleEnc.ipos.toNat)) (p := p) hcap
    have hspan := nextPacket_span_pos hne
    have hi : s.work.rleEnc.ipos.toNat + p.span.length ≤ s.latched.srcLen.toNat :=
      le_srcLen_of_srcFrom (hp ▸ hspan) (hp ▸ nextPacket_span_le _)
    refine ⟨w, ?_, hstage, happ, ?_, ?_⟩
    · rw [stageStep_rleEncode hstage, rleEncodeStep_packet hne hp, hemit]
      rfl
    · rw [State.written_work, hopos]
      exact ofNat_toNat_of_le s.latched.dstCap hcap
    · have hpos : w.rleEnc.ipos.toNat = s.work.rleEnc.ipos.toNat + p.span.length := by
        rw [hipos]
        exact ofNat_toNat_of_le s.latched.srcLen hi
      have hsrc : (s.written s.work.rleEnc.opos.toNat p.encode w).srcFrom w.rleEnc.ipos.toNat =
          (s.srcFrom s.work.rleEnc.ipos.toNat).drop p.span.length := by
        rw [hpos, srcFrom_drop]
        exact srcFrom_store_dst happ hcap _
      rw [State.written_work, hsrc, hps]
  overflows {s o p ps} h hcap := by
    obtain ⟨hstage, -, rfl, hpackets⟩ := h
    obtain ⟨hne, hp, -⟩ := rlePackets_eq_cons hpackets
    exact ⟨noteRun s _, by
      rw [stageStep_rleEncode hstage, rleEncodeStep_packet hne hp]
      exact if_pos hcap⟩

/-- At the end of its input RLE_ENCODE succeeds (R116). -/
theorem EncodeAhead.ends {s : State} {o : Nat} (h : EncodeAhead s o []) : stageStep s = s.succeed o 0 0 := by
  have hnil : s.srcFrom s.work.rleEnc.ipos.toNat = [] := by
    rw [← flatMap_span_rlePackets (s.srcFrom _), h.packets]; rfl
  rw [stageStep_rleEncode h.stage, ← h.opos]
  exact if_neg (Nat.not_lt.2 (srcFrom_eq_nil_iff.1 hnil))

/-- RLE_ENCODE past its checks, before its first packet (R111). -/
def rleEncodeStarted (s : State) : State :=
  { s with stage := .rleEncode, work := { s.work with rleEnc := { s.work.rleEnc with ipos := 0, opos := 0 } } }

theorem exec_rleEncode {s : State} (h : checkArgs .rleEncode s.latched = none) :
    exec .rleEncode s = .next (finish (rleEncodeStarted s)) := by
  have hbegin : beginRleEncode s = rleEncodeStarted s := by simp only [beginRleEncode, State.afterChecks, h]; rfl
  exact congrArg (fun t => Host.Outcome.next (finish t)) hbegin

theorem rleEncodeStarted_ahead {s : State} (h : checkArgs .rleEncode s.latched = none) :
    EncodeAhead (rleEncodeStarted s) 0 (rlePackets s.srcBytes) := ⟨rfl, (checkArgs_dst h rfl).2, rfl, rfl⟩

/-- RLE_ENCODE delivers the bytes of its input's packets, when they fit (R111, R116). -/
theorem exec_rleEncode_delivers {s : State} (hk : checkArgs .rleEncode s.latched = none)
    (hcap : (encodeStream (rlePackets s.srcBytes)).length ≤ s.latched.dstCap.toNat) :
    exec .rleEncode s = .next (s.delivered (encodeStream (rlePackets s.srcBytes))) := by
  rw [exec_rleEncode hk, rleEncode_loop.finish_delivers EncodeAhead.ends (rleEncodeStarted_ahead hk) hcap]
  rfl

theorem exec_rleEncode_overflows {s : State} (hk : checkArgs .rleEncode s.latched = none)
    (hcap : s.latched.dstCap.toNat < (encodeStream (rlePackets s.srcBytes)).length) :
    ∃ t : State, exec .rleEncode s = .next (t.fail .rleEncode .outCapacity) := by
  obtain ⟨t, ht⟩ := rleEncode_loop.finish_overflows (rleEncodeStarted_ahead hk) (Nat.zero_le _)
    (by rw [Nat.zero_add]; exact hcap)
  exact ⟨t, by rw [exec_rleEncode hk, ht]⟩

/-- Settles O18: the loop delivers the bytes of every packet. -/
theorem rleEncodeSucceeds : Obligations.RleEncodeSucceeds := fun s hk hcap =>
  ⟨_, exec_rleEncode_delivers hk hcap, delivered_effect s _⟩

/-- Settles O19: the loop fails at the first packet that does not fit. -/
theorem rleEncodeOverflows : Obligations.RleEncodeOverflows := by
  intro s hk hcap
  obtain ⟨t, ht⟩ := exec_rleEncode_overflows hk hcap
  exact exec_failed rfl ht

/-- RLE_ENCODE succeeds only by delivering (R116). -/
theorem delivered_of_success {s t : State} (hk : checkArgs .rleEncode s.latched = none)
    (ht : exec .rleEncode s = .next t) (hst : t.status = Status.completed .none) :
    (encodeStream (rlePackets s.srcBytes)).length ≤ s.latched.dstCap.toNat ∧
      t = s.delivered (encodeStream (rlePackets s.srcBytes)) := by
  by_cases hcap : (encodeStream (rlePackets s.srcBytes)).length ≤ s.latched.dstCap.toNat
  · rw [exec_rleEncode_delivers hk hcap] at ht
    exact ⟨hcap, (Host.Outcome.next.inj ht).symm⟩
  · obtain ⟨u, hu⟩ := exec_rleEncode_overflows hk (Nat.not_le.1 hcap)
    rw [hu] at ht
    obtain rfl := Host.Outcome.next.inj ht
    exact absurd hst (by rw [State.fail_status]; decide)

/-! ### The worst case -/

theorem length_encodeStream_rlePackets {input : List Byte} (h : input ≠ []) :
    (encodeStream (rlePackets input)).length = (nextPacket input).encode.length +
      (encodeStream (rlePackets (input.drop (nextPacket input).span.length))).length := by
  rw [rlePackets_cons h, encodeStream_cons, List.length_append]

/-- The bound of R117 on the bytes of an input's packets. -/
def WithinWorstCase (input : List Byte) : Prop :=
  (encodeStream (rlePackets input)).length ≤ input.length + cdiv input.length 128

/-- A Run packet of 3 or more saves at least one byte. -/
theorem worstCase_of_run {input : List Byte} (hrun : 3 ≤ runLen input)
    (hrest : WithinWorstCase (input.drop (runLen input))) :
    (encodeStream (rlePackets input)).length + 1 ≤ input.length + cdiv input.length 128 := by
  have hne : input ≠ [] := by rintro rfl; contradiction
  have hp : nextPacket input = .run (runLen input) (input.headD 0) := if_pos hrun
  have hlen := length_encodeStream_rlePackets hne
  have hle := runLen_le_length input
  rw [hp, show (Packet.run (runLen input) (input.headD 0)).span.length = runLen input from List.length_replicate,
    show (Packet.run (runLen input) (input.headD 0)).encode.length = 2 from rfl] at hlen
  simp only [WithinWorstCase, List.length_drop, cdiv] at hrest ⊢
  omega

/-- A full Literal costs its control byte per 128 bytes; a shorter one is the last packet, or the Run after it pays for
its control byte (R117). -/
theorem worstCase_of_lit {bytes rest : List Byte} (hne : bytes ++ rest ≠ [])
    (hp : nextPacket (bytes ++ rest) = .lit bytes) (hrest : WithinWorstCase rest)
    (hrun : 3 ≤ runLen rest → WithinWorstCase (rest.drop (runLen rest))) : WithinWorstCase (bytes ++ rest) := by
  have hlen := length_encodeStream_rlePackets hne
  have hpos := nextPacket_span_pos hne
  rw [hp, show (Packet.lit bytes).span = bytes from rfl, List.drop_left,
    show (Packet.lit bytes).encode.length = bytes.length + 1 from rfl] at hlen
  rw [hp, show (Packet.lit bytes).span = bytes from rfl] at hpos
  simp only [WithinWorstCase, List.length_append, cdiv] at hrest ⊢
  rcases lit_full_or_stops hp with hfull | rfl | hr
  · omega
  · simp only [rlePackets_nil, encodeStream_nil, List.length_nil] at hlen ⊢
    omega
  · have hsaved := worstCase_of_run hr (hrun hr)
    simp only [cdiv] at hsaved
    omega

/-- The bytes of an input's packets are within the worst case (R117). -/
theorem withinWorstCase (input : List Byte) : WithinWorstCase input := by
  induction hn : input.length using Nat.strong_induction_on generalizing input with
  | _ n ih =>
    have hshorter {l : List Byte} (hl : l.length < n) : WithinWorstCase l := ih _ hl l rfl
    by_cases hne : input = []
    · subst hne; exact Nat.le_refl 0
    · have hspan := nextPacket_span_pos hne
      have hpos := List.length_pos_of_ne_nil hne
      by_cases hrun : 3 ≤ runLen input
      · exact Nat.le_of_succ_le (worstCase_of_run hrun (hshorter (by rw [List.length_drop]; omega)))
      · obtain ⟨bytes, hp⟩ : ∃ bytes, nextPacket input = .lit bytes := ⟨_, if_neg hrun⟩
        have hbytes := nextPacket_span input
        rw [hp] at hbytes hspan
        obtain ⟨rest, rfl⟩ : ∃ rest, input = bytes ++ rest := List.prefix_iff_eq_take.2 hbytes |>.imp fun _ h => h.symm
        rw [List.length_append] at hn
        simp only [Packet.span] at hspan
        exact worstCase_of_lit hne hp (hshorter (by omega)) fun _ => hshorter (by rw [List.length_drop]; omega)

theorem add_cdiv (n : Nat) : n + cdiv n 128 = cdiv (n * 129) 128 := by
  unfold cdiv
  omega

theorem length_srcBytes (s : State) : s.srcBytes.length = s.latched.srcLen.toNat := srcFrom_length s 0

/-- The packets of a command's source are within the worst case of `SRC_LEN` (R117). -/
theorem length_srcPackets_le (s : State) : (encodeStream (rlePackets s.srcBytes)).length ≤
    s.latched.srcLen.toNat + cdiv s.latched.srcLen.toNat 128 := length_srcBytes s ▸ withinWorstCase s.srcBytes

/-- What RLE_ENCODE delivers has its length in `RES_LEN`, within the worst case (R116, R117). -/
theorem delivered_len_le (s : State) : (s.delivered (encodeStream (rlePackets s.srcBytes))).res.len.toNat ≤
    s.latched.srcLen.toNat + cdiv s.latched.srcLen.toNat 128 :=
  (Nat.mod_le _ _).trans (length_srcPackets_le s)

theorem exec_rleEncode_unchecked {s : State} {d : Detail} (h : checkArgs .rleEncode s.latched = some d) :
    exec .rleEncode s = .next (s.fail .rleEncode d) := by
  have hbegin : beginRleEncode s = s.fail .rleEncode d := by simp only [beginRleEncode, State.afterChecks, h]
  rw [show exec .rleEncode s = .next (finish (beginRleEncode s)) from rfl, hbegin, finish_idle rfl]

/-- Settles O21: the bound on an input's packets, and RLE_ENCODE succeeds only by delivering them. -/
theorem rleWorstCaseBound : Obligations.RleWorstCaseBound := by
  refine ⟨withinWorstCase, add_cdiv, fun s t ht hst => ?_, fun s hk hcap => ?_⟩
  · cases hk : checkArgs .rleEncode s.latched with
    | some d =>
      rw [exec_rleEncode_unchecked hk] at ht
      obtain rfl := Host.Outcome.next.inj ht
      exact Nat.zero_le _
    | none => exact (delivered_of_success hk ht hst).2 ▸ delivered_len_le s
  · exact ⟨_, exec_rleEncode_delivers hk ((length_srcPackets_le s).trans hcap), rfl, delivered_len_le s⟩

/-! ### The round trip -/

/-- A decode's source that is what a successful RLE_ENCODE wrote is the bytes of the input's packets (R116). -/
theorem srcBytes_of_encoded {s t u : State} (hk : checkArgs .rleEncode s.latched = none)
    (ht : exec .rleEncode s = .next t) (hst : t.status = Status.completed .none)
    (hu : u.srcBytes = t.mem.readBytes s.latched.dstBase.toNat t.res.len.toNat) :
    u.srcBytes = encodeStream (rlePackets s.srcBytes) := by
  obtain ⟨hcap, rfl⟩ := delivered_of_success hk ht hst
  obtain ⟨hdone, hread, -⟩ := delivered_effect s (encodeStream (rlePackets s.srcBytes))
  rw [hu, hdone.res, ofNat_toNat_of_le s.latched.dstCap hcap, hread]

/-- Settles O24: the packets' spans are the input, so the decode of their bytes succeeds or fails as that fits. -/
theorem rleRoundTrip : Obligations.RleRoundTrip := by
  intro s t u hk ht hst hku hu
  have hsrc := srcBytes_of_encoded hk ht hst hu
  have hspans := flatMap_span_rlePackets s.srcBytes
  have hlen := length_srcBytes s
  refine ⟨fun hcap => ?_, fun hcap => ?_⟩
  · obtain ⟨v, hv, hdone, hread, -⟩ := rleDecodeSucceeds u _ hku (fun _ => rlePackets_wf) hsrc
      (by rw [hspans, hlen]; exact hcap)
    rw [hspans, hlen] at hdone hread
    exact ⟨v, hv, hdone.status, by rw [hdone.res, BitVec.ofNat_toNat, BitVec.setWidth_eq], hread⟩
  · obtain ⟨v, hv⟩ := exec_rleDecode_overflows (rest := []) hku (fun _ => rlePackets_wf)
      (by rw [hsrc, List.append_nil]) (by rw [hspans, hlen]; omega)
    exact ⟨_, hv, rfl⟩

end Sys2Proof.Machine
end

section
/-! SUPPORT. The Huffman encoder family: the frequency pass and the command's outcome (41_huffman_encode.md R140, R154,
R156). -/

namespace Sys2Proof.Machine

/-! ### Frequencies -/

theorem freqOf_getD (input : List Byte) {s : Nat} (hs : s < 256) :
    (freqOf input).getD s 0 = input.countP fun b => b.toNat == s := by
  simp [freqOf, List.getD_eq_getElem?_getD, List.getElem?_range hs]

/-- The counts of an input add up to its length (R140). -/
theorem sum_freqOf (input : List Byte) : (freqOf input).sum = input.length := by
  have h := sum_counts (fun b => b.isLt) (fun _ => 1) input
  rw [← sum_map_range] at h
  simpa [freqOf] using h

/-- Settles O28: the pass leaves `freqOf` of the source in `FREQ`, and its counts add up to the source's length. -/
theorem frequencyTable : Obligations.FrequencyTable := by
  intro s
  have hfreqs := hufCountStep_freqs s
  refine ⟨fun b => ?_, ?_⟩
  · have hentry := congrArg (·.getD b.toNat 0) hfreqs
    simp only [freqOf_getD _ b.isLt] at hentry
    have hcount : s.srcBytes.countP (fun c => c.toNat == b.toNat) = s.srcBytes.count b :=
      List.countP_congr fun c _ => by simp [BitVec.toNat_inj]
    have hb : b.toNat < 256 := b.isLt
    rw [← hcount, ← hentry]
    simp [Work.freqs, List.getD_eq_getElem?_getD, hb]
  · rw [hfreqs, sum_freqOf, length_srcBytes]

/-! ### The whole command -/

/-- A request changes only the allocator port and what the model draws (R71). -/
theorem requestAlloc_setting (s : State) (n : Nat) : SameSetting s (s.requestAlloc n) :=
  ⟨rfl, rfl, rfl, rfl, rfl, rfl, rfl⟩

/-- Settles O36: a refused request is the command's end, with nothing spoilt since HUF_ENCODE has no destination. -/
theorem hufEncodeAllocFails : Obligations.HufEncodeAllocFails := by
  intro s hk ha
  obtain ⟨hdone, -, hset, hlive, hfault, hrel, hans, hlog⟩ :=
    fail_effect (s.requestAlloc (inputSize s.srcBytes)) .hufEncode .allocFail
  exact ⟨_, congrArg Host.Outcome.next (finish_beginHufEncode_refused hk ha), hdone, rfl, hlive, hfault, hrel, hlog,
    hans, (requestAlloc_setting s _).trans hset⟩

/-- A check that fails names an error (R225). -/
theorem checkArgs_ne_some_none (c : Instr) (o : Operands) : checkArgs c o ≠ some .none := by
  unfold checkArgs
  split_ifs <;> exact nofun

/-- HUF_ENCODE succeeds only past its checks and with its request granted, by handing over the artifact (R150). -/
theorem exec_hufEncode_succeeded {s t : State} (ht : exec .hufEncode s = .next t)
    (hst : t.status = Status.completed .none) :
    checkArgs .hufEncode s.latched = none ∧ ∃ base, s.allocAnswer (inputSize s.srcBytes) = some base := by
  have hfinish : t = finish (beginHufEncode s) := (Host.Outcome.next.inj ht).symm
  cases hk : checkArgs .hufEncode s.latched with
  | some d =>
    have hbegin : beginHufEncode s = s.fail .hufEncode d := by simp only [beginHufEncode, State.afterChecks, hk]
    rw [hfinish, hbegin, finish_idle rfl, State.fail_status] at hst
    obtain rfl : d = .none := congrArg Status.detail hst
    exact absurd hk (checkArgs_ne_some_none _ _)
  | none =>
    refine ⟨rfl, Option.ne_none_iff_exists'.1 fun ha => ?_⟩
    rw [hfinish, finish_beginHufEncode_refused hk ha, State.fail_status] at hst
    exact absurd (congrArg Status.detail hst) nofun

/-- A successful HUF_ENCODE has reported and written the artifact of its source (R155). -/
theorem hufEncode_result {s t : State} (ht : exec .hufEncode s = .next t) (hst : t.status = Status.completed .none) :
    t.res.len = BitVec.ofNat 32 (inputSize s.srcBytes) ∧ t.res.bits = BitVec.ofNat 35 (inputBits s.srcBytes) ∧
      t.mem.readBytes t.res.base.toNat t.res.len.toNat = artifactOf s.srcBytes := by
  obtain ⟨hk, base, ha⟩ := exec_hufEncode_succeeded ht hst
  obtain ⟨u, hu, hdone, hlen, -, hread, -⟩ := hufEncodeSucceeds s base hk ha
  obtain rfl : u = t := Host.Outcome.next.inj (hu.symm.trans ht)
  have hbase : u.res.base = base := congrArg Results.base hdone.res
  exact ⟨congrArg Results.len hdone.res, congrArg Results.bits hdone.res, by rw [hlen, hbase, hread]⟩

/-- Settles O38: both commands' results are functions of the source bytes. -/
theorem hufEncodeDeterministic : Obligations.HufEncodeDeterministic := by
  intro s s' t t' ht ht' hst hst' hsrc
  obtain ⟨hlen, hbits, hread⟩ := hufEncode_result ht hst
  obtain ⟨hlen', hbits', hread'⟩ := hufEncode_result ht' hst'
  exact ⟨by rw [hlen, hlen', hsrc], by rw [hbits, hbits', hsrc], by rw [hread, hread', hsrc]⟩

end Sys2Proof.Machine
end

section
/-! SUPPORT. The Huffman encoder family: the present symbols of a table, by symbol (41_huffman_encode.md R141, R147). -/

namespace Sys2Proof.Machine

theorem mem_presentOf {table : List Nat} {p : Nat × Nat} :
    p ∈ presentOf table ↔ table[p.2]? = some p.1 ∧ p.1 ≠ 0 := by
  simp [presentOf, List.mem_zipIdx_iff_getElem?]

/-- An entry is present exactly where the table is not 0. -/
theorem mem_presentOf_getD {table : List Nat} {s : Nat} :
    s ∈ (presentOf table).map Prod.snd ↔ table.getD s 0 ≠ 0 := by
  rw [List.getD_eq_getElem?_getD]
  cases h : table[s]? with
  | none => simp [mem_presentOf, h]
  | some v => simp [mem_presentOf, h]

/-- No symbol is present twice. -/
theorem nodup_presentOf (table : List Nat) : ((presentOf table).map Prod.snd).Nodup :=
  (List.nodup_zipIdx_map_snd table).sublist (List.filter_sublist.map _)

theorem length_presentOf (table : List Nat) : (presentOf table).length = table.countP (· ≠ 0) := by
  rw [presentOf, ← List.countP_eq_length_filter]
  conv_rhs => rw [← List.zipIdx_map_fst 0 table, List.countP_map]
  rfl

/-- The entries of a table in order are those at `0`, `1`, and so on. -/
theorem zipIdx_eq_map_range (table : List Nat) :
    table.zipIdx = (List.range table.length).map fun s => (table.getD s 0, s) := by
  apply List.ext_getElem
  · simp
  · intro s hs _
    rw [List.length_zipIdx] at hs
    simp [hs]

/-- Two tables with the same symbols present list them in the same order. -/
theorem presentOf_eq_map {table other : List Nat} (hlen : other.length = table.length)
    (hzero : ∀ s < table.length, other.getD s 0 = 0 ↔ table.getD s 0 = 0) :
    presentOf other = (presentOf table).map fun p => (other.getD p.2 0, p.2) := by
  have hfilter : (List.range table.length).filter (fun s => decide (other.getD s 0 ≠ 0)) =
      (List.range table.length).filter fun s => decide (table.getD s 0 ≠ 0) :=
    List.filter_congr fun s hs => by rw [decide_eq_decide, ne_eq, hzero s (List.mem_range.1 hs)]
  unfold presentOf
  rw [zipIdx_eq_map_range, zipIdx_eq_map_range, List.filter_map, List.filter_map, List.map_map, hlen]
  exact congrArg (List.map _) hfilter

/-- The entries that a filter leaves out add nothing when they are 0. -/
theorem sum_map_filter {α : Type} (keep : α → Bool) (f : α → Nat) (l : List α) (h : ∀ x, keep x = false → f x = 0) :
    ((l.filter keep).map f).sum = (l.map f).sum := by
  induction l with
  | nil => rfl
  | cons x l ih =>
    cases hx : keep x with
    | true => simp [hx, ih]
    | false => simp [hx, ih, h x hx]

/-- The present entries of a table add up to all of it. -/
theorem sum_presentOf (table : List Nat) : ((presentOf table).map Prod.fst).sum = table.sum := by
  rw [presentOf, sum_map_filter _ _ _ (by simp), List.zipIdx_map_fst]

/-- `B` adds up over the symbols that occur (R149). -/
theorem payloadBits_eq_sum {freq lens : List Nat} (hlen : lens.length = freq.length) :
    payloadBits freq lens = ((presentOf freq).map fun p => p.1 * lens.getD p.2 0).sum := by
  rw [presentOf, sum_map_filter _ _ _ (by simp +contextual), payloadBits]
  congr 1
  apply List.ext_getElem
  · simp [hlen]
  · intro s hs _
    have hs : s < lens.length := by simpa [hlen] using hs
    simp [hs]

end Sys2Proof.Machine
end

section
/-! SUPPORT. The Huffman encoder family: the tree builder's greedy merges, and the tree they leave
(41_huffman_encode.md R141 to R145). -/

namespace Sys2Proof.Machine

/-! ### The least live node -/

/-- The priority order, with equality (R143). -/
def Tree.NotAfter (a b : Tree) : Prop := a.weight < b.weight ∨ a.weight = b.weight ∧ a.key ≤ b.key

theorem Tree.before_iff (a b : Tree) :
    a.before b = true ↔ a.weight < b.weight ∨ a.weight = b.weight ∧ a.key < b.key := by
  simp [Tree.before]

theorem Tree.notAfter_of_before {a b : Tree} (h : a.before b = true) : a.NotAfter b := by
  rw [Tree.before_iff] at h
  unfold Tree.NotAfter
  omega

theorem Tree.notAfter_of_not_before {a b : Tree} (h : ¬ a.before b = true) : b.NotAfter a := by
  rw [Tree.before_iff] at h
  unfold Tree.NotAfter
  omega

theorem Tree.NotAfter.trans {a b c : Tree} (h : a.NotAfter b) (h' : b.NotAfter c) : a.NotAfter c := by
  unfold Tree.NotAfter at *
  omega

theorem Tree.NotAfter.weight_le {a b : Tree} (h : a.NotAfter b) : a.weight ≤ b.weight := by
  unfold Tree.NotAfter at h
  omega

theorem extractLeast_eq_none_iff {live : List Tree} : extractLeast live = none ↔ live = [] :=
  ⟨eq_nil_of_extractLeast, fun h => h ▸ rfl⟩

/-- Extraction splits the priority set into its least node and the others (R142, R143). -/
theorem extractLeast_spec {live : List Tree} {least : Tree} {others : List Tree}
    (h : extractLeast live = some (least, others)) :
    (least :: others).Perm live ∧ ∀ t ∈ others, least.NotAfter t := by
  induction live generalizing least others with
  | nil => contradiction
  | cons t live ih =>
    simp only [extractLeast] at h
    split at h
    · rename_i hnone
      cases h
      rw [eq_nil_of_extractLeast hnone]
      exact ⟨.refl _, nofun⟩
    · rename_i least' others' hsome
      obtain ⟨hperm, hleast⟩ := ih hsome
      split at h
      · rename_i hbefore
        cases h
        have ht := Tree.notAfter_of_before hbefore
        exact ⟨hperm.cons _, List.forall_mem_cons.2 ⟨ht, fun u hu => ht.trans (hleast u hu)⟩⟩
      · rename_i hbefore
        cases h
        exact ⟨(List.Perm.swap ..).trans (hperm.cons _),
          List.forall_mem_cons.2 ⟨Tree.notAfter_of_not_before hbefore, hleast⟩⟩

/-! ### The merges -/

/-- What one merge leaves of the priority set whose two least nodes are `a` and `b` (R142). -/
def merged (m : Nat) (a b : Tree) (others : List Tree) : List Tree :=
  .internal (256 + m) (a.weight + b.weight) a b :: others

theorem perm_of_extracted_twice {live rest others : List Tree} {a b : Tree}
    (ha : extractLeast live = some (a, rest)) (hb : extractLeast rest = some (b, others)) :
    (a :: b :: others).Perm live :=
  ((extractLeast_spec hb).1.cons a).trans (extractLeast_spec ha).1

theorem length_of_extracted_twice {live rest others : List Tree} {a b : Tree}
    (ha : extractLeast live = some (a, rest)) (hb : extractLeast rest = some (b, others)) (m : Nat) :
    live.length = (merged m a b others).length + 1 := by
  rw [← (perm_of_extracted_twice ha hb).length_eq]
  rfl

theorem mergeAll_merge {fuel m : Nat} {live rest others : List Tree} {a b : Tree}
    (ha : extractLeast live = some (a, rest)) (hb : extractLeast rest = some (b, others)) :
    mergeAll (fuel + 1) m live = mergeAll fuel (m + 1) (merged m a b others) := by
  simp only [mergeAll, ha, hb, merged]

/-- Induction over the merges: a relation between a priority set and a root that holds of a single node, and that
every merge carries back, holds of the root that is left (R142). -/
theorem mergeAll_induction {P : List Tree → Tree → Prop} (one : ∀ t, P [t] t)
    (merge : ∀ {live rest others a b} m, extractLeast live = some (a, rest) → extractLeast rest = some (b, others) →
      ∀ root, P (merged m a b others) root → P live root)
    {fuel : Nat} (m : Nat) {live : List Tree} (hne : live ≠ []) (hfuel : live.length ≤ fuel) :
    ∃ root, mergeAll fuel m live = some root ∧ P live root := by
  induction fuel generalizing m live with
  | zero => exact absurd (List.length_eq_zero_iff.1 (Nat.le_zero.1 hfuel)) hne
  | succ fuel ih =>
    cases ha : extractLeast live with
    | none => exact absurd (eq_nil_of_extractLeast ha) hne
    | some first =>
      obtain ⟨a, rest⟩ := first
      cases hb : extractLeast rest with
      | none =>
        obtain rfl := eq_nil_of_extractLeast hb
        obtain rfl := (extractLeast_spec ha).1.symm.eq_singleton
        exact ⟨a, rfl, one a⟩
      | some second =>
        obtain ⟨b, others⟩ := second
        have hlen := length_of_extracted_twice ha hb m
        obtain ⟨root, hroot, hP⟩ := ih (m + 1) (live := merged m a b others) nofun (by omega)
        exact ⟨root, (mergeAll_merge ha hb).trans hroot, merge m ha hb root hP⟩

/-! ### The leaves of a tree -/

/-- The leaves of a tree from left to right, as `(weight, symbol)`. -/
def Tree.leaves : Tree → List (Nat × Nat)
  | .leaf sym weight => [(weight, sym)]
  | .internal _ _ child0 child1 => child0.leaves ++ child1.leaves

/-- The symbols of the leaves of a tree. -/
def Tree.syms (t : Tree) : List Nat := t.leaves.map Prod.snd

@[simp] theorem Tree.syms_leaf (sym weight : Nat) : (Tree.leaf sym weight).syms = [sym] := rfl

@[simp] theorem Tree.syms_internal (key weight : Nat) (child0 child1 : Tree) :
    (Tree.internal key weight child0 child1).syms = child0.syms ++ child1.syms := List.map_append

@[simp] theorem Tree.length_leaves (t : Tree) : t.leaves.length = t.leafCount := by
  induction t with
  | leaf => rfl
  | internal key weight child0 child1 ih0 ih1 => simp [Tree.leaves, Tree.leafCount, ih0, ih1]

/-- The depth of the leaf of symbol `s`, 0 when there is none (R145). -/
def Tree.depthOf (t : Tree) (s : Nat) : Nat := (t.depth? s).getD 0

theorem Tree.depth?_eq_none_iff {t : Tree} {s : Nat} : t.depth? s = none ↔ s ∉ t.syms := by
  induction t with
  | leaf sym weight => simp [Tree.depth?, eq_comm]
  | internal key weight child0 child1 ih0 ih1 => simp [Tree.depth?, ih0, ih1]

theorem Tree.depthOf_child0 {key weight s : Nat} {child0 child1 : Tree} (h : s ∈ child0.syms) :
    (Tree.internal key weight child0 child1).depthOf s = child0.depthOf s + 1 := by
  obtain ⟨d, hd⟩ := Option.ne_none_iff_exists'.1 (mt Tree.depth?_eq_none_iff.1 (not_not.2 h))
  simp [Tree.depthOf, Tree.depth?, hd]

theorem Tree.depthOf_child1 {key weight s : Nat} {child0 child1 : Tree} (h0 : s ∉ child0.syms)
    (h : s ∈ child1.syms) : (Tree.internal key weight child0 child1).depthOf s = child1.depthOf s + 1 := by
  obtain ⟨d, hd⟩ := Option.ne_none_iff_exists'.1 (mt Tree.depth?_eq_none_iff.1 (not_not.2 h))
  simp [Tree.depthOf, Tree.depth?, hd, Tree.depth?_eq_none_iff.2 h0]

/-- Below an internal node every leaf is one deeper than below its child (R145). -/
theorem Tree.depthOf_internal_pos {key weight s : Nat} {child0 child1 : Tree}
    (h : s ∈ (Tree.internal key weight child0 child1).syms) :
    1 ≤ (Tree.internal key weight child0 child1).depthOf s := by
  by_cases h0 : s ∈ child0.syms
  · rw [Tree.depthOf_child0 h0]; omega
  · rw [Tree.depthOf_child1 h0 (by simpa [h0] using h)]; omega

/-- A sum over the leaves of a tree of what weight and depth give. -/
def Tree.sumLeaves (t : Tree) (f : Nat → Nat → Nat) : Nat := (t.leaves.map fun p => f p.1 (t.depthOf p.2)).sum

/-- Under an internal node the leaves are those of its children, one deeper. -/
theorem Tree.sumLeaves_internal {key weight : Nat} {child0 child1 : Tree}
    (hnd : (Tree.internal key weight child0 child1).syms.Nodup) (f : Nat → Nat → Nat) :
    (Tree.internal key weight child0 child1).sumLeaves f =
      child0.sumLeaves (fun w d => f w (d + 1)) + child1.sumLeaves fun w d => f w (d + 1) := by
  obtain ⟨-, -, hdisj⟩ := List.nodup_append'.1 (Tree.syms_internal .. ▸ hnd)
  simp only [Tree.sumLeaves, Tree.leaves, List.map_append, List.sum_append]
  congr 2
  · apply List.map_congr_left
    intro p hp
    rw [Tree.depthOf_child0 (List.mem_map_of_mem hp)]
  · apply List.map_congr_left
    intro p hp
    have hs : p.2 ∈ child1.syms := List.mem_map_of_mem hp
    rw [Tree.depthOf_child1 (fun h0 => hdisj h0 hs) hs]

/-- A full binary tree has Kraft sum 1, here times `2^bound` (R146). -/
theorem Tree.kraft_eq {t : Tree} (hnd : t.syms.Nodup) {bound : Nat} (hb : t.leafCount ≤ bound + 1) :
    (t.sumLeaves fun _ d => 2 ^ (bound - d)) = 2 ^ bound := by
  induction t generalizing bound with
  | leaf sym weight => simp [Tree.sumLeaves, Tree.leaves, Tree.depthOf, Tree.depth?]
  | internal key weight child0 child1 ih0 ih1 =>
    obtain ⟨hnd0, hnd1, -⟩ := List.nodup_append'.1 (Tree.syms_internal .. ▸ hnd)
    have h0 := child0.leafCount_pos
    have h1 := child1.leafCount_pos
    rw [Tree.leafCount] at hb
    obtain ⟨bound, rfl⟩ : ∃ n, bound = n + 1 := ⟨bound - 1, by omega⟩
    rw [Tree.sumLeaves_internal hnd]
    simp only [Nat.add_sub_add_right]
    rw [ih0 hnd0 (by omega), ih1 hnd1 (by omega), pow_succ]
    omega

/-! ### The tree of a table of counts -/

/-- The leaves of the tree are the symbols that occur, with their counts (R141). -/
theorem buildTree_leaves {freq : List Nat} (h : presentOf freq ≠ []) :
    ∃ root, buildTree freq = some root ∧ root.leaves.Perm (presentOf freq) := by
  have hleaves : (leavesOf freq).flatMap Tree.leaves = presentOf freq := by
    simp [leavesOf, presentOf, List.flatMap_map, Tree.leaves]
  rw [← hleaves]
  refine mergeAll_induction (P := fun live root => root.leaves.Perm (live.flatMap Tree.leaves)) (fun t => ?_)
    (fun {live rest others a b} m ha hb root hroot => ?_) 0 ?_ (Nat.le_refl _)
  · simp
  · refine hroot.trans (.trans (.of_eq ?_) ((perm_of_extracted_twice ha hb).flatMap_right _))
    simp [merged, Tree.leaves]
  · simpa [leavesOf, presentOf] using h

theorem buildTree_eq_none {freq : List Nat} (h : presentOf freq = []) : buildTree freq = none := by
  have hleaves : leavesOf freq = [] := List.map_eq_nil_iff.2 h
  rw [buildTree, hleaves]
  rfl

end Sys2Proof.Machine
end

section
/-! SUPPORT. The Huffman encoder family: the code lengths of a table of counts (41_huffman_encode.md R144 to R146). -/

namespace Sys2Proof.Machine

theorem codeLengths_getD {freq : List Nat} {root : Tree} (h : buildTree freq = some root) {s : Nat} (hs : s < 256) :
    (codeLengths freq).getD s 0 = root.lengthOf s := by
  simp [codeLengths, h, List.getD_eq_getElem?_getD, List.getElem?_range hs]

/-- With no symbol present every length is 0 (R144). -/
theorem codeLengths_of_none {freq : List Nat} (h : presentOf freq = []) : codeLengths freq = List.replicate 256 0 := by
  simp only [codeLengths, buildTree_eq_none h]

/-- With two leaves or more a length is a depth (R145). -/
theorem Tree.lengthOf_eq_depthOf {root : Tree} (h : 2 ≤ root.leafCount) (s : Nat) : root.lengthOf s = root.depthOf s := by
  cases root with
  | leaf sym weight => exact absurd h (by simp [Tree.leafCount])
  | internal key weight child0 child1 => rfl

/-- Just the symbols of the tree have a length (R144, R145). -/
theorem Tree.lengthOf_eq_zero_iff (root : Tree) (s : Nat) : root.lengthOf s = 0 ↔ s ∉ root.syms := by
  cases root with
  | leaf sym weight => simp [Tree.lengthOf, eq_comm]
  | internal key weight child0 child1 =>
    refine ⟨fun h hs => ?_, fun h => ?_⟩
    · have hpos := Tree.depthOf_internal_pos hs
      rw [show (Tree.internal key weight child0 child1).depthOf s = 0 from h] at hpos
      omega
    · simp [Tree.lengthOf, Tree.depth?_eq_none_iff.2 h]

theorem Tree.eq_leaf_of_leafCount {t : Tree} (h : t.leafCount = 1) : ∃ sym weight, t = .leaf sym weight := by
  cases t with
  | leaf sym weight => exact ⟨sym, weight, rfl⟩
  | internal key weight child0 child1 =>
    have h0 := child0.leafCount_pos
    have h1 := child1.leafCount_pos
    rw [Tree.leafCount] at h
    omega

/-- `root` is the tree of a table of 256 counts: its leaves are the symbols that occur, with their counts (R141). -/
structure TreeOf (freq : List Nat) (root : Tree) : Prop where
  length : freq.length = 256
  built : buildTree freq = some root
  leaves : root.leaves.Perm (presentOf freq)

namespace TreeOf

variable {freq : List Nat} {root : Tree}

theorem exists_root (hlen : freq.length = 256) (h : presentOf freq ≠ []) : ∃ root, TreeOf freq root :=
  (buildTree_leaves h).imp fun _ hroot => ⟨hlen, hroot.1, hroot.2⟩

/-- The symbols of the tree are those present, each once (R141). -/
theorem nodup_syms (h : TreeOf freq root) : root.syms.Nodup := (h.leaves.map _).nodup_iff.2 (nodup_presentOf freq)

theorem mem_syms (h : TreeOf freq root) {s : Nat} : s ∈ root.syms ↔ freq.getD s 0 ≠ 0 :=
  (h.leaves.map Prod.snd).mem_iff.trans mem_presentOf_getD

theorem leafCount_eq (h : TreeOf freq root) : root.leafCount = freq.countP (· ≠ 0) := by
  rw [← Tree.length_leaves, h.leaves.length_eq, length_presentOf]

theorem leafCount_le (h : TreeOf freq root) : root.leafCount ≤ 256 :=
  h.leafCount_eq ▸ h.length ▸ List.countP_le_length

theorem getD_eq_lengthOf (h : TreeOf freq root) {s : Nat} (hs : s < 256) :
    (codeLengths freq).getD s 0 = root.lengthOf s := codeLengths_getD h.built hs

/-- The encoder gives a length to just the symbols that occur (R144). -/
theorem getD_eq_zero_iff (h : TreeOf freq root) {s : Nat} (hs : s < 256) :
    (codeLengths freq).getD s 0 = 0 ↔ freq.getD s 0 = 0 := by
  rw [h.getD_eq_lengthOf hs, root.lengthOf_eq_zero_iff, h.mem_syms, not_not]

/-- A length is 1 for a lone symbol, and else below the number of symbols (R146). -/
theorem getD_bounds (h : TreeOf freq root) {s : Nat} (hs : s < 256) (hne : freq.getD s 0 ≠ 0) :
    1 ≤ (codeLengths freq).getD s 0 ∧ (codeLengths freq).getD s 0 ≤ max 1 (freq.countP (· ≠ 0) - 1) := by
  refine ⟨Nat.one_le_iff_ne_zero.2 (mt (h.getD_eq_zero_iff hs).1 hne), ?_⟩
  rw [h.getD_eq_lengthOf hs, ← h.leafCount_eq]
  exact root.lengthOf_le_leafCount s

theorem getD_of_present (h : TreeOf freq root) {p : Nat × Nat} (hp : p ∈ presentOf freq) :
    (codeLengths freq).getD p.2 0 = root.lengthOf p.2 := by
  obtain ⟨hs, -⟩ := List.getElem?_eq_some_iff.1 (mem_presentOf.1 hp).1
  exact h.getD_eq_lengthOf (h.length ▸ hs)

/-- The Kraft sum of the encoder's lengths, over the leaves of its tree (R183). -/
theorem kraftSum_eq (h : TreeOf freq root) :
    kraftSum (codeLengths freq) = (root.leaves.map fun p => 2 ^ (255 - root.lengthOf p.2)).sum := by
  rw [(h.leaves.map _).sum_eq, kraftSum,
    presentOf_eq_map (by simp [h.length]) fun s hs => h.getD_eq_zero_iff (h.length ▸ hs), List.map_map]
  congr 1
  apply List.map_congr_left
  intro p hp
  rw [Function.comp_apply, h.getD_of_present hp]

/-- `B` over the leaves of the encoder's tree (R149). -/
theorem payloadBits_eq (h : TreeOf freq root) :
    payloadBits freq (codeLengths freq) = (root.leaves.map fun p => p.1 * root.lengthOf p.2).sum := by
  rw [(h.leaves.map _).sum_eq, payloadBits_eq_sum (by simp [h.length])]
  congr 1
  apply List.map_congr_left
  intro p hp
  rw [h.getD_of_present hp]

/-- With two symbols or more the lengths make a full tree (R146). -/
theorem kraftSum_of_two_le (h : TreeOf freq root) (hk : 2 ≤ root.leafCount) :
    kraftSum (codeLengths freq) = 2 ^ 255 := by
  rw [h.kraftSum_eq, ← Tree.kraft_eq h.nodup_syms (bound := 255) h.leafCount_le]
  simp only [Tree.lengthOf_eq_depthOf hk, Tree.sumLeaves]

/-- With one symbol the Kraft sum is 1/2 (R146). -/
theorem kraftSum_of_one (h : TreeOf freq root) (hk : root.leafCount = 1) : kraftSum (codeLengths freq) = 2 ^ 254 := by
  obtain ⟨sym, weight, rfl⟩ := Tree.eq_leaf_of_leafCount hk
  rw [h.kraftSum_eq]
  simp [Tree.leaves, Tree.lengthOf]

end TreeOf

theorem kraftSum_replicate_zero (n : Nat) : kraftSum (List.replicate n 0) = 0 := by
  have hnone : presentOf (List.replicate n 0) = [] :=
    List.length_eq_zero_iff.1 (by simp [length_presentOf, List.countP_replicate])
  rw [kraftSum, hnone]
  rfl

/-- Settles O29: all lengths are 0 without a symbol; else they are those of the tree, with one leaf or more. -/
theorem codeLengthsFormFullTree : Obligations.CodeLengthsFormFullTree := by
  intro input freq lens k
  refine ⟨length_codeLengths freq, ?_⟩
  by_cases hnone : presentOf freq = []
  · have hk : k = 0 := by rw [show k = (presentOf freq).length from (length_presentOf freq).symm, hnone]; rfl
    have hlens : lens = List.replicate 256 0 := codeLengths_of_none hnone
    have hkraft : kraftSum lens = 0 := hlens ▸ kraftSum_replicate_zero 256
    exact ⟨decide_eq_true (hkraft ▸ Nat.zero_le _), fun s hs _ => by rw [hlens, List.getD_replicate _ hs],
      fun h => by omega, fun h => by omega⟩
  · obtain ⟨root, h⟩ := TreeOf.exists_root (length_freqOf input) hnone
    have hk : root.leafCount = k := h.leafCount_eq
    have hpos := root.leafCount_pos
    have hle := h.leafCount_le
    refine ⟨decide_eq_true ?_, fun s hs => (h.getD_eq_zero_iff hs).2, fun hone => ?_, fun htwo => ?_⟩
    · by_cases hone : root.leafCount = 1
      · rw [h.kraftSum_of_one hone]; omega
      · rw [h.kraftSum_of_two_le (by omega)]
    · refine ⟨h.kraftSum_of_one (hk.trans hone), fun s hs hne => ?_⟩
      have hmin : 1 ≤ lens.getD s 0 := (h.getD_bounds hs hne).1
      have hmax : lens.getD s 0 ≤ max 1 (k - 1) := (h.getD_bounds hs hne).2
      omega
    · refine ⟨h.kraftSum_of_two_le (hk ▸ htwo), fun s hs hne => ?_⟩
      have hmax : lens.getD s 0 ≤ max 1 (k - 1) := (h.getD_bounds hs hne).2
      exact ⟨(h.getD_bounds hs hne).1, by omega, by omega⟩

/-- With two symbols or more, the encoder's length of a symbol is the depth of its leaf (R145). -/
theorem codeLengths_eq_depth {freq : List Nat} {root : Tree} (htwo : 2 ≤ (leavesOf freq).length)
    (hroot : buildTree freq = some root) {s : Nat} (hs : s < 256) :
    (codeLengths freq).getD s 0 = (root.depth? s).getD 0 := by
  have hlen : (leavesOf freq).length = (presentOf freq).length := List.length_map _
  obtain ⟨root', hroot', hleaves⟩ :=
    buildTree_leaves (freq := freq) (List.ne_nil_of_length_pos (by omega))
  obtain rfl : root' = root := Option.some.inj (hroot'.symm.trans hroot)
  rw [codeLengths_getD hroot hs]
  exact Tree.lengthOf_eq_depthOf (by rw [← Tree.length_leaves, hleaves.length_eq]; omega) s

theorem leavesOf_eq (freq : List Nat) : leavesOf freq = (presentOf freq).map fun p => .leaf p.2 p.1 := rfl

theorem mem_leavesOf {freq : List Nat} {t : Tree} :
    t ∈ leavesOf freq ↔ ∃ s w, freq[s]? = some w ∧ w ≠ 0 ∧ t = .leaf s w := by
  rw [leavesOf_eq, List.mem_map]
  constructor
  · rintro ⟨⟨w, s⟩, hp, rfl⟩
    obtain ⟨hw, hne⟩ := mem_presentOf.1 hp
    exact ⟨s, w, hw, hne, rfl⟩
  · rintro ⟨s, w, hw, hne, rfl⟩
    exact ⟨(w, s), mem_presentOf.2 ⟨hw, hne⟩, rfl⟩

/-- Settles O30: the leaves, the least node, one merge, and the depths; the example runs. -/
theorem treeBuilderIsGreedy : Obligations.TreeBuilderIsGreedy := by
  refine ⟨fun _ _ => mem_leavesOf, fun _ => extractLeast_eq_none_iff, fun _ _ _ => extractLeast_spec, fun _ _ => rfl,
    fun m live a rest b others ha hb => ?_, fun _ => rfl, fun _ _ htwo hroot _ => codeLengths_eq_depth htwo hroot, ?_⟩
  · rw [length_of_extracted_twice ha hb m]
    exact mergeAll_merge ha hb
  · decide +kernel

end Sys2Proof.Machine
end

section
/-! SUPPORT. The Huffman encoder family: the greedy tree costs no more than 8 bits a symbol (41_huffman_encode.md R149).
With at most `2^(d+1)` nodes live, give depth `d + 1` to some of them and depth `d` to the rest. A merge takes the two
lightest of all, so it can take two of the deeper ones for them, and puts their parent back at depth `d`. -/

namespace Sys2Proof.Machine

/-! ### The cost of a tree -/

/-- What the merges of a tree cost: the weight of every internal node. -/
def Tree.cost : Tree → Nat
  | .leaf _ _ => 0
  | .internal _ weight child0 child1 => child0.cost + child1.cost + weight

/-- Every internal node has the summed weight of its children (R142). -/
def Tree.Weighed : Tree → Prop
  | .leaf _ _ => True
  | .internal _ weight child0 child1 => weight = child0.weight + child1.weight ∧ child0.Weighed ∧ child1.Weighed

theorem Tree.Weighed.weight_eq {t : Tree} (h : t.Weighed) : t.weight = (t.leaves.map Prod.fst).sum := by
  induction t with
  | leaf => rfl
  | internal key weight child0 child1 ih0 ih1 =>
    obtain ⟨hw, h0, h1⟩ := h
    rw [Tree.leaves, List.map_append, List.sum_append, ← ih0 h0, ← ih1 h1]
    exact hw

theorem Tree.sumLeaves_mul_succ (t : Tree) :
    (t.sumLeaves fun w d => w * (d + 1)) = t.sumLeaves (· * ·) + (t.leaves.map Prod.fst).sum := by
  simp only [Tree.sumLeaves, Nat.mul_add, Nat.mul_one]
  exact List.sum_map_add

/-- The cost of a tree is the sum of its leaves' weights, each times its depth (R149). -/
theorem Tree.Weighed.cost_eq {t : Tree} (h : t.Weighed) (hnd : t.syms.Nodup) : t.sumLeaves (· * ·) = t.cost := by
  induction t with
  | leaf sym weight => simp [Tree.sumLeaves, Tree.leaves, Tree.depthOf, Tree.depth?, Tree.cost]
  | internal key weight child0 child1 ih0 ih1 =>
    obtain ⟨hnd0, hnd1, -⟩ := List.nodup_append'.1 (Tree.syms_internal .. ▸ hnd)
    obtain ⟨hw, h0, h1⟩ := h
    rw [Tree.sumLeaves_internal hnd, Tree.sumLeaves_mul_succ, Tree.sumLeaves_mul_succ, ih0 h0 hnd0, ih1 h1 hnd1,
      ← h0.weight_eq, ← h1.weight_eq, Tree.cost, hw]
    omega

/-! ### Deeper nodes -/

/-- The weights of the live nodes. -/
def weights (live : List Tree) : Multiset Nat := (live.map Tree.weight : List Nat)

/-- Of some deeper nodes the least of all can take a place: the others have at least its weight. -/
theorem exists_without_least {least : Nat} {others deep : Multiset Nat} (hleast : ∀ w ∈ others, least ≤ w)
    (hdeep : deep ≤ least ::ₘ others) (hne : deep ≠ 0) :
    ∃ deep' ≤ others, deep'.card + 1 = deep.card ∧ deep'.sum + least ≤ deep.sum := by
  by_cases hmem : least ∈ deep
  · refine ⟨deep.erase least, Multiset.erase_le_iff_le_cons.2 hdeep, Multiset.card_erase_add_one hmem, ?_⟩
    rw [← Multiset.sum_erase hmem, Nat.add_comm]
  · have hle : deep ≤ others := (Multiset.le_cons_of_notMem hmem).1 hdeep
    obtain ⟨w, hw⟩ := Multiset.exists_mem_of_ne_zero hne
    have hlw := hleast w (Multiset.mem_of_le hle hw)
    refine ⟨deep.erase w, (Multiset.erase_le _ _).trans hle, Multiset.card_erase_add_one hw, ?_⟩
    rw [← Multiset.sum_erase hw]
    omega

@[simp] theorem weights_cons (t : Tree) (live : List Tree) : weights (t :: live) = t.weight ::ₘ weights live := rfl

@[simp] theorem card_weights (live : List Tree) : (weights live).card = live.length := by simp [weights]

theorem weights_extractLeast {live rest : List Tree} {a : Tree} (h : extractLeast live = some (a, rest)) :
    weights live = a.weight ::ₘ weights rest ∧ ∀ w ∈ weights rest, a.weight ≤ w := by
  obtain ⟨hperm, hleast⟩ := extractLeast_spec h
  refine ⟨(Multiset.coe_eq_coe.2 (hperm.map Tree.weight)).symm, fun w hw => ?_⟩
  obtain ⟨t, ht, rfl⟩ := List.mem_map.1 (Multiset.mem_coe.1 hw)
  exact (hleast t ht).weight_le

/-- The two nodes of a merge can take the places of two deeper ones. -/
theorem exists_without_two {live rest others : List Tree} {a b : Tree}
    (ha : extractLeast live = some (a, rest)) (hb : extractLeast rest = some (b, others)) {deep : Multiset Nat}
    (hdeep : deep ≤ weights live) (hcard : 2 ≤ deep.card) :
    ∃ deep' ≤ weights others, deep'.card + 2 = deep.card ∧ deep'.sum + a.weight + b.weight ≤ deep.sum := by
  obtain ⟨hlive, hleast⟩ := weights_extractLeast ha
  obtain ⟨hrest, hleast'⟩ := weights_extractLeast hb
  obtain ⟨deep₁, hle₁, hcard₁, hsum₁⟩ := exists_without_least hleast (hlive ▸ hdeep)
    (Multiset.card_pos.1 (by omega))
  obtain ⟨deep₂, hle₂, hcard₂, hsum₂⟩ := exists_without_least hleast' (hrest ▸ hle₁)
    (Multiset.card_pos.1 (by omega))
  exact ⟨deep₂, hle₂, by omega, by omega⟩

/-! ### The bound -/

/-- The root costs no more than depth `depth + 1` for some of the live nodes and `depth` for the others, whenever
these depths have Kraft sum at most 1. -/
def CostBound (live : List Tree) (root : Tree) : Prop :=
  ∀ (depth : Nat) (deep : Multiset Nat), deep ≤ weights live → 2 * live.length ≤ 2 ^ (depth + 1) + deep.card →
    root.cost ≤ (live.map Tree.cost).sum + depth * (weights live).sum + deep.sum

/-- A merge carries the bound back when two of the nodes lie deeper: they can be the two it takes. -/
theorem CostBound.of_merged_deep {live rest others : List Tree} {a b root : Tree} {m : Nat}
    (ha : extractLeast live = some (a, rest)) (hb : extractLeast rest = some (b, others))
    (h : CostBound (merged m a b others) root) {depth : Nat} {deep : Multiset Nat} (hdeep : deep ≤ weights live)
    (hkraft : 2 * live.length ≤ 2 ^ (depth + 1) + deep.card) (hcard : 2 ≤ deep.card) :
    root.cost ≤ (live.map Tree.cost).sum + depth * (weights live).sum + deep.sum := by
  obtain ⟨deep', hle, hcard', hsum⟩ := exists_without_two ha hb hdeep hcard
  have hlen := length_of_extracted_twice ha hb m
  have hbound := h depth deep' (hle.trans (Multiset.le_cons_self _ _)) (by omega)
  have hcost : (live.map Tree.cost).sum = a.cost + (b.cost + (others.map Tree.cost).sum) :=
    ((perm_of_extracted_twice ha hb).map Tree.cost).sum_eq.symm
  have hmcost : ((merged m a b others).map Tree.cost).sum =
      a.cost + b.cost + (a.weight + b.weight) + (others.map Tree.cost).sum := by simp [merged, Tree.cost]
  have hweights : (weights (merged m a b others)).sum = (weights live).sum := by
    rw [(weights_extractLeast ha).1, (weights_extractLeast hb).1]
    simp [merged, Tree.weight, Nat.add_assoc]
  rw [hweights] at hbound
  omega

/-- A merge carries the bound back: with fewer than two nodes deeper, all fit one level up. -/
theorem CostBound.of_merged {live rest others : List Tree} {a b root : Tree} {m : Nat}
    (ha : extractLeast live = some (a, rest)) (hb : extractLeast rest = some (b, others))
    (h : CostBound (merged m a b others) root) : CostBound live root := by
  intro depth deep hdeep hkraft
  by_cases hcard : 2 ≤ deep.card
  · exact h.of_merged_deep ha hb hdeep hkraft hcard
  · have hlen := length_of_extracted_twice ha hb m
    have htwo : 2 ≤ live.length := by rw [hlen]; simp [merged]
    rw [pow_succ] at hkraft
    cases depth with
    | zero => omega
    | succ depth =>
      have hbound := h.of_merged_deep ha hb (depth := depth) (le_refl (weights live)) (by rw [card_weights]; omega)
        (by rw [card_weights]; exact htwo)
      rw [Nat.succ_mul]
      omega

theorem weighed_of_merged {live rest others : List Tree} {a b : Tree} {m : Nat}
    (ha : extractLeast live = some (a, rest)) (hb : extractLeast rest = some (b, others))
    (h : ∀ t ∈ live, t.Weighed) : ∀ t ∈ merged m a b others, t.Weighed := by
  have hlive : ∀ t ∈ a :: b :: others, t.Weighed := fun t ht =>
    h t ((perm_of_extracted_twice ha hb).mem_iff.1 ht)
  simp only [List.forall_mem_cons] at hlive
  obtain ⟨hwa, hwb, hothers⟩ := hlive
  exact List.forall_mem_cons.2 ⟨⟨rfl, hwa, hwb⟩, hothers⟩

/-! ### The leaves the tree starts from -/

theorem sum_weights_leavesOf (freq : List Nat) : (weights (leavesOf freq)).sum = freq.sum := by
  rw [← sum_presentOf, weights, leavesOf_eq, List.map_map]
  rfl

theorem sum_cost_leavesOf (freq : List Nat) : ((leavesOf freq).map Tree.cost).sum = 0 := by
  simp [leavesOf_eq, Function.comp_def, Tree.cost]

theorem weighed_leavesOf (freq : List Nat) : ∀ t ∈ leavesOf freq, t.Weighed := by
  intro t ht
  obtain ⟨sym, weight, -, -, rfl⟩ := mem_leavesOf.1 ht
  trivial

namespace TreeOf

variable {freq : List Nat} {root : Tree}

theorem length_leavesOf (h : TreeOf freq root) : (leavesOf freq).length = root.leafCount := by
  rw [leavesOf_eq, List.length_map, ← h.leaves.length_eq, Tree.length_leaves]

/-- The root of a table of counts has summed weights and keeps the cost bound (R142). -/
theorem weighed_and_bounded (h : TreeOf freq root) : root.Weighed ∧ CostBound (leavesOf freq) root := by
  have hne : leavesOf freq ≠ [] := List.ne_nil_of_length_pos (h.length_leavesOf ▸ root.leafCount_pos)
  obtain ⟨root', hroot', hweighed, hbound⟩ :=
    mergeAll_induction (P := fun live root => ((∀ t ∈ live, t.Weighed) → root.Weighed) ∧ CostBound live root)
      (fun t => ⟨fun ht => ht t (List.mem_singleton.2 rfl), fun depth deep _ _ => by simp; omega⟩)
      (fun m ha hb root hP => ⟨fun hw => hP.1 (weighed_of_merged ha hb hw), hP.2.of_merged ha hb⟩)
      0 hne (Nat.le_refl _)
  obtain rfl : root' = root := Option.some.inj (hroot'.symm.trans h.built)
  exact ⟨hweighed (weighed_leavesOf freq), hbound⟩

/-- Up to 256 leaves at depth 8 have Kraft sum at most 1 (R149). -/
theorem cost_le (h : TreeOf freq root) : root.cost ≤ 8 * freq.sum := by
  have hlen : (leavesOf freq).length ≤ 256 := h.length_leavesOf.trans_le h.leafCount_le
  have hbound := h.weighed_and_bounded.2 7 (weights (leavesOf freq)) (le_refl _) (by rw [card_weights]; omega)
  rw [sum_cost_leavesOf, sum_weights_leavesOf] at hbound
  omega

/-- A lone symbol costs one bit each time it occurs (R149). -/
theorem payloadBits_of_one (h : TreeOf freq root) (hk : root.leafCount = 1) :
    payloadBits freq (codeLengths freq) = freq.sum := by
  obtain ⟨sym, weight, rfl⟩ := Tree.eq_leaf_of_leafCount hk
  rw [h.payloadBits_eq, ← sum_presentOf freq, ← (h.leaves.map Prod.fst).sum_eq]
  simp [Tree.leaves, Tree.lengthOf]

/-- With two symbols or more `B` is the cost of the tree (R149). -/
theorem payloadBits_of_two_le (h : TreeOf freq root) (hk : 2 ≤ root.leafCount) :
    payloadBits freq (codeLengths freq) = root.cost := by
  rw [h.payloadBits_eq, ← h.weighed_and_bounded.1.cost_eq h.nodup_syms]
  simp only [Tree.lengthOf_eq_depthOf hk, Tree.sumLeaves]

end TreeOf

/-! ### The payload of an input -/

theorem length_payloadOf (input : List Byte) : (payloadOf (inputLengths input) input).length = inputBits input := by
  rw [inputBits, payloadBits_freqOf _ _ (length_inputLengths _), payloadOf, List.length_flatMap]
  simp [codeword, codeBits]

/-- Without a symbol there is no payload (R152). -/
theorem inputBits_of_none {input : List Byte} (h : (freqOf input).countP (· ≠ 0) = 0) : inputBits input = 0 := by
  have hnone : presentOf (freqOf input) = [] := List.length_eq_zero_iff.1 ((length_presentOf _).trans h)
  rw [inputBits, payloadBits_eq_sum (by simp), hnone]
  rfl

theorem exists_treeOf {input : List Byte} (h : (freqOf input).countP (· ≠ 0) ≠ 0) :
    ∃ root, TreeOf (freqOf input) root ∧ root.leafCount = (freqOf input).countP (· ≠ 0) := by
  rw [← length_presentOf] at h
  obtain ⟨root, hroot⟩ := TreeOf.exists_root (length_freqOf input) (List.ne_nil_of_length_pos (Nat.pos_of_ne_zero h))
  exact ⟨root, hroot, hroot.leafCount_eq⟩

/-- With one symbol every byte of the input takes one bit (R153). -/
theorem inputBits_of_one {input : List Byte} (h : (freqOf input).countP (· ≠ 0) = 1) :
    inputBits input = input.length := by
  obtain ⟨root, hroot, hk⟩ := exists_treeOf (input := input) (by omega)
  exact (hroot.payloadBits_of_one (hk.trans h)).trans (sum_freqOf input)

/-- A byte of the input takes at most 8 bits on average (R149). -/
theorem inputBits_le (input : List Byte) : inputBits input ≤ 8 * input.length := by
  rcases Nat.lt_trichotomy ((freqOf input).countP (· ≠ 0)) 1 with h | h | h
  · rw [inputBits_of_none (by omega)]
    exact Nat.zero_le _
  · rw [inputBits_of_one h]
    omega
  · obtain ⟨root, hroot, hk⟩ := exists_treeOf (input := input) (by omega)
    rw [← sum_freqOf input]
    exact (hroot.payloadBits_of_two_le (by omega)).trans_le hroot.cost_le

/-- Settles O31: the cases of R149, and the width and the size follow from the bound of 8 bits a byte. -/
theorem payloadBitBound : Obligations.PayloadBitBound := by
  intro input
  have hle := inputBits_le input
  refine ⟨(length_payloadOf input).symm, hle, inputBits_of_none, inputBits_of_one, fun h => by omega, ?_⟩
  unfold cdiv
  omega

end Sys2Proof.Machine
end

section
/-! SUPPORT. The Huffman encoder family: the canonical code in closed form (41_huffman_encode.md R147). A code of length
`l` stands for the `2^(n - l)` words of `n` bits it begins; a symbol's code counts, at its own length, what the symbols
before it take. -/

namespace Sys2Proof.Machine

/-! ### The canonical order -/

/-- The order by length, then symbol (R147). -/
abbrev Precedes (p q : Nat × Nat) : Prop := p.1 < q.1 ∨ p.1 = q.1 ∧ p.2 < q.2

theorem Precedes.asymm {p q : Nat × Nat} (h : Precedes p q) : ¬ Precedes q p := by
  unfold Precedes at *
  omega

theorem Precedes.le {p q : Nat × Nat} (h : Precedes p q) : p.1 ≤ q.1 := by
  unfold Precedes at h
  omega

theorem not_precedes_self (p : Nat × Nat) : ¬ Precedes p p := fun h => h.asymm h

theorem Precedes.ne {p q : Nat × Nat} (h : Precedes p q) : p ≠ q := fun heq => not_precedes_self q (heq ▸ h)

theorem precedes_or_precedes {p q : Nat × Nat} (h : p.2 ≠ q.2) : Precedes p q ∨ Precedes q p := by
  unfold Precedes
  omega

theorem pairwise_presentOf (table : List Nat) : (presentOf table).Pairwise fun p q => p.2 < q.2 := by
  rw [presentOf, zipIdx_eq_map_range]
  exact List.Pairwise.filter _ (List.pairwise_map.2 List.pairwise_lt_range)

theorem canonOrder_sorted (lens : List Nat) : (canonOrder lens).Pairwise Precedes := by
  refine List.pairwise_flatMap.2 ⟨fun l _ => ?_, (List.pairwise_lt_range' _).imp fun hlt p hp q hq => .inl ?_⟩
  · refine ((pairwise_presentOf lens).filter _).imp_of_mem fun {p q} hp hq hpq => .inr ⟨?_, hpq⟩
    rw [of_decide_eq_true (List.mem_filter.1 hp).2, of_decide_eq_true (List.mem_filter.1 hq).2]
  · rwa [of_decide_eq_true (List.mem_filter.1 hp).2, of_decide_eq_true (List.mem_filter.1 hq).2]

theorem nodup_of_sorted {ps : List (Nat × Nat)} (h : ps.Pairwise Precedes) : ps.Nodup :=
  h.imp Precedes.ne

/-- The canonical order lists just the present symbols, when no length is above 255 (R147). -/
theorem canonOrder_perm {lens : List Nat} (hle : ∀ l ∈ lens, l ≤ 255) : (canonOrder lens).Perm (presentOf lens) := by
  refine (List.perm_ext_iff_of_nodup (nodup_of_sorted (canonOrder_sorted lens)) (nodup_presentOf lens).of_map).2 ?_
  intro p
  simp only [canonOrder, List.mem_flatMap, List.mem_filter, decide_eq_true_eq, List.mem_range'_1]
  refine ⟨fun ⟨_, _, hp, _⟩ => hp, fun hp => ⟨p.1, ?_, hp, rfl⟩⟩
  obtain ⟨hget, hne⟩ := mem_presentOf.1 hp
  have := hle p.1 (List.mem_of_getElem? hget)
  simp only [Config.maxCodeLen]
  omega

/-! ### Words taken -/

/-- The words of `n` bits that begin with a code of these symbols. -/
def wordsTaken (n : Nat) (ps : List (Nat × Nat)) : Nat := (ps.map fun p => 2 ^ (n - p.1)).sum

theorem wordsTaken_append (n : Nat) (ps qs : List (Nat × Nat)) :
    wordsTaken n (ps ++ qs) = wordsTaken n ps + wordsTaken n qs := by simp [wordsTaken]

theorem wordsTaken_cons (n : Nat) (p : Nat × Nat) (ps : List (Nat × Nat)) :
    wordsTaken n (p :: ps) = 2 ^ (n - p.1) + wordsTaken n ps := rfl

theorem wordsTaken_perm {ps qs : List (Nat × Nat)} (h : ps.Perm qs) (n : Nat) :
    wordsTaken n ps = wordsTaken n qs := (h.map _).sum_eq

/-- Each further bit doubles the words taken. -/
theorem wordsTaken_scale {ps : List (Nat × Nat)} {l n : Nat} (hl : ∀ p ∈ ps, p.1 ≤ l) (hn : l ≤ n) :
    wordsTaken n ps = wordsTaken l ps * 2 ^ (n - l) := by
  induction ps with
  | nil => simp [wordsTaken]
  | cons p ps ih =>
    obtain ⟨hp, hps⟩ := List.forall_mem_cons.1 hl
    rw [wordsTaken_cons, wordsTaken_cons, ih hps, Nat.add_mul, ← pow_add]
    congr 3
    omega

/-! ### The closed form -/

/-- The code of a symbol among those present: what the symbols before it take, at its own length. -/
def codeIn (ps : List (Nat × Nat)) (q : Nat × Nat) : Nat := wordsTaken q.1 (ps.filter fun p => Precedes p q)

theorem filter_precedes {before after : List (Nat × Nat)} {q : Nat × Nat}
    (h : (before ++ q :: after).Pairwise Precedes) :
    (before ++ q :: after).filter (fun p => Precedes p q) = before := by
  obtain ⟨-, hq, hbefore⟩ := List.pairwise_append.1 h
  obtain ⟨hafter, -⟩ := List.pairwise_cons.1 hq
  rw [List.filter_append, List.filter_eq_self.2 fun p hp => decide_eq_true (hbefore p hp q List.mem_cons_self),
    List.filter_eq_nil_iff.2, List.append_nil]
  refine List.forall_mem_cons.2 ⟨?_, fun p hp => ?_⟩
  · simp
  · simpa using (hafter p hp).asymm

/-- What a symbol and those before it take, at any length from its own on. -/
theorem wordsTaken_upTo {before after : List (Nat × Nat)} {q : Nat × Nat} {n : Nat}
    (h : (before ++ q :: after).Pairwise Precedes) (hn : q.1 ≤ n) :
    wordsTaken n before + 2 ^ (n - q.1) = (codeIn (before ++ q :: after) q + 1) * 2 ^ (n - q.1) := by
  obtain ⟨-, -, hbefore⟩ := List.pairwise_append.1 h
  rw [codeIn, filter_precedes h, Nat.add_mul, Nat.one_mul,
    wordsTaken_scale (fun p hp => (hbefore p hp q List.mem_cons_self).le) hn]

/-- A later symbol's code is what an earlier one and those before it take, with what lies between the two. -/
theorem codeIn_later {before between after : List (Nat × Nat)} {p q : Nat × Nat}
    (h : (before ++ p :: (between ++ q :: after)).Pairwise Precedes) :
    codeIn (before ++ p :: (between ++ q :: after)) q =
      (codeIn (before ++ p :: (between ++ q :: after)) p + 1) * 2 ^ (q.1 - p.1) + wordsTaken q.1 between := by
  have hpq : Precedes p q := by
    obtain ⟨-, hp, -⟩ := List.pairwise_append.1 h
    exact (List.pairwise_cons.1 hp).1 q (by simp)
  have hassoc : before ++ p :: (between ++ q :: after) = (before ++ p :: between) ++ q :: after := by simp
  rw [← wordsTaken_upTo h hpq.le, codeIn, hassoc, filter_precedes (hassoc ▸ h), wordsTaken_append, wordsTaken_cons,
    Nat.add_assoc]

/-- The entry of a symbol with the code `codeIn` gives it. -/
def entryIn (ps : List (Nat × Nat)) (p : Nat × Nat) : CodeEntry := ⟨p.2, p.1, codeIn ps p⟩

/-- Each code is the one before it plus 1, shifted when the length grows (R147). -/
theorem canonFrom_eq {before after : List (Nat × Nat)} {q : Nat × Nat}
    (h : (before ++ q :: after).Pairwise Precedes) :
    canonFrom (codeIn (before ++ q :: after) q) q.1 after = after.map (entryIn (before ++ q :: after)) := by
  induction after generalizing before q with
  | nil => rfl
  | cons r after ih =>
    have hnext : (codeIn (before ++ q :: r :: after) q + 1) <<< (r.1 - q.1) = codeIn (before ++ q :: r :: after) r := by
      rw [Nat.shiftLeft_eq]
      exact (codeIn_later (between := []) h).symm
    have hassoc : before ++ q :: r :: after = (before ++ [q]) ++ r :: after := by simp
    simp only [canonFrom, hnext, List.map_cons, entryIn]
    rw [hassoc]
    exact congrArg _ (ih (hassoc ▸ h))

/-- The canonical code in closed form (R147). -/
theorem canon_eq (lens : List Nat) : canon lens = (canonOrder lens).map (entryIn (canonOrder lens)) := by
  have hsorted := canonOrder_sorted lens
  unfold canon
  split
  · rename_i h
    rw [h]
    rfl
  · rename_i l s rest h
    rw [h] at hsorted ⊢
    have hfirst : codeIn ((l, s) :: rest) (l, s) = 0 := by
      exact congrArg (wordsTaken l) (filter_precedes (before := []) hsorted)
    have hrest := canonFrom_eq (before := []) hsorted
    rw [List.nil_append, hfirst] at hrest
    rw [List.map_cons, hrest, entryIn, hfirst]

/-! ### Two entries -/

/-- Of two symbols in order, the later one's code lies past the words the earlier one's begins. -/
theorem codeIn_lt {ps : List (Nat × Nat)} (h : ps.Pairwise Precedes) {p q : Nat × Nat} (hp : p ∈ ps) (hq : q ∈ ps)
    (hpq : Precedes p q) : (codeIn ps p + 1) * 2 ^ (q.1 - p.1) ≤ codeIn ps q := by
  obtain ⟨before, rest, rfl⟩ := List.append_of_mem hp
  obtain ⟨-, -, hbefore⟩ := List.pairwise_append.1 h
  have hrest : q ∈ rest := by
    rcases List.mem_append.1 hq with hq | hq
    · exact absurd (hbefore q hq p List.mem_cons_self) hpq.asymm
    · exact (List.mem_cons.1 hq).resolve_left hpq.ne.symm
  obtain ⟨between, after, rfl⟩ := List.append_of_mem hrest
  rw [codeIn_later h]
  exact Nat.le_add_right _ _

/-- Of two different symbols the code of one does not begin the code of the other (R147). -/
theorem codeIn_prefixFree {ps : List (Nat × Nat)} (h : ps.Pairwise Precedes) {p q : Nat × Nat} (hp : p ∈ ps)
    (hq : q ∈ ps) (hne : p.2 ≠ q.2) (hle : p.1 ≤ q.1) : codeIn ps q >>> (q.1 - p.1) ≠ codeIn ps p := by
  rw [Nat.shiftRight_eq_div_pow]
  rcases precedes_or_precedes hne with hpq | hqp
  · have hlt := (Nat.le_div_iff_mul_le (Nat.two_pow_pos _)).2 (codeIn_lt h hp hq hpq)
    omega
  · have hlen : p.1 = q.1 := le_antisymm hle hqp.le
    have hlt := codeIn_lt h hq hp hqp
    rw [hlen, Nat.sub_self, pow_zero] at *
    omega

/-- With Kraft sum at most 1 a code fits its length (R183). -/
theorem codeIn_fits {ps : List (Nat × Nat)} (h : ps.Pairwise Precedes) (hkraft : wordsTaken 255 ps ≤ 2 ^ 255)
    {q : Nat × Nat} (hq : q ∈ ps) (hlen : q.1 ≤ 255) : codeIn ps q < 2 ^ q.1 := by
  obtain ⟨before, after, rfl⟩ := List.append_of_mem hq
  rw [wordsTaken_append, wordsTaken_cons, ← Nat.add_assoc, wordsTaken_upTo h hlen] at hkraft
  have hpow : 2 ^ q.1 * 2 ^ (255 - q.1) = 2 ^ 255 := by rw [← pow_add]; congr 1; omega
  exact Nat.le_of_mul_le_mul_right (hpow ▸ (Nat.le_add_right _ _).trans hkraft) (Nat.two_pow_pos _)

/-! ### The entries of a table of lengths -/

/-- With the symbols of a table all different, the entry of a symbol is the one found. -/
theorem find?_sym {entries : List CodeEntry} (h : (entries.map CodeEntry.sym).Nodup) {e : CodeEntry} (he : e ∈ entries) :
    entries.find? (fun e' => e'.sym == e.sym) = some e := by
  obtain ⟨before, after, rfl⟩ := List.append_of_mem he
  rw [List.map_append, List.map_cons] at h
  obtain ⟨-, -, hdisj⟩ := List.nodup_append'.1 h
  refine List.find?_eq_some_iff_append.2 ⟨by simp, before, after, rfl, fun e' he' => ?_⟩
  simpa using fun heq : e'.sym = e.sym => hdisj (List.mem_map_of_mem he') (heq ▸ List.mem_cons_self)

/-- The entries are those of the symbols in canonical order, each with the code the symbols before it give it (R147). -/
theorem mem_canon {lens : List Nat} {e : CodeEntry} : e ∈ canon lens ↔
    (e.len, e.sym) ∈ canonOrder lens ∧ e.code = codeIn (canonOrder lens) (e.len, e.sym) := by
  rw [canon_eq, List.mem_map]
  constructor
  · rintro ⟨p, hp, rfl⟩
    exact ⟨hp, rfl⟩
  · rintro ⟨hp, hcode⟩
    exact ⟨_, hp, by rw [entryIn, ← hcode]⟩

/-- No code begins the code of another symbol (R147). -/
theorem canon_prefixFree {lens : List Nat} {e e' : CodeEntry} (he : e ∈ canon lens) (he' : e' ∈ canon lens)
    (hne : e.sym ≠ e'.sym) (hlen : e.len ≤ e'.len) : e'.code >>> (e'.len - e.len) ≠ e.code := by
  obtain ⟨hp, hcode⟩ := mem_canon.1 he
  obtain ⟨hp', hcode'⟩ := mem_canon.1 he'
  rw [hcode, hcode']
  exact codeIn_prefixFree (canonOrder_sorted lens) hp hp' hne hlen

section
variable {lens : List Nat} (hle : ∀ l ∈ lens, l ≤ 255)
include hle

/-- The symbols with an entry are the present ones (R147). -/
theorem canon_present {e : CodeEntry} (he : e ∈ canon lens) : lens[e.sym]? = some e.len ∧ e.len ≠ 0 :=
  mem_presentOf.1 ((canonOrder_perm hle).mem_iff.1 (mem_canon.1 he).1)

theorem exists_canon {s : Nat} (h : lens.getD s 0 ≠ 0) : ∃ e ∈ canon lens, e.sym = s ∧ e.len = lens.getD s 0 := by
  obtain ⟨⟨l, s⟩, hp, rfl⟩ := List.mem_map.1 (mem_presentOf_getD.2 h)
  have hl : lens.getD s 0 = l := by rw [List.getD_eq_getElem?_getD, (mem_presentOf.1 hp).1]; rfl
  exact ⟨entryIn (canonOrder lens) (l, s), mem_canon.2 ⟨(canonOrder_perm hle).mem_iff.2 hp, rfl⟩, rfl, hl.symm⟩

/-- No symbol has two codes (R147). -/
theorem nodup_canon_sym : ((canon lens).map CodeEntry.sym).Nodup := by
  rw [canon_eq, List.map_map]
  exact ((canonOrder_perm hle).map Prod.snd).nodup_iff.2 (nodup_presentOf lens)

/-- The closed form of a code, over the present symbols in any order (R147). -/
theorem canon_code {e : CodeEntry} (he : e ∈ canon lens) : e.code = codeIn (presentOf lens) (e.len, e.sym) :=
  (mem_canon.1 he).2.trans (wordsTaken_perm ((canonOrder_perm hle).filter _) _)

/-- With a valid header every code fits its length (R183, R184). -/
theorem canon_code_lt (hkraft : kraftOK lens = true) {e : CodeEntry} (he : e ∈ canon lens) : e.code < 2 ^ e.len := by
  obtain ⟨hp, hcode⟩ := mem_canon.1 he
  have htaken : wordsTaken 255 (canonOrder lens) = kraftSum lens := wordsTaken_perm (canonOrder_perm hle) 255
  rw [hcode]
  exact codeIn_fits (canonOrder_sorted lens) (htaken ▸ of_decide_eq_true hkraft) hp
    (hle _ (List.mem_of_getElem? (canon_present hle he).1))

/-- `CODE` holds each symbol's code (R44, R147). -/
theorem codeTable_getD (hlen : lens.length = 256) (hkraft : kraftOK lens = true) {e : CodeEntry}
    (he : e ∈ canon lens) : ((codeTable lens).toList.getD e.sym 0).toNat = e.code := by
  obtain ⟨hget, -⟩ := canon_present hle he
  have hsym : e.sym < 256 := hlen ▸ (List.getElem?_eq_some_iff.1 hget).1
  have hfits : e.code < 2 ^ 255 := (canon_code_lt hle hkraft he).trans_le
    (Nat.pow_le_pow_right (by omega) (hle _ (List.mem_of_getElem? hget)))
  rw [codeTable, toList_tabulate, List.getD_eq_getElem?_getD, List.getElem?_map, List.getElem?_range hsym]
  simp only [Option.map_some, Option.getD_some, find?_sym (nodup_canon_sym hle) he, BitVec.toNat_ofNat]
  exact Nat.mod_eq_of_lt hfits

end

/-- Settles O32: the entries in closed form over the canonical order, which is a reordering of the present symbols. -/
theorem canonicalCodeIsPrefixFree : Obligations.CanonicalCodeIsPrefixFree := fun _ hlen hle hkraft =>
  ⟨fun _ _ => exists_canon hle, nodup_canon_sym hle, fun _ => canon_code hle, fun _ => codeTable_getD hle hlen hkraft,
    fun _ he => ⟨canon_code_lt hle hkraft he, canon_present hle he⟩,
    fun _ he _ he' => canon_prefixFree he he'⟩

end Sys2Proof.Machine
end

section
/-! SUPPORT. The Huffman encoder family: the artifacts of the empty input and of one symbol repeated
(41_huffman_encode.md R152, R153). -/

namespace Sys2Proof.Machine

/-! ### The empty input -/

theorem inputLengths_nil : inputLengths [] = List.replicate 256 0 := by
  apply codeLengths_of_none
  rw [← List.length_eq_zero_iff, length_presentOf]
  simp [freqOf]

theorem artifactOf_nil : artifactOf [] = List.replicate 256 0 := by
  rw [artifactOf, inputLengths_nil, headerOf, List.map_replicate]
  exact List.append_nil _

/-! ### One symbol repeated -/

section
variable (b : Byte) {n : Nat} (hn : 1 ≤ n)

theorem freqOf_replicate_getD (n : Nat) {s : Nat} (hs : s < 256) :
    (freqOf (List.replicate n b)).getD s 0 = if s = b.toNat then n else 0 := by
  rw [freqOf_getD _ hs, List.countP_replicate]
  simp only [beq_iff_eq, eq_comm (a := s)]

include hn

/-- One symbol occurs. -/
theorem countP_freqOf_replicate : (freqOf (List.replicate n b)).countP (· ≠ 0) = 1 := by
  have hcount : (List.range 256).countP (· == b.toNat) = 1 :=
    List.count_eq_one_of_mem List.nodup_range (List.mem_range.2 b.isLt)
  rw [← hcount, freqOf, List.countP_map]
  refine List.countP_congr fun s _ => ?_
  simp only [Function.comp_apply, List.countP_replicate]
  by_cases h : s = b.toNat
  · simp [h]; omega
  · simp [h, Ne.symm h]

/-- The symbol that occurs has length 1, and no other has a length (R144). -/
theorem inputLengths_replicate_getD {s : Nat} (hs : s < 256) :
    (inputLengths (List.replicate n b)).getD s 0 = if s = b.toNat then 1 else 0 := by
  obtain ⟨-, -, habsent, hone, -⟩ := codeLengthsFormFullTree (List.replicate n b)
  have hfreq := freqOf_replicate_getD b n hs
  by_cases h : s = b.toNat
  · rw [if_pos h] at hfreq ⊢
    exact (hone (countP_freqOf_replicate b hn)).2 s hs (by omega)
  · rw [if_neg h] at hfreq ⊢
    exact habsent s hs hfreq

theorem headerOf_replicate :
    headerOf (inputLengths (List.replicate n b)) = (List.range 256).map fun s => if s = b.toNat then 1 else 0 := by
  apply List.ext_getElem
  · simp [headerOf]
  · intro s hs _
    have hs : s < 256 := by simpa [headerOf] using hs
    have hget := inputLengths_replicate_getD b hn hs
    rw [List.getD_eq_getElem _ _ (by simpa using hs)] at hget
    simp only [headerOf, List.getElem_map, List.getElem_range, hget]
    split <;> rfl

/-- One symbol is present, with length 1 (R144). -/
theorem eq_of_present_replicate {p : Nat × Nat} (hp : p ∈ presentOf (inputLengths (List.replicate n b))) :
    p = (1, b.toNat) := by
  obtain ⟨hget, hne⟩ := mem_presentOf.1 hp
  obtain ⟨hs, hval⟩ := List.getElem?_eq_some_iff.1 hget
  rw [← List.getD_eq_getElem _ 0, inputLengths_replicate_getD b hn (by simpa using hs)] at hval
  have hsym : p.2 = b.toNat := by_contra fun h => hne (by rw [← hval, if_neg h])
  rw [if_pos hsym] at hval
  exact Prod.ext hval.symm hsym

/-- The symbol that occurs is the first in canonical order, so its code is 0 (R147). -/
theorem codeTable_replicate : (codeTable (inputLengths (List.replicate n b)))[b.toNat]'b.isLt = 0 := by
  have hle : ∀ l ∈ inputLengths (List.replicate n b), l ≤ 255 := codeLengths_le (length_freqOf _)
  have hget := inputLengths_replicate_getD b hn b.isLt
  rw [if_pos rfl] at hget
  obtain ⟨e, he, hsym, hlen⟩ := exists_canon hle (s := b.toNat) (by omega)
  have hcode : e.code = 0 := by
    have hfirst : ∀ p ∈ presentOf (inputLengths (List.replicate n b)), ¬ Precedes p (e.len, e.sym) := fun p hp => by
      rw [eq_of_present_replicate b hn hp, hlen, hsym, hget]
      exact not_precedes_self _
    rw [canon_code hle he, codeIn, List.filter_eq_nil_iff.2 (by simpa using hfirst)]
    rfl
  have htable := codeTable_getD hle (length_inputLengths _) (codeLengthsFormFullTree _).2.1 he
  rw [hcode, hsym] at htable
  apply BitVec.eq_of_toNat_eq
  have hb : b.toNat < 256 := b.isLt
  simpa [List.getD_eq_getElem?_getD, hb] using htable

theorem payloadOf_replicate :
    payloadOf (inputLengths (List.replicate n b)) (List.replicate n b) = List.replicate n false := by
  have hword : codeword (inputLengths (List.replicate n b)) b = [false] := by
    rw [codeword, inputLengths_replicate_getD b hn b.isLt, codeTable_replicate b hn, if_pos rfl]
    rfl
  rw [payloadOf, List.flatMap_replicate, hword]
  simp

end

/-- Zero bits pack into zero bytes (R151). -/
theorem packBits_replicate_false (n : Nat) :
    (packBits (List.replicate n false)).out = List.replicate (cdiv n 8) 0 := by
  refine List.eq_replicate_iff.2 ⟨by rw [packBits_length, List.length_replicate], fun byte hbyte => ?_⟩
  obtain ⟨k, hk, rfl⟩ := List.mem_iff_getElem.1 hbyte
  apply BitVec.eq_of_getLsbD_eq
  intro i hi
  have hbit := payloadBit_packBits (List.replicate n false) (8 * k + (7 - i))
  have hplace : (8 * k + (7 - i)) / 8 = k ∧ 7 - (8 * k + (7 - i)) % 8 = i := by omega
  rw [payloadBit, hplace.1, hplace.2, List.getD_eq_getElem _ _ hk] at hbit
  rw [hbit, List.getD_eq_getElem?_getD, List.getElem?_getD_replicate_default_eq]
  exact BitVec.getLsbD_zero.symm

/-- Settles O37: the empty input has no symbol; of one symbol repeated, every payload bit is 0. -/
theorem degenerateArtifacts : Obligations.DegenerateArtifacts := by
  have hnil : inputBits [] = 0 := Nat.le_zero.1 (inputBits_le [])
  refine ⟨artifactOf_nil, hnil, by rw [inputSize, hnil]; rfl, fun b n hn => ?_⟩
  have hbits : inputBits (List.replicate n b) = n :=
    (inputBits_of_one (countP_freqOf_replicate b hn)).trans List.length_replicate
  refine ⟨?_, hbits, by rw [inputSize, hbits]⟩
  rw [artifactOf, payloadOf_replicate b hn, packBits_replicate_false, headerOf_replicate b hn]

end Sys2Proof.Machine
end

section
/-! SUPPORT. The Huffman decoder family: the matching relation as a relation between bits and codewords
(42_huffman_decode.md R184, R185). -/

namespace Sys2Proof.Machine

/-! ### Bits and their value -/

/-- The number a list of bits stands for, most significant first: what `code` holds once they are read (R93, R187). -/
def bitsValue (bits : List Bool) : Nat := bits.foldl (fun value bit => 2 * value + bit.toNat) 0

theorem bitsValue_concat (bits : List Bool) (bit : Bool) :
    bitsValue (bits ++ [bit]) = 2 * bitsValue bits + bit.toNat := List.foldl_append ..

/-- Bits shifted out again leave the value of those before them. -/
theorem bitsValue_append_shiftRight (bits more : List Bool) :
    bitsValue (bits ++ more) >>> more.length = bitsValue bits := by
  induction more using List.reverseRecOn with
  | nil => simp
  | append_singleton more bit ih =>
    have hhalf : (2 * bitsValue (bits ++ more) + bit.toNat) / 2 = bitsValue (bits ++ more) := by
      have := bit.toNat_lt
      omega
    rw [← List.append_assoc, bitsValue_concat, List.length_append, List.length_singleton, Nat.shiftRight_succ_inside,
      hhalf, ih]

/-- As many bits of the same value are the same bits. -/
theorem eq_of_bitsValue {bits bits' : List Bool} (hlen : bits.length = bits'.length)
    (h : bitsValue bits = bitsValue bits') : bits = bits' := by
  induction bits using List.reverseRecOn generalizing bits' with
  | nil => exact (List.length_eq_zero_iff.1 hlen.symm).symm
  | append_singleton bits bit ih =>
    obtain rfl | ⟨bits', bit', rfl⟩ := List.eq_nil_or_concat' bits'
    · simp at hlen
    · rw [bitsValue_concat, bitsValue_concat] at h
      have := bit.toNat_lt
      have := bit'.toNat_lt
      have hbit : bit.toNat = bit'.toNat := by omega
      rw [ih (by simpa using hlen) (by omega), Function.LeftInverse.injective Bool.ofNat_toNat hbit]

theorem codeBits_succ (len : Nat) (code : CodeWord) :
    codeBits (len + 1) code = codeBits len (code >>> 1) ++ [code.getLsbD 0] := by
  simp only [codeBits, List.range_succ, List.map_append, List.map_singleton, Nat.add_sub_cancel, Nat.sub_self]
  congr 1
  refine List.map_congr_left fun t ht => ?_
  have := List.mem_range.1 ht
  rw [BitVec.getLsbD_ushiftRight]
  congr 1
  omega

/-- A code that fits its length is the value of its bits (R93). -/
theorem bitsValue_codeBits (len : Nat) (code : CodeWord) (h : code.toNat < 2 ^ len) :
    bitsValue (codeBits len code) = code.toNat := by
  induction len generalizing code with
  | zero => simp at h; simp [h, codeBits, bitsValue]
  | succ len ih =>
    have hshift : (code >>> 1).toNat = code.toNat / 2 := by simp [Nat.shiftRight_succ]
    have hlow : (code.getLsbD 0).toNat = code.toNat % 2 := by
      simp [BitVec.getLsbD, Nat.testBit_zero, Bool.toNat]
      rcases Nat.mod_two_eq_zero_or_one code.toNat with h | h <;> simp [h]
    rw [codeBits_succ, bitsValue_concat, ih _ (by rw [hshift]; omega), hshift, hlow]
    omega

@[simp] theorem length_codeBits (len : Nat) (code : CodeWord) : (codeBits len code).length = len := by simp [codeBits]

/-- `Match` of a list of bits, under the canonical codes (R184, R185). -/
def matchBits (lens : List Nat) (bits : List Bool) : Option Nat :=
  matchCode lens (codeTable lens).toList bits.length (bitsValue bits)

/-! ### Codewords -/

/-- Code lengths that a header can hold and that pass R183. -/
structure ValidLengths (lens : List Nat) : Prop where
  length : lens.length = 256
  le : ∀ l ∈ lens, l ≤ 255
  kraft : kraftOK lens = true

@[simp] theorem length_codeword (lens : List Nat) (b : Byte) : (codeword lens b).length = lens.getD b.toNat 0 :=
  length_codeBits _ _

/-- No two symbols share length and code (R184, R185). -/
theorem sym_eq_of_canon {lens : List Nat} {e e' : CodeEntry} (he : e ∈ canon lens) (he' : e' ∈ canon lens)
    (hlen : e.len = e'.len) (hcode : e.code = e'.code) : e.sym = e'.sym :=
  by_contra fun hne => canon_prefixFree he he' hne hlen.le (by rw [hlen, Nat.sub_self]; exact hcode.symm)

section
variable {lens : List Nat} (hv : ValidLengths lens)
include hv

theorem ValidLengths.sym_lt {s l : Nat} (h : lens[s]? = some l) : s < 256 :=
  hv.length ▸ (List.getElem?_eq_some_iff.1 h).1

/-- An entry's length and code are those of its symbol's codeword (R184). -/
theorem ValidLengths.codeword_of_entry {e : CodeEntry} (he : e ∈ canon lens) {b : Byte} (hsym : e.sym = b.toNat) :
    e.len = lens.getD b.toNat 0 ∧ e.len ≠ 0 ∧ e.code = bitsValue (codeword lens b) := by
  obtain ⟨hget, hne⟩ := canon_present hv.le he
  have hlen : e.len = lens.getD b.toNat 0 := by rw [← hsym, List.getD_eq_getElem?_getD, hget]; rfl
  have hcode := codeTable_getD hv.le hv.length hv.kraft he
  have hb : b.toNat < 256 := b.isLt
  rw [hsym, List.getD_eq_getElem _ _ (by simpa using hb), Vector.getElem_toList] at hcode
  have hfits := canon_code_lt hv.le hv.kraft he
  rw [← hcode, hlen] at hfits
  exact ⟨hlen, hne, by rw [codeword, bitsValue_codeBits _ _ hfits, hcode]⟩

/-- Every present symbol has an entry (R184). -/
theorem ValidLengths.exists_entry {b : Byte} (hb : lens.getD b.toNat 0 ≠ 0) :
    ∃ e ∈ canon lens, e.sym = b.toNat ∧ e.len = lens.getD b.toNat 0 ∧ e.code = bitsValue (codeword lens b) := by
  obtain ⟨e, he, hsym, hlen⟩ := exists_canon hv.le hb
  exact ⟨e, he, hsym, hlen, (hv.codeword_of_entry he hsym).2.2⟩

/-- No codeword begins another symbol's (R184). -/
theorem ValidLengths.prefixFree {b b' : Byte} (hb : lens.getD b.toNat 0 ≠ 0) (hb' : lens.getD b'.toNat 0 ≠ 0)
    (h : codeword lens b <+: codeword lens b') : b = b' := by
  obtain ⟨e, he, hsym, hlen, hcode⟩ := hv.exists_entry hb
  obtain ⟨e', he', hsym', hlen', hcode'⟩ := hv.exists_entry hb'
  obtain ⟨more, hmore⟩ := h
  have hlens : lens.getD b'.toNat 0 = lens.getD b.toNat 0 + more.length := by
    rw [← length_codeword, ← hmore, List.length_append, length_codeword]
  by_contra hne
  refine canon_prefixFree he he' (by rw [hsym, hsym']; exact mt BitVec.eq_of_toNat_eq hne) (by omega) ?_
  rw [hcode, hcode', ← hmore, hlen, hlen', hlens, Nat.add_sub_cancel_left, bitsValue_append_shiftRight]

/-! ### The matching relation -/

/-- What matches is an entry (R185). -/
theorem ValidLengths.entry_of_match {d c s : Nat} (h : matchCode lens (codeTable lens).toList d c = some s) :
    ∃ e ∈ canon lens, e.sym = s ∧ e.len = d ∧ e.code = c := by
  obtain ⟨⟨⟨l, code⟩, s⟩, hfind, rfl⟩ := Option.map_eq_some_iff.1 h
  have hkeep := List.find?_some hfind
  simp only [Bool.and_eq_true, beq_iff_eq, bne_iff_ne] at hkeep
  obtain ⟨⟨rfl, hne⟩, rfl⟩ := hkeep
  obtain ⟨hlens, hcodes⟩ :=
    List.getElem?_zip_eq_some.1 (List.mem_zipIdx_iff_getElem?.1 (List.mem_of_find?_eq_some hfind))
  have hget : lens.getD s 0 = l := by rw [List.getD_eq_getElem?_getD, hlens]; rfl
  obtain ⟨e, he, hsym, hlen⟩ := exists_canon hv.le (hget ▸ hne : lens.getD s 0 ≠ 0)
  refine ⟨e, he, hsym, hlen.trans hget, ?_⟩
  rw [← codeTable_getD hv.le hv.length hv.kraft he, hsym, List.getD_eq_getElem?_getD, hcodes]
  rfl

/-- `Match` holds of just the entries (R185). -/
theorem ValidLengths.match_iff {d c s : Nat} : matchCode lens (codeTable lens).toList d c = some s ↔
    ∃ e ∈ canon lens, e.sym = s ∧ e.len = d ∧ e.code = c := by
  refine ⟨hv.entry_of_match, ?_⟩
  rintro ⟨e, he, rfl, rfl, rfl⟩
  cases hm : matchCode lens (codeTable lens).toList e.len e.code with
  | some s =>
    obtain ⟨e', he', rfl, hlen, hcode⟩ := hv.entry_of_match hm
    exact congrArg some (sym_eq_of_canon he' he hlen hcode)
  | none =>
    obtain ⟨hget, hne⟩ := canon_present hv.le he
    have hsym : e.sym < (codeTable lens).toList.length := by
      rw [Vector.length_toList]
      exact hv.sym_lt hget
    have hcode := codeTable_getD hv.le hv.length hv.kraft he
    rw [List.getD_eq_getElem _ _ hsym] at hcode
    have hmem : ((e.len, (codeTable lens).toList[e.sym]), e.sym) ∈ (lens.zip (codeTable lens).toList).zipIdx :=
      List.mem_zipIdx_iff_getElem?.2 (List.getElem?_zip_eq_some.2 ⟨hget, List.getElem?_eq_getElem hsym⟩)
    have hnot := List.find?_eq_none.1 (Option.map_eq_none_iff.1 hm) _ hmem
    simp [hne, ← hcode] at hnot

/-- Bits match the symbol whose codeword they are (R185). -/
theorem ValidLengths.match_bits {bits : List Bool} {s : Nat} :
    matchBits lens bits = some s ↔ ∃ b : Byte, b.toNat = s ∧ lens.getD b.toNat 0 ≠ 0 ∧ codeword lens b = bits := by
  rw [matchBits, hv.match_iff]
  constructor
  · rintro ⟨e, he, rfl, hlen, hcode⟩
    have hb : (BitVec.ofNat 8 e.sym).toNat = e.sym := Nat.mod_eq_of_lt (hv.sym_lt (canon_present hv.le he).1)
    obtain ⟨hlen', hne, hcode'⟩ := hv.codeword_of_entry he hb.symm
    exact ⟨_, hb, hlen' ▸ hne, eq_of_bitsValue (by rw [length_codeword, ← hlen', hlen]) (by rw [← hcode', hcode])⟩
  · rintro ⟨b, rfl, hb, rfl⟩
    obtain ⟨e, he, hsym, hlen, hcode⟩ := hv.exists_entry hb
    exact ⟨e, he, hsym, by rw [hlen, length_codeword], hcode⟩

end

end Sys2Proof.Machine
end

section
/-! SUPPORT. The Huffman decoder family: what the walk of a codeword finds (42_huffman_decode.md R187, R191). -/

namespace Sys2Proof.Machine

/-- `MAXLEN` is the least bound on the lengths (R185). -/
theorem maxLenOf_le_iff {lens : List Nat} {m : Nat} : maxLenOf lens ≤ m ↔ ∀ l ∈ lens, l ≤ m := by
  have hfold : ∀ a : Nat, lens.foldl max a ≤ m ↔ a ≤ m ∧ ∀ l ∈ lens, l ≤ m := by
    induction lens with
    | nil => simp
    | cons l lens ih => intro a; rw [List.foldl_cons, ih, max_le_iff, and_assoc, List.forall_mem_cons]
  exact (hfold 0).trans (and_iff_right (Nat.zero_le m))

/-- No codeword is longer than `MAXLEN` (R185). -/
theorem length_codeword_le (lens : List Nat) (b : Byte) : (codeword lens b).length ≤ maxLenOf lens := by
  rw [length_codeword, List.getD_eq_getElem?_getD]
  cases h : lens[b.toNat]? with
  | none => exact Nat.zero_le _
  | some l => exact maxLenOf_le_iff.1 le_rfl l (List.mem_of_getElem? h)

/-! ### One bit of the walk -/

/-- The walk under the codes of these lengths, with the bits `before` read and `n` bits left of the budget (R187). -/
abbrev walkFrom (lens : List Nat) (bit : Nat → Bool) (n bpos : Nat) (before : List Bool) : Walk :=
  walkCode (matchCode lens (codeTable lens).toList) (maxLenOf lens) bit n bpos before.length (bitsValue before)

section
variable {lens : List Nat} (hv : ValidLengths lens) {bit : Nat → Bool} {n bpos : Nat} {before : List Bool}

/-- A next bit that completes no codeword is walked past (R187). -/
theorem walkFrom_goesOn (hd : before.length ≠ maxLenOf lens)
    (hf : matchBits lens (before ++ [bit bpos]) = none) :
    walkFrom lens bit (n + 1) bpos before = walkFrom lens bit n (bpos + 1) (before ++ [bit bpos]) := by
  rw [matchBits, List.length_append, List.length_singleton, bitsValue_concat] at hf
  rw [walkFrom, walkCode, if_neg hd]
  simp only [hf, walkFrom, List.length_append, List.length_singleton, bitsValue_concat]

/-- A next bit that completes a codeword ends the walk (R187). -/
theorem walkFrom_matches {sym : Nat} (hd : before.length ≠ maxLenOf lens)
    (hf : matchBits lens (before ++ [bit bpos]) = some sym) :
    walkFrom lens bit (n + 1) bpos before =
      .symbol sym (before ++ [bit bpos]).length (bitsValue (before ++ [bit bpos])) := by
  rw [matchBits, List.length_append, List.length_singleton, bitsValue_concat] at hf
  rw [List.length_append, List.length_singleton, bitsValue_concat, walkFrom, walkCode, if_neg hd]
  simp only [hf]

include hv

/-! ### The whole walk -/

/-- The walk of bits that go on with the rest of a codeword finds its symbol (R187). -/
theorem walkFrom_codeword {b : Byte} (hb : lens.getD b.toNat 0 ≠ 0) {left rest : List Bool}
    (hword : codeword lens b = before ++ left) (hleft : left ≠ [])
    (hbits : (List.range' bpos n).map bit = left ++ rest) :
    walkFrom lens bit n bpos before =
      .symbol b.toNat (codeword lens b).length (bitsValue (codeword lens b)) := by
  induction left generalizing n bpos before with
  | nil => contradiction
  | cons x left ih =>
    obtain ⟨n, rfl⟩ : ∃ k, n = k + 1 := Nat.exists_eq_succ_of_ne_zero (by rintro rfl; simp at hbits)
    rw [List.range'_succ, List.map_cons, List.cons_append, List.cons.injEq] at hbits
    obtain ⟨rfl, hbits⟩ := hbits
    have hd : before.length ≠ maxLenOf lens := by
      have hle := length_codeword_le lens b
      rw [hword, List.length_append, List.length_cons] at hle
      omega
    rw [List.append_cons] at hword
    by_cases hlast : left = []
    · rw [hlast, List.append_nil] at hword
      rw [walkFrom_matches hd (hv.match_bits.2 ⟨b, rfl, hb, hword⟩), hword]
    · refine (walkFrom_goesOn hd (Option.eq_none_iff_forall_ne_some.2 fun s hs => ?_)).trans (ih hword hlast hbits)
      obtain ⟨b', -, hb', hword'⟩ := hv.match_bits.1 hs
      obtain rfl := hv.prefixFree hb' hb ⟨left, by rw [hword', hword]⟩
      exact hlast (List.self_eq_append_right.1 (hword'.symm.trans hword))

/-- The walk of bits that begin with no codeword reads `MAXLEN` of them, or all there are (R187, R191). -/
theorem walkFrom_stuck {rest : List Bool}
    (hnone : ∀ b : Byte, lens.getD b.toNat 0 ≠ 0 → ¬ codeword lens b <+: before ++ rest)
    (hbits : (List.range' bpos n).map bit = rest) (hle : before.length ≤ maxLenOf lens) :
    walkFrom lens bit n bpos before =
      if maxLenOf lens ≤ (before ++ rest).length then .invalid else .truncated := by
  induction rest generalizing n bpos before with
  | nil =>
    obtain rfl : n = 0 := by simpa using hbits
    rw [List.append_nil, walkFrom, walkCode]
    exact if_congr ⟨fun h => h.ge, hle.antisymm⟩ rfl rfl
  | cons x rest ih =>
    obtain ⟨n, rfl⟩ : ∃ k, n = k + 1 := Nat.exists_eq_succ_of_ne_zero (by rintro rfl; simp at hbits)
    rw [List.range'_succ, List.map_cons, List.cons.injEq] at hbits
    obtain ⟨rfl, hbits⟩ := hbits
    by_cases hd : before.length = maxLenOf lens
    · rw [walkFrom, walkCode, if_pos hd, if_pos (by rw [List.length_append]; omega)]
    · rw [List.append_cons] at hnone ⊢
      refine (walkFrom_goesOn hd (Option.eq_none_iff_forall_ne_some.2 fun s hs => ?_)).trans
        (ih hnone hbits (by rw [List.length_append, List.length_singleton]; omega))
      obtain ⟨b, -, hb, hword⟩ := hv.match_bits.1 hs
      exact hnone b hb ⟨rest, by rw [hword]⟩

end

end Sys2Proof.Machine
end

section
/-! SUPPORT. The Huffman decoder family: the length-indexed tables (42_huffman_decode.md R185). In canonical order the
symbols of one length stand together, and their codes count up from the first. -/

namespace Sys2Proof.Machine

/-! ### The symbols of one length -/

/-- The present symbols of length `d`, by symbol (R147). -/
def symbolsOf (lens : List Nat) (d : Nat) : List (Nat × Nat) := (presentOf lens).filter fun p => p.1 = d

theorem mem_symbolsOf {lens : List Nat} {d : Nat} {p : Nat × Nat} :
    p ∈ symbolsOf lens d ↔ p ∈ presentOf lens ∧ p.1 = d := by
  rw [symbolsOf, List.mem_filter, decide_eq_true_iff]

theorem canonOrder_eq_flatMap (lens : List Nat) :
    canonOrder lens = (List.range' 1 255).flatMap (symbolsOf lens) := rfl

/-- In canonical order the symbols of length `d` stand between the shorter and the longer ones (R147). -/
theorem canonOrder_split (lens : List Nat) {d : Nat} (h1 : 1 ≤ d) (h255 : d ≤ 255) :
    ∃ shorter longer, canonOrder lens = shorter ++ symbolsOf lens d ++ longer ∧ (∀ p ∈ shorter, p.1 < d) ∧
      ∀ p ∈ longer, d < p.1 := by
  have hrange : List.range' 1 255 = List.range' 1 (d - 1) ++ d :: List.range' (d + 1) (255 - d) := by
    have happend := List.range'_append_1 (s := 1) (m := d - 1) (n := 255 - d + 1)
    rw [show 1 + (d - 1) = d by omega, show d - 1 + (255 - d + 1) = 255 by omega, List.range'_succ] at happend
    exact happend.symm
  refine ⟨(List.range' 1 (d - 1)).flatMap (symbolsOf lens), (List.range' (d + 1) (255 - d)).flatMap (symbolsOf lens),
    ?_, fun p hp => ?_, fun p hp => ?_⟩
  · rw [canonOrder_eq_flatMap, hrange, List.flatMap_append, List.flatMap_cons, List.append_assoc]
  · obtain ⟨l, hl, hp⟩ := List.mem_flatMap.1 hp
    have := (mem_symbolsOf.1 hp).2
    have := List.mem_range'_1.1 hl
    omega
  · obtain ⟨l, hl, hp⟩ := List.mem_flatMap.1 hp
    have := (mem_symbolsOf.1 hp).2
    have := List.mem_range'_1.1 hl
    omega

theorem countP_presentOf (lens : List Nat) (keep : Nat → Bool) :
    (presentOf lens).countP (fun p => keep p.1) = lens.countP fun l => decide (l ≠ 0) && keep l := by
  conv_rhs => rw [← List.zipIdx_map_fst 0 lens, List.countP_map]
  rw [presentOf, List.countP_filter]
  exact List.countP_congr fun p _ => by simp [and_comm]

/-- `bl_count` is the number of symbols of a length (R185). -/
theorem length_symbolsOf (lens : List Nat) {d : Nat} (h1 : 1 ≤ d) : (symbolsOf lens d).length = blCountOf lens d := by
  rw [symbolsOf, ← List.countP_eq_length_filter, countP_presentOf lens (fun l => decide (l = d)), blCountOf]
  refine List.countP_congr fun l _ => ?_
  simp only [Bool.and_eq_true, decide_eq_true_eq, beq_iff_eq]
  omega

/-- `index` is the number of shorter symbols (R185). -/
theorem length_shorter {lens : List Nat} (hle : ∀ l ∈ lens, l ≤ 255) {d : Nat} {shorter longer : List (Nat × Nat)}
    (hsplit : canonOrder lens = shorter ++ symbolsOf lens d ++ longer) (hshort : ∀ p ∈ shorter, p.1 < d)
    (hlong : ∀ p ∈ longer, d < p.1) : shorter.length = indexOf lens d := by
  have hcount : (canonOrder lens).countP (fun p => decide (p.1 < d)) = shorter.length := by
    rw [hsplit, List.countP_append, List.countP_append,
      List.countP_eq_length.2 fun p hp => decide_eq_true (hshort p hp),
      List.countP_eq_zero.2 fun p hp => by simp [(mem_symbolsOf.1 hp).2],
      List.countP_eq_zero.2 fun p hp => by simp [(hlong p hp).le]]
    rfl
  rw [← hcount, (canonOrder_perm hle).countP_eq, countP_presentOf lens (fun l => decide (l < d)), indexOf]

/-- The codes of a length count up from what the shorter symbols take (R147, R185). -/
theorem codeIn_symbolsOf {lens : List Nat} {d k : Nat} {shorter longer : List (Nat × Nat)}
    (hsplit : canonOrder lens = shorter ++ symbolsOf lens d ++ longer) (hk : k < (symbolsOf lens d).length) :
    codeIn (canonOrder lens) (symbolsOf lens d)[k] = wordsTaken d shorter + k := by
  have hlen : ∀ p ∈ symbolsOf lens d, p.1 = d := fun p hp => (mem_symbolsOf.1 hp).2
  have hplace : canonOrder lens = (shorter ++ (symbolsOf lens d).take k) ++
      (symbolsOf lens d)[k] :: ((symbolsOf lens d).drop (k + 1) ++ longer) := by
    rw [hsplit, ← List.cons_append, List.getElem_cons_drop, List.append_assoc, List.append_assoc,
      ← List.append_assoc (List.take _ _), List.take_append_drop]
  have htake : wordsTaken d ((symbolsOf lens d).take k) = k := by
    have hone : ∀ p ∈ (symbolsOf lens d).take k, 2 ^ (d - p.1) = 1 := fun p hp => by
      rw [hlen p (List.mem_of_mem_take hp), Nat.sub_self, pow_zero]
    rw [wordsTaken, List.map_congr_left hone, List.map_const', List.sum_replicate, List.length_take]
    simp [hk.le]
  rw [codeIn, hplace, filter_precedes (hplace ▸ canonOrder_sorted lens), hlen _ (List.getElem_mem hk),
    wordsTaken_append, htake]

/-! ### The tables -/

theorem getD_tabulate {α : Type} {n i : Nat} (hi : i < n) (f : Nat → α) (d : α) :
    (tabulate n f).toList.getD i d = f i := by
  rw [toList_tabulate, List.getD_eq_getElem?_getD, List.getElem?_map, List.getElem?_range hi]
  rfl

section
variable {lens : List Nat} (hv : ValidLengths lens) {d : Nat} {shorter longer : List (Nat × Nat)}
  (hsplit : canonOrder lens = shorter ++ symbolsOf lens d ++ longer)
include hv

theorem ValidLengths.countP_lt (keep : Nat → Bool) : lens.countP keep < 2 ^ 9 := by
  have := List.countP_le_length (p := keep) (l := lens)
  rw [hv.length] at this
  omega

theorem ValidLengths.code_lt {e : CodeEntry} (he : e ∈ canon lens) : e.code < 2 ^ 255 :=
  (canon_code_lt hv.le hv.kraft he).trans_le
    (Nat.pow_le_pow_right Nat.two_pos (hv.le _ (List.mem_of_getElem? (canon_present hv.le he).1)))

include hsplit

/-- A length's codes are those of its symbols, counting up from the first (R147). -/
theorem match_symbolsOf {c s : Nat} : matchCode lens (codeTable lens).toList d c = some s ↔
    ∃ k, ∃ hk : k < (symbolsOf lens d).length, c = wordsTaken d shorter + k ∧ (symbolsOf lens d)[k].2 = s := by
  have hmem {p : Nat × Nat} : p ∈ canonOrder lens ∧ p.1 = d ↔ p ∈ symbolsOf lens d := by
    rw [mem_symbolsOf, (canonOrder_perm hv.le).mem_iff]
  rw [hv.match_iff]
  constructor
  · rintro ⟨e, he, rfl, hlen, rfl⟩
    obtain ⟨hp, hcode⟩ := mem_canon.1 he
    obtain ⟨k, hk, hget⟩ := List.mem_iff_getElem.1 (hmem.1 ⟨hp, hlen⟩)
    exact ⟨k, hk, by rw [hcode, ← hget, codeIn_symbolsOf hsplit hk], by rw [hget]⟩
  · rintro ⟨k, hk, rfl, rfl⟩
    obtain ⟨hp, hlen⟩ := hmem.2 (List.getElem_mem hk)
    exact ⟨entryIn (canonOrder lens) (symbolsOf lens d)[k], mem_canon.2 ⟨hp, rfl⟩, rfl, hlen,
      codeIn_symbolsOf hsplit hk⟩

/-- `sorted` lists the symbols of a length behind the shorter ones (R185). -/
theorem tables_sorted {k : Nat} (hk : k < (symbolsOf lens d).length) :
    ((buildDecodeTables lens).sorted.toList.getD (shorter.length + k) 0).toNat = (symbolsOf lens d)[k].2 := by
  have hpresent : (symbolsOf lens d)[k] ∈ presentOf lens := (mem_symbolsOf.1 (List.getElem_mem hk)).1
  have hget : (canonOrder lens)[shorter.length + k]? = some (symbolsOf lens d)[k] := by
    rw [hsplit, List.append_assoc, List.getElem?_append_right (Nat.le_add_right _ _), Nat.add_sub_cancel_left,
      List.getElem?_append_left hk, List.getElem?_eq_getElem hk]
  have hplace : shorter.length + k < 256 := by
    have hlt := (List.getElem?_eq_some_iff.1 hget).1
    have hle := (canonOrder_perm hv.le).length_eq.trans (length_presentOf lens)
    have := List.countP_le_length (p := fun l => decide (l ≠ 0)) (l := lens)
    rw [hv.length] at this
    omega
  rw [buildDecodeTables, getD_tabulate hplace, hget]
  exact Nat.mod_eq_of_lt (hv.sym_lt (mem_presentOf.1 hpresent).1)

variable (h1 : 1 ≤ d) (h255 : d ≤ 255) (hshort : ∀ p ∈ shorter, p.1 < d)
include h1 h255 hshort

/-- `first` is the first code of a length (R185). -/
theorem tables_first (hpos : 0 < (symbolsOf lens d).length) :
    ((buildDecodeTables lens).first.toList.getD (d - 1) 0).toNat = wordsTaken d shorter := by
  have hfind : (canonOrder lens).find? (fun p => p.1 == d) = some (symbolsOf lens d)[0] := by
    refine List.find?_eq_some_iff_append.2 ⟨beq_iff_eq.2 (mem_symbolsOf.1 (List.getElem_mem hpos)).2, shorter,
      (symbolsOf lens d).tail ++ longer, ?_, fun p hp => by simpa using (hshort p hp).ne⟩
    rw [hsplit, List.append_assoc, List.getElem_zero, ← List.cons_append, List.cons_head_tail]
  have hentry : (canon lens).find? (fun e => e.len == d) = some (entryIn (canonOrder lens) (symbolsOf lens d)[0]) := by
    rw [canon_eq, List.find?_map]
    exact congrArg _ hfind
  have hcode : (entryIn (canonOrder lens) (symbolsOf lens d)[0]).code = wordsTaken d shorter :=
    codeIn_symbolsOf hsplit hpos
  rw [buildDecodeTables, getD_tabulate (by omega), Nat.sub_add_cancel h1, hentry, ← hcode]
  exact Nat.mod_eq_of_lt (hv.code_lt (List.mem_of_find?_eq_some hentry))

/-- `Match` by the tables: the symbols of a length, by their codes past the first (R185). -/
theorem tableMatch_symbolsOf (hlong : ∀ p ∈ longer, d < p.1) {c s : Nat} :
    tableMatch (buildDecodeTables lens) d c = some s ↔
      ∃ k, ∃ hk : k < (symbolsOf lens d).length, c = wordsTaken d shorter + k ∧ (symbolsOf lens d)[k].2 = s := by
  have hcount : ((buildDecodeTables lens).blCount.toList.getD (d - 1) 0).toNat = (symbolsOf lens d).length := by
    rw [buildDecodeTables, getD_tabulate (by omega), Nat.sub_add_cancel h1, length_symbolsOf lens h1]
    exact Nat.mod_eq_of_lt (hv.countP_lt _)
  have hindex : ((buildDecodeTables lens).index.toList.getD (d - 1) 0).toNat = shorter.length := by
    rw [buildDecodeTables, getD_tabulate (by omega), Nat.sub_add_cancel h1, length_shorter hv.le hsplit hshort hlong]
    exact Nat.mod_eq_of_lt (hv.countP_lt _)
  simp only [tableMatch, if_neg (Nat.one_le_iff_ne_zero.1 h1), hcount, hindex]
  by_cases hpos : 0 < (symbolsOf lens d).length
  · rw [tables_first hv hsplit h1 h255 hshort hpos, Option.ite_none_right_eq_some, Option.some_inj]
    constructor
    · rintro ⟨⟨-, hle, hlt⟩, rfl⟩
      have hk : c - wordsTaken d shorter < (symbolsOf lens d).length := by omega
      refine ⟨c - wordsTaken d shorter, hk, by omega, ?_⟩
      rw [← tables_sorted hv hsplit hk, Nat.add_sub_assoc hle]
    · rintro ⟨k, hk, rfl, rfl⟩
      refine ⟨⟨hpos, by omega, by omega⟩, ?_⟩
      rw [← tables_sorted hv hsplit hk]
      congr 2
      omega
  · rw [if_neg fun h => hpos h.1]
    exact ⟨nofun, fun ⟨_, hk, _⟩ => absurd (Nat.zero_lt_of_lt hk) hpos⟩

end

/-- Settles O33: the tables and the relation both give the symbols of a length by their codes past the first. -/
theorem decodeTablesMatch : Obligations.DecodeTablesMatch := by
  intro lens hlen hle hkraft d c h1 h255
  have hv : ValidLengths lens := ⟨hlen, hle, hkraft⟩
  obtain ⟨shorter, longer, hsplit, hshort, hlong⟩ := canonOrder_split lens h1 h255
  refine Option.ext fun s => ?_
  rw [tableMatch_symbolsOf hv hsplit h1 h255 hshort hlong, match_symbolsOf hv hsplit]

end Sys2Proof.Machine
end

section
/-! SUPPORT. The Huffman decoder family: HUF_DECODE's checks and its header (42_huffman_decode.md R180 to R185). -/

namespace Sys2Proof.Machine

/-- HUF_DECODE past its argument checks: the framing checks (R180, R181). -/
theorem beginHufDecode_checked {s : State} (hk : checkArgs .hufDecode s.latched = none) :
    beginHufDecode s =
      if s.latched.srcLen.toNat < 256 then s.fail .hufDecode .hufShort
      else if 8 * (s.latched.srcLen.toNat - 256) < s.latched.srcBits.toNat then s.fail .hufDecode .bitsRange
      else { s with stage := .hufRead } := by
  simp only [beginHufDecode, State.afterChecks, hk]

/-- A start that fails is the whole command (R222). -/
theorem exec_hufDecode_of_fail {s : State} {d : Detail} (h : beginHufDecode s = s.fail .hufDecode d) :
    exec .hufDecode s = .next (s.fail .hufDecode d) :=
  congrArg Host.Outcome.next ((congrArg finish h).trans (finish_idle rfl))

/-- HUF_DECODE past its framing checks, with the header in `LEN` (R182). -/
def hufHeaderRead (s : State) : State := hufReadStep { s with stage := .hufRead }

theorem exec_hufDecode_framed {s : State} (hk : checkArgs .hufDecode s.latched = none)
    (hlen : 256 ≤ s.latched.srcLen.toNat) (hbits : s.latched.srcBits.toNat ≤ 8 * (s.latched.srcLen.toNat - 256)) :
    exec .hufDecode s = .next (finish (hufCheckStep (hufHeaderRead s))) := by
  have hbegin : beginHufDecode s = { s with stage := .hufRead } := by
    rw [beginHufDecode_checked hk, if_neg (Nat.not_lt.2 hlen), if_neg (Nat.not_lt.2 hbits)]
  refine congrArg Host.Outcome.next ?_
  calc finish (beginHufDecode s) = finish { s with stage := .hufRead } := by rw [hbegin]
    _ = finish (hufHeaderRead s) := (finish_stageStep (s := { s with stage := .hufRead }) nofun).symm
    _ = finish (hufCheckStep (hufHeaderRead s)) := (finish_stageStep (s := hufHeaderRead s) nofun).symm

/-! ### The header -/

theorem toList_tabulate_getD {α : Type} (l : List α) (d : α) {n : Nat} (hn : l.length = n) :
    (tabulate n fun i => l.getD i d).toList = l := by
  rw [toList_tabulate]
  refine List.ext_getElem (by simp [hn]) fun i _ hi => ?_
  rw [List.getElem_map, List.getElem_range, List.getD_eq_getElem _ _ hi]

theorem hufHeaderRead_lens (s : State) : (hufHeaderRead s).work.lens = s.headerLengths :=
  congrArg (List.map BitVec.toNat) (toList_tabulate_getD _ _ (Memory.length_readBytes _ _ _))

theorem validLengths_of_header {s : State} (h : kraftOK s.headerLengths = true) : ValidLengths s.headerLengths where
  length := by rw [State.headerLengths, List.length_map, Memory.length_readBytes]
  le l hl := by
    obtain ⟨b, -, rfl⟩ := List.mem_map.1 hl
    exact Nat.le_of_lt_succ b.isLt
  kraft := h

/-- A header with Kraft sum above 1 ends HUF_DECODE (R183). -/
theorem hufCheckStep_bad {s : State} (h : kraftOK s.work.lens = false) :
    hufCheckStep s = s.fail .hufDecode .hufBadHeader := by
  rw [hufCheckStep, h]
  exact if_neg Bool.false_ne_true

/-- The unpacker starts at the first payload bit, under the codes of the header (R184, R185, R192). -/
theorem hufCheckStep_valid {s : State} (h : kraftOK s.work.lens = true) :
    ∃ w : Work, hufCheckStep s = { s with stage := .hufWalk, work := w } ∧ w.lens = s.work.lens ∧
      w.code = codeTable s.work.lens ∧ w.tables = buildDecodeTables s.work.lens ∧ w.unpack.bpos = 0 ∧
      w.unpack.opos = 0 :=
  ⟨_, if_pos h, rfl, rfl, rfl, rfl, rfl⟩

theorem exec_hufDecode_badHeader {s : State} (hk : checkArgs .hufDecode s.latched = none)
    (hlen : 256 ≤ s.latched.srcLen.toNat) (hbits : s.latched.srcBits.toNat ≤ 8 * (s.latched.srcLen.toNat - 256))
    (h : kraftOK s.headerLengths = false) :
    exec .hufDecode s = .next ((hufHeaderRead s).fail .hufDecode .hufBadHeader) := by
  rw [exec_hufDecode_framed hk hlen hbits, hufCheckStep_bad (by rw [hufHeaderRead_lens, h]), finish_idle rfl]

/-- Settles O39: each check that fails ends the command, in the order of `beginHufDecode` and `hufCheckStep`. -/
theorem hufDecodeFraming : Obligations.HufDecodeFraming := by
  refine fun s hk => ⟨fun hshort => exec_failed (t := s) rfl (exec_hufDecode_of_fail ?_), fun hlen hover =>
    exec_failed (t := s) rfl (exec_hufDecode_of_fail ?_), fun hlen hbits hbad =>
    exec_failed rfl (exec_hufDecode_badHeader hk hlen hbits hbad)⟩
  · rw [beginHufDecode_checked hk, if_pos hshort]
  · rw [beginHufDecode_checked hk, if_neg (Nat.not_lt.2 hlen), if_pos hover]

end Sys2Proof.Machine
end

section
/-! SUPPORT. The Huffman decoder family: the walk of a whole bit budget, one symbol a step (42_huffman_decode.md R186 to
R193). It is a packet loop: a decoded symbol is a packet that stands for one byte. -/

namespace Sys2Proof.Machine

/-! ### The payload bits -/

/-- The bits of the budget from payload position `i` on (R186). -/
def State.bitsFrom (s : State) (i : Nat) : List Bool := (List.range' i (s.latched.srcBits.toNat - i)).map (getBit s)

theorem bitsFrom_zero (s : State) : s.bitsFrom 0 = s.budgetBits := by
  rw [State.bitsFrom, State.budgetBits, List.range_eq_range', Nat.sub_zero]

theorem bitsFrom_drop (s : State) (i n : Nat) : (s.bitsFrom i).drop n = s.bitsFrom (i + n) := by
  rw [State.bitsFrom, State.bitsFrom, ← List.map_drop, List.drop_range', Nat.mul_one, Nat.sub_sub]

theorem bitsFrom_eq_nil_iff {s : State} {i : Nat} : s.bitsFrom i = [] ↔ s.latched.srcBits.toNat ≤ i := by
  rw [State.bitsFrom, List.map_eq_nil_iff, List.range'_eq_nil_iff, Nat.sub_eq_zero_iff_le]

/-- Bits at the head of the budget from a position on are within it. -/
theorem le_srcBits_of_bitsFrom {s : State} {i : Nat} {bits rest : List Bool} (h : s.bitsFrom i = bits ++ rest)
    (hne : bits ≠ []) : i + bits.length ≤ s.latched.srcBits.toNat := by
  have hlen := congrArg List.length h
  rw [State.bitsFrom, List.length_map, List.length_range', List.length_append] at hlen
  have := List.length_pos_of_ne_nil hne
  omega

/-- Bytes stored in the destination window leave the payload bits alone, when it does not overlap the source (R225). -/
theorem bitsFrom_written {s : State} {o : Nat} {bs : List Byte} (w : Work)
    (happ : s.latched.src.overlaps s.latched.dst = false) (ho : o + bs.length ≤ s.latched.dstCap.toNat)
    (hbits : s.latched.srcBits.toNat ≤ 8 * (s.latched.srcLen.toNat - 256)) (i : Nat) :
    (s.written o bs w).bitsFrom i = s.bitsFrom i := by
  refine List.map_congr_left fun j hj => congrArg (BitVec.getLsbD · (7 - j % 8)) ?_
  have hj := List.mem_range'_1.1 hj
  rw [State.written_latched] at hj
  have hsrc : s.latched.src.has (s.latched.srcBase.toNat + 256 + j / 8) = true := by
    rw [Window.has_iff]
    simp only [Operands.src]
    omega
  have hdst := (Window.has_false_iff _ _).1 (Window.has_of_not_overlaps happ hsrc)
  simp only [Operands.dst] at hdst
  exact Memory.read_writeBytes_outside _ _ _ (s.latched.srcBase.toNat + 256 + j / 8) (by omega)

/-! ### One step -/

section
variable {s : State}

/-- A symbol with no room left fails for want of capacity (R188). -/
theorem hufWalkStep_full {sym depth code : Nat} (hbpos : s.work.unpack.bpos.toNat < s.latched.srcBits.toNat)
    (hd : decodeSymbol s = .symbol sym depth code) (hfull : s.work.unpack.opos.toNat = s.latched.dstCap.toNat) :
    hufWalkStep s = s.fail .hufDecode .outCapacity := by
  simp only [hufWalkStep, if_pos hbpos, hd, if_pos hfull]

/-- A symbol with room left is written, and the unpacker moves past its codeword (R187, R192). -/
theorem hufWalkStep_writes {sym depth code : Nat} (hbpos : s.work.unpack.bpos.toNat < s.latched.srcBits.toNat)
    (hd : decodeSymbol s = .symbol sym depth code) (hroom : s.work.unpack.opos.toNat ≠ s.latched.dstCap.toNat) :
    ∃ u : UnpackWork, hufWalkStep s =
        s.written s.work.unpack.opos.toNat [BitVec.ofNat 8 sym] { s.work with unpack := u } ∧
      u.bpos = BitVec.ofNat 35 (s.work.unpack.bpos.toNat + depth) ∧
      u.opos = BitVec.ofNat 32 (s.work.unpack.opos.toNat + 1) := by
  simp only [hufWalkStep, if_pos hbpos, hd, if_neg hroom]
  exact ⟨_, rfl, rfl, rfl⟩

/-- A walk that finds no symbol ends the command (R187). -/
theorem hufWalkStep_stuck {m n : Nat} (hbpos : s.work.unpack.bpos.toNat < s.latched.srcBits.toNat)
    (hd : decodeSymbol s = if m ≤ n then .invalid else .truncated) :
    hufWalkStep s = s.fail .hufDecode (if m ≤ n then .hufInvalidCodeword else .hufTruncatedCode) := by
  by_cases hmax : m ≤ n
  · rw [if_pos hmax] at hd ⊢
    simp only [hufWalkStep, if_pos hbpos, hd]
  · rw [if_neg hmax] at hd ⊢
    simp only [hufWalkStep, if_pos hbpos, hd]

/-- With the budget used up HUF_DECODE succeeds (R193). -/
theorem hufWalkStep_end (h : s.latched.srcBits.toNat ≤ s.work.unpack.bpos.toNat) :
    hufWalkStep s = s.succeed s.work.unpack.opos.toNat 0 0 := if_neg (Nat.not_lt.2 h)

end

theorem stageStep_hufWalk {s : State} (h : s.stage = .hufWalk) : stageStep s = hufWalkStep s := by
  simp only [stageStep, h]

/-! ### The walk as a packet loop -/

/-- HUF_DECODE stands before the codewords of the symbols `ps` of its budget, which goes on with `rest`, with `o` bytes
written. -/
structure WalkAhead (lens : List Nat) (rest : List Bool) (s : State) (o : Nat) (ps : List Packet) : Prop where
  stage : s.stage = .hufWalk
  apart : s.latched.src.overlaps s.latched.dst = false
  framed : s.latched.srcBits.toNat ≤ 8 * (s.latched.srcLen.toNat - 256)
  header : s.work.lens = lens
  code : s.work.code = codeTable lens
  tables : s.work.tables = buildDecodeTables lens
  opos : s.work.unpack.opos.toNat = o
  fits : o ≤ s.latched.dstCap.toNat
  symbols : ∀ p ∈ ps, ∃ b : Byte, p.span = [b] ∧ lens.getD b.toNat 0 ≠ 0
  bits : s.bitsFrom s.work.unpack.bpos.toNat = payloadOf lens (ps.flatMap Packet.span) ++ rest

section
variable {lens : List Nat} (hv : ValidLengths lens) {rest : List Bool} {s : State} {o : Nat} {ps : List Packet}
include hv

theorem WalkAhead.decodeSymbol_eq (h : WalkAhead lens rest s o ps) :
    decodeSymbol s = walkFrom lens (getBit s) (s.latched.srcBits.toNat - s.work.unpack.bpos.toNat)
      s.work.unpack.bpos.toNat [] := by
  have hmax : s.work.tables.maxLen.toNat = maxLenOf lens := by
    rw [h.tables]
    exact Nat.mod_eq_of_lt (Nat.lt_succ_of_le (maxLenOf_le_iff.2 hv.le))
  rw [decodeSymbol, h.header, h.code, hmax]
  rfl

/-- The next symbol is found (R187). -/
theorem WalkAhead.decodeSymbol_cons {p : Packet} (h : WalkAhead lens rest s o (p :: ps)) :
    ∃ b : Byte, p.span = [b] ∧ s.work.unpack.bpos.toNat < s.latched.srcBits.toNat ∧
      decodeSymbol s = .symbol b.toNat (codeword lens b).length (bitsValue (codeword lens b)) ∧
      s.work.unpack.bpos.toNat + (codeword lens b).length ≤ s.latched.srcBits.toNat ∧
      s.bitsFrom (s.work.unpack.bpos.toNat + (codeword lens b).length) =
        payloadOf lens (ps.flatMap Packet.span) ++ rest := by
  obtain ⟨b, hspan, hb⟩ := h.symbols p List.mem_cons_self
  have hbits := h.bits
  rw [List.flatMap_cons, hspan, List.singleton_append, payloadOf, List.flatMap_cons, List.append_assoc] at hbits
  have hne : codeword lens b ≠ [] := List.ne_nil_of_length_pos (by rw [length_codeword]; omega)
  have hle := le_srcBits_of_bitsFrom hbits hne
  have hpos := List.length_pos_of_ne_nil hne
  refine ⟨b, hspan, by omega, ?_, hle, ?_⟩
  · rw [h.decodeSymbol_eq hv, walkFrom_codeword hv hb rfl hne hbits]
  · rw [← bitsFrom_drop, hbits, List.drop_left]
    rfl

/-- Each step of HUF_DECODE writes its next symbol (R187, R188, R192). -/
theorem hufDecode_loop (rest : List Bool) : PacketLoop .hufDecode Packet.span (WalkAhead lens rest) where
  running h := by simp [h.stage]
  writes {s o p ps} h hcap := by
    obtain ⟨b, hspan, hbpos, hd, hle, hbits⟩ := h.decodeSymbol_cons hv
    obtain ⟨hstage, happ, hframed, hheader, hcode, htables, rfl, -, hsymbols, -⟩ := h
    rw [hspan] at hcap ⊢
    obtain ⟨u, hstep, hubpos, huopos⟩ := hufWalkStep_writes hbpos hd (Nat.ne_of_lt hcap)
    rw [BitVec.ofNat_toNat, BitVec.setWidth_eq] at hstep
    refine ⟨_, (stageStep_hufWalk hstage).trans hstep, hstage, happ, hframed, hheader, hcode, htables, ?_, hcap,
      (List.forall_mem_cons.1 hsymbols).2, ?_⟩
    · rw [State.written_work, huopos]
      exact ofNat_toNat_of_le s.latched.dstCap hcap
    · have hpos : u.bpos.toNat = s.work.unpack.bpos.toNat + (codeword lens b).length := by
        rw [hubpos]
        exact ofNat_toNat_of_le s.latched.srcBits hle
      rw [bitsFrom_written _ happ hcap hframed, State.written_work, hpos, hbits]
  overflows {s o p ps} h hcap := by
    obtain ⟨b, hspan, hbpos, hd, -⟩ := h.decodeSymbol_cons hv
    have hfits := h.fits
    rw [hspan, List.length_singleton] at hcap
    exact ⟨s, by rw [stageStep_hufWalk h.stage, hufWalkStep_full hbpos hd (by rw [h.opos]; omega)]⟩

/-- Bits that begin with no codeword end the command (R187, R191). -/
theorem WalkAhead.stuck (h : WalkAhead lens rest s o []) (hne : rest ≠ [])
    (hnone : ∀ b : Byte, lens.getD b.toNat 0 ≠ 0 → ¬ codeword lens b <+: rest) :
    stageStep s =
      s.fail .hufDecode (if maxLenOf lens ≤ rest.length then .hufInvalidCodeword else .hufTruncatedCode) := by
  have hle := le_srcBits_of_bitsFrom (h.bits.trans (List.append_nil rest).symm) hne
  have hpos := List.length_pos_of_ne_nil hne
  rw [stageStep_hufWalk h.stage]
  exact hufWalkStep_stuck (by omega) ((h.decodeSymbol_eq hv).trans (walkFrom_stuck hv hnone h.bits (Nat.zero_le _)))

end

/-- At the end of its budget HUF_DECODE succeeds (R193). -/
theorem WalkAhead.ends {lens : List Nat} {s : State} {o : Nat} (h : WalkAhead lens [] s o []) :
    stageStep s = s.succeed o 0 0 := by
  rw [stageStep_hufWalk h.stage, hufWalkStep_end (bitsFrom_eq_nil_iff.1 h.bits), h.opos]

end Sys2Proof.Machine
end

section
/-! SUPPORT. The Huffman decoder family: how HUF_DECODE ends (42_huffman_decode.md R187 to R193). -/

namespace Sys2Proof.Machine

/-- Symbols as packets that stand for one byte each. -/
def symbolPackets (symbols : List Byte) : List Packet := symbols.map fun b => .lit [b]

@[simp] theorem flatMap_span_symbolPackets (symbols : List Byte) :
    (symbolPackets symbols).flatMap Packet.span = symbols := by
  rw [symbolPackets, List.flatMap_map]
  exact List.flatMap_singleton' symbols

section
variable {s : State} {symbols : List Byte} {rest : List Bool} (hd : DecodableHeader s)
  (hpresent : ∀ b ∈ symbols, s.headerLengths.getD b.toNat 0 ≠ 0)
include hd hpresent

/-- Past its checks and its header HUF_DECODE stands before the first codeword (R182 to R185, R192). -/
theorem exec_hufDecode_walks (hbits : s.budgetBits = payloadOf s.headerLengths symbols ++ rest) :
    ∃ w : Work, exec .hufDecode s = .next (finish { s with stage := .hufWalk, work := w }) ∧
      WalkAhead s.headerLengths rest { s with stage := .hufWalk, work := w } 0 (symbolPackets symbols) := by
  obtain ⟨w, hcheck, hheader, hcode, htables, hbpos, hopos⟩ :=
    hufCheckStep_valid (s := hufHeaderRead s) (by rw [hufHeaderRead_lens]; exact hd.valid)
  rw [hufHeaderRead_lens] at hheader hcode htables
  refine ⟨w, by rw [exec_hufDecode_framed hd.checked hd.holdsHeader hd.holdsBits, hcheck]; rfl, rfl,
    (checkArgs_dst hd.checked rfl).2, hd.holdsBits, hheader, hcode, htables, congrArg BitVec.toNat hopos,
    Nat.zero_le _, fun p hp => ?_, ?_⟩
  · obtain ⟨b, hb, rfl⟩ := List.mem_map.1 hp
    exact ⟨b, rfl, hpresent b hb⟩
  · rw [hbpos, flatMap_span_symbolPackets, ← hbits]
    exact bitsFrom_zero s

/-- HUF_DECODE of codewords whose symbols fit delivers them (R192, R193). -/
theorem exec_hufDecode_delivers (hbits : s.budgetBits = payloadOf s.headerLengths symbols)
    (hcap : symbols.length ≤ s.latched.dstCap.toNat) : exec .hufDecode s = .next (s.delivered symbols) := by
  obtain ⟨w, hexec, hahead⟩ := exec_hufDecode_walks hd hpresent (hbits.trans (List.append_nil _).symm)
  rw [hexec, (hufDecode_loop (validLengths_of_header hd.valid) []).finish_delivers WalkAhead.ends hahead
    (by rwa [flatMap_span_symbolPackets]), flatMap_span_symbolPackets]
  rfl

/-- HUF_DECODE of more codewords than fit is CapacityExceeded, whatever comes after them (R188, R224). -/
theorem exec_hufDecode_overflows (hbits : s.budgetBits = payloadOf s.headerLengths symbols ++ rest)
    (hcap : s.latched.dstCap.toNat < symbols.length) :
    ∃ t : State, exec .hufDecode s = .next (t.fail .hufDecode .outCapacity) := by
  obtain ⟨w, hexec, hahead⟩ := exec_hufDecode_walks hd hpresent hbits
  obtain ⟨t, ht⟩ := (hufDecode_loop (validLengths_of_header hd.valid) rest).finish_overflows hahead (Nat.zero_le _)
    (by rwa [flatMap_span_symbolPackets, Nat.zero_add])
  exact ⟨t, by rw [hexec, ht]⟩

/-- HUF_DECODE of codewords that fit fails on bits after them that begin with no codeword (R187, R191). -/
theorem exec_hufDecode_stuck (hbits : s.budgetBits = payloadOf s.headerLengths symbols ++ rest) (hne : rest ≠ [])
    (hnone : ∀ b : Byte, s.headerLengths.getD b.toNat 0 ≠ 0 → ¬ codeword s.headerLengths b <+: rest)
    (hcap : symbols.length ≤ s.latched.dstCap.toNat) :
    ∃ t : State, exec .hufDecode s = .next (t.fail .hufDecode
      (if maxLenOf s.headerLengths ≤ rest.length then .hufInvalidCodeword else .hufTruncatedCode)) := by
  have hv := validLengths_of_header hd.valid
  obtain ⟨w, hexec, hahead⟩ := exec_hufDecode_walks hd hpresent hbits
  obtain ⟨w', hfinish, hend⟩ := (hufDecode_loop hv rest).finish_fits hahead
    (by rwa [flatMap_span_symbolPackets, Nat.zero_add])
  exact ⟨_, by
    rw [hexec, hfinish, ← finish_stageStep ((hufDecode_loop hv rest).running hend), hend.stuck hv hne hnone,
      finish_idle rfl]⟩

end

/-- Settles O40: the walk takes a codeword a step, and ends at the end of the budget or at the first symbol with no
room. -/
theorem hufDecodeCodewords : Obligations.HufDecodeCodewords := by
  refine fun s symbols hd hpresent => ⟨fun hbits hcap => ?_, fun rest hbits hcap => ?_⟩
  · exact ⟨_, exec_hufDecode_delivers hd hpresent hbits hcap, delivered_effect s symbols⟩
  · obtain ⟨t, ht⟩ := exec_hufDecode_overflows hd hpresent hbits hcap
    exact exec_failed rfl ht

/-- Settles O41: behind the whole codewords the walk reads `MAXLEN` bits, or all there are, and finds no symbol. -/
theorem hufDecodeBadCodeword : Obligations.HufDecodeBadCodeword := by
  intro s symbols rest hd hpresent hbits hne hnone hcap
  obtain ⟨t, ht⟩ := exec_hufDecode_stuck hd hpresent hbits hne hnone hcap
  exact exec_failed rfl ht

/-- With a budget of no bits HUF_DECODE delivers no byte (R190). -/
theorem exec_hufDecode_zeroBits {s : State} (hd : DecodableHeader s) (hzero : s.latched.srcBits = 0) :
    exec .hufDecode s = .next (s.delivered []) := by
  refine exec_hufDecode_delivers hd (List.forall_mem_nil _) ?_ (Nat.zero_le _)
  rw [State.budgetBits, hzero]
  rfl

/-- The all-zero header is valid and has no codeword; its first bit is invalid (R190). -/
theorem exec_hufDecode_noSymbols {s : State} (hk : checkArgs .hufDecode s.latched = none)
    (hlen : 256 ≤ s.latched.srcLen.toNat) (hpos : 0 < s.latched.srcBits.toNat)
    (hbits : s.latched.srcBits.toNat ≤ 8 * (s.latched.srcLen.toNat - 256))
    (hheader : s.headerLengths = List.replicate 256 0) :
    ∃ t : State, exec .hufDecode s = .next (t.fail .hufDecode .hufInvalidCodeword) := by
  have hd : DecodableHeader s :=
    ⟨hk, hlen, hbits, by rw [hheader, kraftOK, kraftSum_replicate_zero]; exact decide_eq_true (Nat.zero_le _)⟩
  have hmax : maxLenOf s.headerLengths ≤ s.budgetBits.length :=
    (maxLenOf_le_iff.2 fun l hl => (List.eq_of_mem_replicate (hheader ▸ hl)).le).trans (Nat.zero_le _)
  have hstuck := exec_hufDecode_stuck (symbols := []) (rest := s.budgetBits) hd (List.forall_mem_nil _) rfl
    (List.ne_nil_of_length_pos (by simpa [State.budgetBits] using hpos))
    (fun b hb => absurd (by rw [hheader, List.getD_eq_getElem?_getD, List.getElem?_getD_replicate_default_eq]) hb)
    (Nat.zero_le _)
  rwa [if_pos hmax] at hstuck

/-- Settles O42: no codeword to decode, a header that fails its check, and a header with no codeword. -/
theorem hufDecodeZeroBits : Obligations.HufDecodeZeroBits := by
  refine fun s hk hlen => ⟨fun hzero hvalid => ?_, fun hzero hbad => ?_, fun hpos hbits hheader => ?_⟩
  · have hbits : s.latched.srcBits.toNat ≤ 8 * (s.latched.srcLen.toNat - 256) := by rw [hzero]; exact Nat.zero_le _
    exact ⟨_, exec_hufDecode_zeroBits ⟨hk, hlen, hbits, hvalid⟩ hzero, (delivered_effect s []).1, rfl⟩
  · exact ⟨_, exec_hufDecode_badHeader hk hlen (by rw [hzero]; exact Nat.zero_le _) hbad, rfl, rfl, rfl⟩
  · obtain ⟨t, ht⟩ := exec_hufDecode_noSymbols hk hlen hpos hbits hheader
    exact ⟨_, ht, rfl, rfl, rfl⟩

end Sys2Proof.Machine
end

section
/-! SUPPORT. The Huffman decoder family: HUF_DECODE of what HUF_ENCODE wrote (42_huffman_decode.md R194). -/

namespace Sys2Proof.Machine

/-- Every symbol of an input has a code length (R144, R145). -/
theorem inputLengths_getD_ne_zero {input : List Byte} {b : Byte} (hb : b ∈ input) :
    (inputLengths input).getD b.toNat 0 ≠ 0 := by
  have hfreq : (freqOf input).getD b.toNat 0 ≠ 0 := by
    rw [freqOf_getD _ b.isLt, ← Nat.pos_iff_ne_zero, List.countP_pos_iff]
    exact ⟨b, hb, beq_self_eq_true _⟩
  obtain ⟨p, hp, -⟩ := List.mem_map.1 (mem_presentOf_getD.2 hfreq)
  obtain ⟨root, hroot⟩ := TreeOf.exists_root (length_freqOf input) (List.ne_nil_of_mem hp)
  exact mt (hroot.getD_eq_zero_iff b.isLt).1 hfreq

/-! ### Reading an artifact -/

section
variable {m : Memory} {a : Nat} {input : List Byte} (h : m.readBytes a (inputSize input) = artifactOf input)
include h

/-- Header and payload lie one behind the other (R90). -/
theorem artifactOf_parts : m.readBytes a 256 = headerOf (inputLengths input) ∧
    m.readBytes (a + 256) (cdiv (inputBits input) 8) = (packBits (payloadOf (inputLengths input) input)).out := by
  rw [inputSize, Memory.readBytes_append] at h
  exact List.append_inj h (by rw [Memory.length_readBytes, length_headerOf_inputLengths])

/-- The payload gives the bits of the input's codewords back (R151, R186). -/
theorem payloadBit_artifactOf {j : Nat} (hj : j < inputBits input) :
    payloadBit (fun k => m.read (a + 256 + k)) j = (payloadOf (inputLengths input) input).getD j false := by
  have hbyte : j / 8 < (m.readBytes (a + 256) (cdiv (inputBits input) 8)).length := by
    rw [Memory.length_readBytes, cdiv]
    omega
  rw [← payloadBit_packBits, ← (artifactOf_parts h).2]
  refine congrArg (BitVec.getLsbD · (7 - j % 8)) ?_
  beta_reduce
  rw [List.getD_eq_getElem _ _ hbyte, Memory.getElem_readBytes]

end

/-- The header of an artifact gives the input's code lengths back (R148, R182). -/
theorem headerLengths_of_header {u : State} {input : List Byte}
    (h : u.mem.readBytes u.latched.srcBase.toNat 256 = headerOf (inputLengths input)) :
    u.headerLengths = inputLengths input := by
  have hle : ∀ l ∈ inputLengths input, l ≤ 255 := codeLengths_le (length_freqOf input)
  calc u.headerLengths = (headerOf (inputLengths input)).map BitVec.toNat := congrArg _ h
    _ = inputLengths input := by
      rw [headerOf, List.map_map]
      exact (List.map_congr_left fun l hl => Nat.mod_eq_of_lt (Nat.lt_succ_of_le (hle l hl))).trans (List.map_id' _)

/-! ### The decode of an encode -/

/-- What a successful HUF_ENCODE has reported, in numbers (R155). -/
theorem hufEncode_counts {s t : State} (ht : exec .hufEncode s = .next t) (hst : t.status = Status.completed .none) :
    t.res.len.toNat = inputSize s.srcBytes ∧ t.res.bits.toNat = inputBits s.srcBytes := by
  obtain ⟨hk, base, ha⟩ := exec_hufEncode_succeeded ht hst
  obtain ⟨hsize, hcount⟩ := granted_fits ha
  obtain ⟨hlen, hbits, -⟩ := hufEncode_result ht hst
  exact ⟨by rw [hlen]; exact Nat.mod_eq_of_lt hsize, by rw [hbits]; exact Nat.mod_eq_of_lt hcount⟩

/-- A decode's source with the header and the payload bits that HUF_ENCODE wrote holds the codewords of the input under
the input's code lengths, whatever the padding bits are (R194). -/
theorem decodable_of_encoded {s t u : State} (ht : exec .hufEncode s = .next t)
    (hst : t.status = Status.completed .none) (hk : checkArgs .hufDecode u.latched = none)
    (hlen : u.latched.srcLen = t.res.len) (hbits : u.latched.srcBits = t.res.bits)
    (hheader : u.mem.readBytes u.latched.srcBase.toNat 256 = t.mem.readBytes t.res.base.toNat 256)
    (hpayload : ∀ j < t.res.bits.toNat, getBit u j = payloadBit (fun k => t.mem.read (t.res.base.toNat + 256 + k)) j) :
    DecodableHeader u ∧ u.headerLengths = inputLengths s.srcBytes ∧
      u.budgetBits = payloadOf (inputLengths s.srcBytes) s.srcBytes := by
  obtain ⟨hsize, hcount⟩ := hufEncode_counts ht hst
  obtain ⟨-, -, hread⟩ := hufEncode_result ht hst
  rw [hsize] at hread
  have hlens : u.headerLengths = inputLengths s.srcBytes :=
    headerLengths_of_header (hheader.trans (artifactOf_parts hread).1)
  have hsizeEq : inputSize s.srcBytes = 256 + (inputBits s.srcBytes + 8 - 1) / 8 := rfl
  refine ⟨⟨hk, ?_, ?_, by rw [hlens]; exact (codeLengthsFormFullTree _).2.1⟩, hlens, ?_⟩
  · rw [hlen, hsize, hsizeEq]
    exact Nat.le_add_right _ _
  · rw [hlen, hbits, hsize, hcount, hsizeEq, Nat.add_sub_cancel_left]
    omega
  · apply List.ext_getElem
    · rw [State.budgetBits, List.length_map, List.length_range, hbits, hcount, length_payloadOf]
    · intro j _ hj
      have hj' : j < inputBits s.srcBytes := by rwa [← length_payloadOf]
      simp only [State.budgetBits, List.getElem_map, List.getElem_range]
      rw [hpayload j (by rwa [hcount]), payloadBit_artifactOf hread hj', List.getD_eq_getElem _ _ hj]

/-- Settles O43: the budget is the input's codewords, so the decode succeeds or fails as the input fits. -/
theorem hufRoundTrip : Obligations.HufRoundTrip := by
  intro s t u ht hst hk hlen hbits hheader hpayload
  obtain ⟨hd, hlens, hbudget⟩ := decodable_of_encoded ht hst hk hlen hbits hheader hpayload
  have hsrc := length_srcBytes s
  have hpresent : ∀ b ∈ s.srcBytes, u.headerLengths.getD b.toNat 0 ≠ 0 := fun b hb => by
    rw [hlens]
    exact inputLengths_getD_ne_zero hb
  rw [← hlens] at hbudget
  refine ⟨fun hcap => ?_, fun hcap => ?_⟩
  · obtain ⟨hdone, hread, -⟩ := delivered_effect u s.srcBytes
    rw [hsrc] at hdone hread
    exact ⟨_, exec_hufDecode_delivers hd hpresent hbudget (by rw [hsrc]; exact hcap), hdone.status,
      by rw [hdone.res, BitVec.ofNat_toNat, BitVec.setWidth_eq], hread⟩
  · obtain ⟨v, hv⟩ := exec_hufDecode_overflows (rest := []) hd hpresent (hbudget.trans (List.append_nil _).symm)
      (by rw [hsrc]; omega)
    exact ⟨_, hv, rfl⟩

end Sys2Proof.Machine
end

section
/-! SUPPORT. The control family: issue, HUF_RELEASE and the reserved opcodes (43_control.md R210, R212, R213). -/

namespace Sys2Proof.Machine

/-! ### Issue -/

/-- The host reaches bits [31:0] of `CMD` by either width (R81). -/
theorem legalAccess_cmd {width : Nat} (hw : width = 64 ∨ width = 32) : legalAccess width 0x00 = true := by
  rcases hw with rfl | rfl <;> rfl

/-- A write to bits [31:0] of an idle core's `CMD` issues the value written, whatever its width (R210). -/
theorem hostWrite_cmd {s : State} {width : Nat} (hw : width = 64 ∨ width = 32) (hb : s.status.busy = false)
    (v : Slot) : hostWrite width 0x00 v s = s.issueWord v := hostWrite_idle hb v (legalAccess_cmd hw)

/-- The opcode of a command word is its low byte (R82). -/
theorem opcodeField_eq (v : Slot) : opcodeField v = BitVec.ofNat 8 v.toNat := (BitVec.ofNat_toNat ..).symm

/-- Settles O10: the event is the host write, which issues on an idle core and has no effect on a busy one. -/
theorem issueStep : Obligations.IssueStep := by
  intro s width v rest hw hf ha
  rw [step_head hf ha]
  refine ⟨fun hb => ?_, fun hb => ?_⟩
  · exact ⟨_, congrArg Host.Outcome.next (hostWrite_cmd (s := { s with agenda := rest }) hw hb v), opcodeField_eq v,
      rfl, rfl, rfl, rfl, rfl, rfl, rfl, rfl, rfl, rfl⟩
  · exact congrArg Host.Outcome.next (hostWrite_busy (s := { s with agenda := rest }) hb v (legalAccess_cmd hw))

/-! ### Reserved opcodes -/

/-- A reserved opcode names no command (R83). -/
theorem decodeOpcode_reserved {op : Byte} (h : reservedOpcode op = true) : decodeOpcode op = .reservedOp op :=
  (Decoded.instr.inj (Laws.RoundTrip.reservedOp op h [])).1

/-- Settles O44: the command is one failure, and one that gives up no destination window. -/
theorem reservedOpcodeCompletes : Obligations.ReservedOpcodeCompletes := by
  intro op s hop
  have hres : reservedOpcode op = true := by
    rcases hop with rfl | hop
    · rfl
    · simp [reservedOpcode, hop]
  refine ⟨decodeOpcode_reserved hres, s.fail (.reservedOp s.op) .illegalOp, rfl, ⟨rfl, rfl, rfl⟩, ?_,
    s.fail_mem_of_none _ rfl, fail_setting _ _ _, fail_regions _ _ _, fun heq => ?_⟩
  · rw [State.fail_status]
    decide
  · rw [← heq]
    exact slot_toNat s.op (by decide)

/-! ### HUF_RELEASE -/

/-- The null base releases nothing (R213). -/
theorem hufRelease_null {s : State} (h : s.latched.srcBase = 0) : hufRelease s = s.succeed 0 0 0 := if_pos h

/-- HUF_RELEASE completes OK with all results 0, whatever the base (R213). -/
theorem hufRelease_completed (s : State) : Completed (hufRelease s) .none ⟨0, 0, 0⟩ := by
  unfold hufRelease
  dsimp only
  split <;> exact ⟨rfl, rfl, rfl⟩

/-- HUF_RELEASE asks the allocator for no answer (R213). -/
theorem hufRelease_allocAnswers (s : State) : (hufRelease s).allocAnswers = s.allocAnswers := by
  unfold hufRelease
  dsimp only
  split <;> rfl

/-- No region of `LIVE` has a base exactly when every region's base differs from it (R38). -/
theorem liveRegion_isNone_iff (s : State) (base : Addr) :
    (s.liveRegion base).isNone = true ↔ ∀ w ∈ s.live, w.base ≠ base.toNat := by
  simp [State.liveRegion]

section

variable {s : State} (h : s.latched.srcBase ≠ 0)
include h

/-- Any base but the null one is sent to the allocator (R213). -/
theorem hufRelease_portLog : (hufRelease s).portLog = .release s.latched.srcBase :: s.portLog :=
  congrArg State.portLog (if_neg h)

/-- The regions with the base leave `LIVE`, and only they (R213). -/
theorem mem_hufRelease_live (w : Window) :
    w ∈ (hufRelease s).live ↔ w ∈ s.live ∧ w.base ≠ s.latched.srcBase.toNat := by
  have hlive : (hufRelease s).live = s.live.filter fun w => w.base != s.latched.srcBase.toNat :=
    congrArg State.live (if_neg h)
  simp [hlive]

/-- A base that is not in `LIVE` breaks HD4 (R213, R256). -/
theorem hufRelease_hostFault_iff : (hufRelease s).hostFault = true ↔
    s.hostFault = true ∨ ∀ w ∈ s.live, w.base ≠ s.latched.srcBase.toNat := by
  have hfault : (hufRelease s).hostFault = (s.hostFault || (s.liveRegion s.latched.srcBase).isNone) :=
    congrArg State.hostFault (if_neg h)
  rw [hfault, Bool.or_eq_true, liveRegion_isNone_iff]

end

/-- Settles O45: the frame holds whatever the base, and the base decides what happens to LIVE and HOSTFAULT. -/
theorem hufReleaseCompletes : Obligations.HufReleaseCompletes := fun s =>
  ⟨hufRelease s, rfl, hufRelease_completed s, hufRelease_mem s, hufRelease_setting s, hufRelease_allocAnswers s,
    fun h => hufRelease_null h ▸ succeed_regions s 0 0 0,
    fun h => ⟨hufRelease_portLog h, mem_hufRelease_live h, hufRelease_hostFault_iff h⟩⟩

end Sys2Proof.Machine
end

section
/-! SUPPORT. The control family: every command completes (43_control.md R211, R214, R215; 60_exceptions.md R222). -/

namespace Sys2Proof.Machine

/-- Where its start or a stage step leaves command `c`: still running, ended by an error, or ended with its results, of
which only HUF_ENCODE's name bits and a base (R211, R214, R222). -/
inductive RunsOrEnds (c : Instr) (t : State) : Prop where
  | running (h : t.stage ≠ .idle)
  | failed (u : State) (c' : Instr) (d : Detail) (h : t = u.fail c' d)
  | succeeded (u : State) (n b : Nat) (p : Addr) (h : t = u.succeed n b p) (hr : c ≠ .hufEncode → b = 0 ∧ p = 0)

namespace RunsOrEnds

variable {c : Instr}

theorem fail (u : State) (c' : Instr) (d : Detail) : RunsOrEnds c (u.fail c' d) := .failed u c' d rfl

/-- A success that reports a length alone can be any command's. -/
theorem length (u : State) (n : Nat) : RunsOrEnds c (u.succeed n 0 0) := .succeeded u n 0 0 rfl fun _ => ⟨rfl, rfl⟩

theorem afterChecks {s : State} {start : State → State} (h : RunsOrEnds c (start s)) :
    RunsOrEnds c (s.afterChecks c start) :=
  afterChecks_cases (P := RunsOrEnds c) (fun d _ => fail s c d) fun _ => h

theorem guardPacket {s : State} {p n : Nat} {go : State → State} (h : RunsOrEnds c (go s)) :
    RunsOrEnds c (guardPacket s p n go) := by
  unfold Machine.guardPacket
  dsimp only
  split
  · exact fail _ _ _
  · split
    · exact fail _ _ _
    · exact h

end RunsOrEnds

theorem hufRelease_runsOrEnds (c : Instr) (s : State) : RunsOrEnds c (hufRelease s) := by
  unfold hufRelease
  dsimp only
  split <;> exact .length _ 0

theorem beginHufDecode_runsOrEnds (s : State) : RunsOrEnds .hufDecode (beginHufDecode s) := by
  apply RunsOrEnds.afterChecks
  split
  · exact .fail _ _ _
  · split
    · exact .fail _ _ _
    · exact .running nofun

theorem begin_runsOrEnds {i : Instr} (hi : isCommand i = true) (s : State) : RunsOrEnds i (begin i s) := by
  cases i
  case rleEncode =>
    apply RunsOrEnds.afterChecks
    exact .running nofun
  case rleDecode =>
    apply RunsOrEnds.afterChecks
    exact .running nofun
  case hufEncode =>
    apply RunsOrEnds.afterChecks
    exact .running nofun
  case hufDecode => exact beginHufDecode_runsOrEnds s
  case hufRelease => exact hufRelease_runsOrEnds _ s
  case reservedOp op => exact .fail _ _ _
  case lit c => contradiction
  case run c => contradiction

theorem rleEncodeStep_runsOrEnds (c : Instr) {s : State} (h : s.stage ≠ .idle) : RunsOrEnds c (rleEncodeStep s) := by
  unfold rleEncodeStep emitPacket
  dsimp only
  split
  · split
    · exact .fail _ _ _
    · exact .running h
  · exact .length _ _

theorem rleDecodeStep_runsOrEnds (c : Instr) {s : State} (h : s.stage ≠ .idle) : RunsOrEnds c (rleDecodeStep s) := by
  unfold rleDecodeStep
  split
  · rw [runPacket_decodeCtl]
    split
    · exact .guardPacket (.running h)
    · exact .guardPacket (.running h)
  · exact .length _ _

theorem hufAllocStep_runsOrEnds (c : Instr) (s : State) : RunsOrEnds c (hufAllocStep s) := by
  unfold hufAllocStep
  dsimp only
  split
  · exact .running nofun
  · exact .fail _ _ _

theorem hufCheckStep_runsOrEnds (c : Instr) (s : State) : RunsOrEnds c (hufCheckStep s) := by
  unfold hufCheckStep
  dsimp only
  split
  · exact .running nofun
  · exact .fail _ _ _

theorem hufWalkStep_runsOrEnds (c : Instr) {s : State} (h : s.stage ≠ .idle) : RunsOrEnds c (hufWalkStep s) := by
  unfold hufWalkStep
  dsimp only
  split
  · split
    · exact .fail _ _ _
    · exact .fail _ _ _
    · split
      · exact .fail _ _ _
      · exact .running h
  · exact .length _ _

/-- Only HUF_ENCODE comes to the stage whose success reports bits and a base (R155). -/
theorem stageStep_runsOrEnds {c : Instr} {s : State} (hb : Begun c s) (h : s.stage ≠ .idle) :
    RunsOrEnds c (stageStep s) := by
  obtain ⟨hfit, hissued⟩ := hb
  unfold stageStep
  split
  case h_1 => contradiction
  case h_2 => contradiction
  case h_3 => exact rleEncodeStep_runsOrEnds c h
  case h_4 => exact rleDecodeStep_runsOrEnds c h
  case h_8 => exact hufAllocStep_runsOrEnds c s
  case h_11 hs =>
    rw [hs] at hfit
    exact .succeeded _ _ _ _ rfl fun hc => absurd (eq_of_beq hfit) hc
  case h_13 => exact hufCheckStep_runsOrEnds c s
  case h_14 => exact hufWalkStep_runsOrEnds c h
  all_goals exact .running nofun

/-- Carried to its completion, a command is where its last stage step left it (R211). -/
theorem finish_runsOrEnds {c : Instr} {s : State} (hb : Begun c s) (h : RunsOrEnds c s) : RunsOrEnds c (finish s) :=
  (runStages_keeps (P := fun t => Begun c t ∧ RunsOrEnds c t)
    (fun _ ht hi => ⟨stageStep_begun ht.1, stageStep_runsOrEnds ht.1 hi⟩) _ ⟨hb, h⟩).2

/-- Settles O46: enough stage steps end the command (R215), and an ended one has failed or succeeded. -/
theorem everyCommandCompletes : Obligations.EveryCommandCompletes := by
  intro i s hi
  have hidle := finish_stage (begin i s)
  refine ⟨finish (begin i s), ?_⟩
  cases finish_runsOrEnds (begin_begun hi s) (begin_runsOrEnds hi s) with
  | running h => contradiction
  | failed u c d h =>
    refine ⟨d, exec_next hi s, ?_, hidle, ?_⟩ <;> rw [h]
    · rfl
    · exact ⟨fun _ => rfl, fun _ => ⟨rfl, rfl⟩⟩
  | succeeded u n b p h hr =>
    refine ⟨.none, exec_next hi s, ?_, hidle, fun hd => absurd rfl hd, fun hc => ?_⟩ <;> rw [h]
    · rfl
    · obtain ⟨rfl, rfl⟩ := hr hc
      exact ⟨rfl, rfl⟩

end Sys2Proof.Machine
end

section
/-! SUPPORT. The exceptions family: the argument checks and their order (60_exceptions.md R224, R225). -/

namespace Sys2Proof.Machine

/-! ### Overlap -/

/-- Settles O15: of two windows that overlap, the later one's base lies in both. -/
theorem overlapSharesAddress : Obligations.OverlapSharesAddress := by
  intro v w
  simp only [Window.overlaps_iff, Window.has_iff]
  constructor
  · rintro ⟨hv, hw, hvw, hwv⟩
    exact ⟨max v.base w.base, by omega, by omega⟩
  · rintro ⟨a, hv, hw⟩
    omega

/-! ### The order of the checks -/

/-- The detail of the first kind of argument check that fails (R224). -/
def firstFailing (nullBuffer range overlap lengthRange : Bool) : Option Detail :=
  if nullBuffer then some .nullBuffer
  else if range then some .range
  else if overlap then some .overlap
  else if lengthRange then some .lengthRange
  else none

/-- A kind is named exactly when it fails and no kind before it does. -/
theorem firstFailing_iff (n r v l : Bool) :
    (firstFailing n r v l = some .nullBuffer ↔ n = true) ∧
    (firstFailing n r v l = some .range ↔ ¬ n = true ∧ r = true) ∧
    (firstFailing n r v l = some .overlap ↔ ¬ n = true ∧ ¬ r = true ∧ v = true) ∧
    (firstFailing n r v l = some .lengthRange ↔ ¬ n = true ∧ ¬ r = true ∧ ¬ v = true ∧ l = true) ∧
    (firstFailing n r v l = none ↔ ¬ n = true ∧ ¬ r = true ∧ ¬ v = true ∧ ¬ l = true) := by
  revert n r v l
  decide

section
variable (c : Instr) (o : Operands)

/-- A window of the command is bad as `NULL_BUFFER` says (R225). -/
def anyNullBad : Bool := o.src.nullBad || usesDst c && o.dst.nullBad

/-- A window of the command is bad as `RANGE` says (R225). -/
def anyRangeBad : Bool := o.src.rangeBad || usesDst c && o.dst.rangeBad

/-- The argument checks by kind: within a kind the two windows raise the same detail. -/
theorem checkArgs_eq_firstFailing :
    checkArgs c o = firstFailing (anyNullBad c o) (anyRangeBad c o) (usesDst c && o.src.overlaps o.dst)
      (c == .hufEncode && Config.hufMaxIn < o.srcLen.toNat) := by
  simp only [checkArgs, firstFailing, anyNullBad, anyRangeBad, Bool.or_eq_true, ite_or]

/-- A register's window is null-bad when its base register is 0 and its length register is not (R225). -/
theorem nullBad_iff (base : Addr) (len : Len) :
    (Window.mk base.toNat len.toNat).nullBad = true ↔ base = 0 ∧ len ≠ 0 := by
  simp [Window.nullBad, Nat.pos_iff_ne_zero, ← BitVec.toNat_inj]

theorem Window.rangeBad_iff (w : Window) : w.rangeBad = true ↔ 2 ^ 32 < w.base + w.len := decide_eq_true_iff

theorem anyNullBad_iff : anyNullBad c o = true ↔
    (o.srcBase = 0 ∧ o.srcLen ≠ 0) ∨ (usesDst c = true ∧ o.dstBase = 0 ∧ o.dstCap ≠ 0) := by
  rw [anyNullBad, Bool.or_eq_true, Bool.and_eq_true, Operands.src, Operands.dst, nullBad_iff, nullBad_iff]

theorem anyRangeBad_iff : anyRangeBad c o = true ↔
    2 ^ 32 < o.srcBase.toNat + o.srcLen.toNat ∨
      (usesDst c = true ∧ 2 ^ 32 < o.dstBase.toNat + o.dstCap.toNat) := by
  rw [anyRangeBad, Bool.or_eq_true, Bool.and_eq_true, Window.rangeBad_iff, Window.rangeBad_iff, Operands.src,
    Operands.dst]

theorem overlapCheck_iff : (usesDst c && o.src.overlaps o.dst) = true ↔
    usesDst c = true ∧ ∃ a, o.src.has a = true ∧ o.dst.has a = true := by
  rw [Bool.and_eq_true, overlapSharesAddress]

theorem lengthCheck_iff : (c == .hufEncode && Config.hufMaxIn < o.srcLen.toNat) = true ↔
    c = .hufEncode ∧ 2 ^ 32 - 257 < o.srcLen.toNat := by
  rw [Bool.and_eq_true, beq_iff_eq, decide_eq_true_eq]

end

/-- Settles O17: the checks by kind, each kind read off the operand registers. -/
theorem checkOrder : Obligations.CheckOrder := by
  intro c o _
  have h := firstFailing_iff (anyNullBad c o) (anyRangeBad c o) (usesDst c && o.src.overlaps o.dst)
    (c == .hufEncode && Config.hufMaxIn < o.srcLen.toNat)
  rw [← checkArgs_eq_firstFailing] at h
  simpa only [anyNullBad_iff, anyRangeBad_iff, overlapCheck_iff, lengthCheck_iff, not_or, and_assoc] using h

/-! ### A failed check -/

/-- A failed check is the command's failure, whatever its start (R222, R225). -/
theorem afterChecks_failed {c : Instr} {s : State} {d : Detail} (h : checkArgs c s.latched = some d)
    (start : State → State) : s.afterChecks c start = s.fail c d := by
  simp only [State.afterChecks, h]

/-- Every command with a source makes the checks first (R225). -/
theorem begin_failed {c : Instr} {s : State} {d : Detail} (hc : usesSrc c = true)
    (h : checkArgs c s.latched = some d) : begin c s = s.fail c d := by
  cases c
  case rleEncode => rw [begin, beginRleEncode, afterChecks_failed h]
  case rleDecode => rw [begin, beginRleDecode, afterChecks_failed h]
  case hufEncode => rw [begin, beginHufEncode, afterChecks_failed h]
  case hufDecode => rw [begin, beginHufDecode, afterChecks_failed h]
  all_goals contradiction

theorem isCommand_of_usesSrc {c : Instr} (h : usesSrc c = true) : isCommand c = true := by
  cases c
  case lit => contradiction
  case run => contradiction
  all_goals rfl

/-- A failed check is the whole command (R222, R225). -/
theorem exec_checkFailed {c : Instr} {s : State} {d : Detail} (hc : usesSrc c = true)
    (h : checkArgs c s.latched = some d) : exec c s = .next (s.fail c d) := by
  rw [exec_next (isCommand_of_usesSrc hc), begin_failed hc h, finish_idle rfl]

/-- A failure changes nothing outside the destination window the command has, if it has one (R222). -/
theorem fail_outside_destination (s : State) (c : Instr) (d : Detail) :
    SameOutside (destination c s.latched) s (s.fail c d) := by
  unfold destination
  split
  · exact fail_outside s c d
  · rename_i hc
    exact sameOutside_of_mem _ (s.fail_mem_of_none d (Bool.eq_false_of_not_eq_true hc))

/-- Settles O16: the command is that one failure. -/
theorem failedChecks : Obligations.FailedChecks := fun c s d hc h =>
  ⟨s.fail c d, exec_checkFailed hc h, ⟨rfl, rfl, rfl⟩, fail_outside_destination s c d, s.fail_mem_of_none d,
    fail_setting s c d, fail_regions s c d⟩

end Sys2Proof.Machine
end

section
/-! SUPPORT. The exceptions family: the codes each command can raise (60_exceptions.md R226). -/

namespace Sys2Proof.Machine

/-- The codes R226 lists for a command; a packet is none. -/
def commandCodes : Instr → List Code
  | .rleEncode => [.ok, .capacityExceeded, .invalidArgument]
  | .rleDecode | .hufDecode => [.ok, .capacityExceeded, .malformedInput, .invalidArgument]
  | .hufEncode => [.ok, .allocationFailure, .invalidArgument]
  | .hufRelease => [.ok]
  | .reservedOp _ => [.invalidArgument]
  | .lit _ | .run _ => []

/-- Where the state is a completion of command `c`, its code is one of the command's (R226). -/
def EndsWithin (c : Instr) (t : State) : Prop := t.stage = .idle → t.status.code ∈ commandCodes c

namespace EndsWithin

variable {c : Instr}

theorem running {t : State} (h : t.stage ≠ .idle) : EndsWithin c t := fun hi => absurd hi h

theorem fail (u : State) (c' : Instr) {d : Detail} (h : d.code ∈ commandCodes c) : EndsWithin c (u.fail c' d) :=
  fun _ => h

theorem succeed (u : State) (n b : Nat) (p : Addr) (h : .ok ∈ commandCodes c) : EndsWithin c (u.succeed n b p) :=
  fun _ => h

end EndsWithin

/-- Every failed argument check is an InvalidArgument (R221, R225). -/
theorem checkArgs_code {c : Instr} {o : Operands} {d : Detail} (h : checkArgs c o = some d) :
    d.code = .invalidArgument := by
  unfold checkArgs at h
  split_ifs at h <;> cases h <;> rfl

theorem EndsWithin.afterChecks {c c' : Instr} {s : State} {start : State → State} (hc : .invalidArgument ∈ commandCodes c)
    (h : EndsWithin c (start s)) : EndsWithin c (s.afterChecks c' start) :=
  afterChecks_cases (P := EndsWithin c) (fun _ hd => .fail s c' (checkArgs_code hd ▸ hc)) fun _ => h

theorem EndsWithin.guardPacket {s : State} {p n : Nat} {go : State → State} (h : EndsWithin .rleDecode (go s)) :
    EndsWithin .rleDecode (guardPacket s p n go) := by
  unfold Machine.guardPacket
  dsimp only
  split
  · exact .fail _ _ (by decide)
  · split
    · exact .fail _ _ (by decide)
    · exact h

theorem beginHufDecode_endsWithin (s : State) : EndsWithin .hufDecode (beginHufDecode s) := by
  apply EndsWithin.afterChecks (by decide)
  split
  · exact .fail _ _ (by decide)
  · split
    · exact .fail _ _ (by decide)
    · exact .running nofun

theorem hufRelease_endsWithin (s : State) : EndsWithin .hufRelease (hufRelease s) := fun _ => by
  rw [(hufRelease_completed s).status]
  decide

theorem begin_endsWithin {i : Instr} (hi : isCommand i = true) (s : State) : EndsWithin i (begin i s) := by
  cases i
  case rleEncode => exact .afterChecks (by decide) (.running nofun)
  case rleDecode => exact .afterChecks (by decide) (.running nofun)
  case hufEncode => exact .afterChecks (by decide) (.running nofun)
  case hufDecode => exact beginHufDecode_endsWithin s
  case hufRelease => exact hufRelease_endsWithin s
  case reservedOp op => exact .fail _ _ (List.mem_singleton.2 rfl)
  case lit c => contradiction
  case run c => contradiction

theorem rleEncodeStep_endsWithin {s : State} (h : s.stage ≠ .idle) : EndsWithin .rleEncode (rleEncodeStep s) := by
  unfold rleEncodeStep emitPacket
  dsimp only
  split
  · split
    · exact .fail _ _ (by decide)
    · exact .running h
  · exact .succeed _ _ _ _ (by decide)

theorem rleDecodeStep_endsWithin {s : State} (h : s.stage ≠ .idle) : EndsWithin .rleDecode (rleDecodeStep s) := by
  unfold rleDecodeStep
  split
  · rw [runPacket_decodeCtl]
    split
    · exact .guardPacket (.running h)
    · exact .guardPacket (.running h)
  · exact .succeed _ _ _ _ (by decide)

theorem hufAllocStep_endsWithin (s : State) : EndsWithin .hufEncode (hufAllocStep s) := by
  unfold hufAllocStep
  dsimp only
  split
  · exact .running nofun
  · exact .fail _ _ (by decide)

theorem hufDoneStep_endsWithin (base : Addr) (size : Nat) (s : State) :
    EndsWithin .hufEncode (hufDoneStep base size s) := .succeed _ _ _ _ (by decide)

theorem hufCheckStep_endsWithin (s : State) : EndsWithin .hufDecode (hufCheckStep s) := by
  unfold hufCheckStep
  dsimp only
  split
  · exact .running nofun
  · exact .fail _ _ (by decide)

theorem hufWalkStep_endsWithin {s : State} (h : s.stage ≠ .idle) : EndsWithin .hufDecode (hufWalkStep s) := by
  unfold hufWalkStep
  dsimp only
  split
  · split
    · exact .fail _ _ (by decide)
    · exact .fail _ _ (by decide)
    · split
      · exact .fail _ _ (by decide)
      · exact .running h
  · exact .succeed _ _ _ _ (by decide)

/-- A command at a stage of `c'` alone is `c'`, and ends as `c'` does. -/
theorem Begun.endsWithin {c c' : Instr} {s t : State} (hb : Begun c s) (hs : stageFits c s.stage = (c == c'))
    (h : EndsWithin c' t) : EndsWithin c t :=
  have hc : c = c' := eq_of_beq (hs ▸ hb.1)
  hc ▸ h

/-- A stage that can end belongs to one command, and ends it with a code of that command (R226). -/
theorem stageStep_endsWithin {c : Instr} {s : State} (hb : Begun c s) (h : s.stage ≠ .idle) :
    EndsWithin c (stageStep s) := by
  have hissued := hb.2
  unfold stageStep
  split
  case h_1 => contradiction
  case h_2 => contradiction
  case h_3 hs => exact hb.endsWithin (congrArg _ hs) (rleEncodeStep_endsWithin h)
  case h_4 hs => exact hb.endsWithin (congrArg _ hs) (rleDecodeStep_endsWithin h)
  case h_8 hs => exact hb.endsWithin (congrArg _ hs) (hufAllocStep_endsWithin s)
  case h_11 hs => exact hb.endsWithin (congrArg _ hs) (hufDoneStep_endsWithin _ _ s)
  case h_13 hs => exact hb.endsWithin (congrArg _ hs) (hufCheckStep_endsWithin s)
  case h_14 hs => exact hb.endsWithin (congrArg _ hs) (hufWalkStep_endsWithin h)
  all_goals exact .running nofun

theorem finish_endsWithin {c : Instr} {s : State} (hb : Begun c s) (h : EndsWithin c s) : EndsWithin c (finish s) :=
  (runStages_keeps (P := fun t => Begun c t ∧ EndsWithin c t)
    (fun _ ht hi => ⟨stageStep_begun ht.1, stageStep_endsWithin ht.1 hi⟩) _ ⟨hb, h⟩).2

/-- A command completes with a code of its own (R211, R226). -/
theorem exec_code_mem {i : Instr} {s t : State} (hi : isCommand i = true) (ht : exec i s = .next t) :
    t.status.code ∈ commandCodes i := by
  rw [exec_next hi] at ht
  cases ht
  exact finish_endsWithin (begin_begun hi s) (begin_endsWithin hi s) (finish_stage _)

/-- Settles O47: the start and every stage step of a command end it with a code of its own, if they end it. -/
theorem commandErrorCodes : Obligations.CommandErrorCodes := by
  intro i s t ht
  have hcode (hi : isCommand i = true) : t.status.code ∈ commandCodes i := exec_code_mem hi ht
  refine ⟨?_, ?_, ?_, ?_, ?_, ?_⟩
  · rintro rfl; exact hcode rfl
  · rintro rfl; exact hcode rfl
  · rintro rfl; exact hcode rfl
  · rintro rfl; exact hcode rfl
  · rintro rfl; exact List.mem_singleton.1 (hcode rfl)
  · rintro op rfl; exact List.mem_singleton.1 (hcode rfl)

end Sys2Proof.Machine
end

section
/-! SUPPORT. The exceptions family: an idle core stays as it is (60_exceptions.md R231). -/

namespace Sys2Proof.Machine

/-- Only while BUSY is a command in progress (R23). -/
theorem State.Inv.stage_idle {s : State} (h : s.Inv) (hb : s.status.busy = false) : s.stage = .idle :=
  Decidable.byContradiction fun hs => Bool.false_ne_true (hb.symm.trans (h.busyStage.2 hs))

/-- An idle core stays as it is at its whole turn (R231). -/
theorem coreTurn_idle {s : State} (h : s.stage = .idle) : coreTurn s = .next s := if_pos h

/-- An idle core stays as it is at one part of its turn (R231). -/
theorem corePart_idle {s : State} (h : s.stage = .idle) : corePart s = .next s := by
  simp [corePart, stageStep, h]

/-- Settles O54: an idle core's state stays, whichever way its turn comes. -/
theorem idleCoreStays : Obligations.IdleCoreStays := by
  intro s rest h hf hb ha
  have hi := h.stage_idle hb
  rcases ha with ha | ha | ⟨ha, rfl⟩
  · exact (step_head hf ha).trans (coreTurn_idle (s := { s with agenda := rest }) hi)
  · exact (step_head hf ha).trans (corePart_idle (s := { s with agenda := rest }) hi)
  · rw [step_coreTurn hf ha, coreTurn_idle hi, ← ha]

end Sys2Proof.Machine
end

section
/-! SUPPORT. The reset family: the reset input, and what it leaves of a running command's writes
(70_reset_and_hazards.md R250 to R252). -/

namespace Sys2Proof.Machine

/-! ### The abandoned command -/

/-- What reset gives up of memory: nothing, or, of a running command, its destination window if it has one, or the
region it was allocated (R251). -/
theorem abandon_cases (s : State) :
    s.abandon = s ∨ s.stage ≠ .idle ∧
      (s.abandon = s.spoilDst (decodeOpcode s.op) ∨ ∃ w ∈ s.allocatedRegion, s.abandon = s.spoil w) := by
  unfold State.abandon State.allocatedRegion
  cases s.stage
  case idle | hufCount | hufTree | hufCode | hufAlloc => exact .inl rfl
  case issued | rleEncode | rleDecode | hufRead | hufCheck | hufWalk => exact .inr ⟨nofun, .inl rfl⟩
  case hufHeader | hufPack | hufDone => exact .inr ⟨nofun, .inr ⟨_, List.mem_singleton.2 rfl, rfl⟩⟩

/-- An idle core's reset gives up nothing (R251). -/
theorem abandon_idle {s : State} (h : s.stage = .idle) : s.abandon = s := by simp only [State.abandon, h]

@[simp] theorem abandon_agenda (s : State) : s.abandon.agenda = s.agenda := by
  rcases abandon_cases s with h | ⟨-, h | ⟨w, -, h⟩⟩ <;> simp [h]

@[simp] theorem abandon_released (s : State) : s.abandon.released = s.released := by
  rcases abandon_cases s with h | ⟨-, h | ⟨w, -, h⟩⟩ <;> simp [h]

/-- A destination window given up changes nothing outside it (R222(b)). -/
theorem spoilDst_outside (s : State) (c : Instr) : SameOutside (destination c s.latched) s (s.spoilDst c) := by
  unfold destination
  split
  · exact fun a ha => s.spoilDst_read_outside c (ha _ (List.mem_singleton.2 rfl))
  · rename_i hc
    exact sameOutside_of_mem _ (congrArg State.mem (s.spoilDst_of_none (Bool.eq_false_of_not_eq_true hc)))

/-- A busy core's command writes its destination and its allocated region (R63). -/
theorem writeWindows_busy {s : State} (hb : s.status.busy = true) :
    s.writeWindows = destination (decodeOpcode s.op) s.latched ++ s.allocatedRegion := if_pos hb

/-- What reset gives up lies in the windows the running command writes (R251). -/
theorem abandon_outside {s : State} (h : s.Inv) : SameOutside s.writeWindows s s.abandon := by
  rcases abandon_cases s with ha | ⟨hs, ha⟩
  · exact sameOutside_of_mem _ (congrArg State.mem ha)
  · rw [writeWindows_busy (h.busyStage.2 hs)]
    intro a hout
    rcases ha with ha | ⟨w, hw, ha⟩ <;> rw [ha]
    · exact spoilDst_outside s _ a fun w hw => hout w (List.mem_append_left _ hw)
    · exact s.spoil_read_outside (hout w (List.mem_append_right _ hw))

/-! ### The reset input -/

/-- Reset touches memory only as it abandons the running command (R251). -/
theorem resetInput_mem (s : State) : (resetInput s).mem = s.abandon.mem := rfl

/-- Settles O13: reset changes memory only as it abandons the command, and an idle core has none to abandon. -/
theorem resetKeepsMemory : Obligations.ResetKeepsMemory := fun s h =>
  ⟨abandon_outside h, fun hb => by rw [resetInput_mem, abandon_idle (h.stage_idle hb)]⟩

/-- The reset input is taken whatever the host has broken (R38, R250). -/
theorem step_reset {s : State} {rest : List Event} (ha : s.agenda = .reset :: rest) :
    step s = .next (resetInput { s with agenda := rest }) := by
  simp [step, takeTurn, hostGuard, event, ha]

/-- Settles O11: reset writes each register, and giving up the command's writes changes neither the agenda nor
`released`. -/
theorem resetInputState : Obligations.ResetInputState := fun s rest ha =>
  have hword : Status.reset.word = 0 := rfl
  ⟨resetInput { s with agenda := rest }, step_reset ha, rfl, hword, rfl, rfl, rfl, rfl, rfl, rfl,
    abandon_agenda { s with agenda := rest }, abandon_released { s with agenda := rest }, _, rfl⟩

end Sys2Proof.Machine
end

section
/-! SUPPORT. The reset family: a busy core's turn completes its command (70_reset_and_hazards.md R262). -/

namespace Sys2Proof.Machine

/-- The core's turn, from an event or at the end of the agenda, carries the running command to its completion (R262). -/
theorem step_core {s : State} {rest : List Event} (hf : s.hostFault = false)
    (ha : s.agenda = .core :: rest ∨ s.agenda = [] ∧ rest = []) :
    step s = .next (finish { s with agenda := rest }) := by
  rcases ha with ha | ⟨ha, rfl⟩
  · exact (step_head hf ha).trans (coreTurn_eq _)
  · rw [step_coreTurn hf ha, coreTurn_eq, ← ha]

/-- Settles O53: the turn finishes the command, and what has been finished has ended. -/
theorem busyCoreCompletes : Obligations.BusyCoreCompletes := by
  intro s rest h hf hb ha
  obtain ⟨d, r, ⟨hstatus, hres, hstage⟩, hzero⟩ :=
    finish_ending (s := { s with agenda := rest }) (h.busyStage.1 hb)
  exact ⟨_, d, step_core hf ha, hstatus, hstage, fun hd => hres.trans (hzero hd), runStages_setting _ _⟩

end Sys2Proof.Machine
end

section
/-! SUPPORT. The reset family: the host duties HD1, HD3, HD5 and HD6 as the model judges them (70_reset_and_hazards.md
R256; 20_memory.md R66; 60_exceptions.md R230). -/

namespace Sys2Proof.Machine

/-! ### Windows that meet others -/

/-- Some window meets one of two lists exactly when it meets one of both together. -/
theorem any_meets_iff (ws vs us : List Window) :
    ws.any (fun w => vs.any w.overlaps || us.any w.overlaps) = true ↔
      ∃ w ∈ ws, ∃ w' ∈ vs ++ us, w.overlaps w' = true := by
  simp only [← List.any_append, List.any_eq_true]

/-! ### HOSTFAULT -/

/-- HD1: a write is a breach in any window of the running command (R256). -/
theorem hostStore_hostFault_iff {s : State} (hf : s.hostFault = false) (a : Addr) (v : Byte) :
    (hostStore a v s).hostFault = true ↔ ∃ w ∈ s.readWindows ++ s.writeWindows, w.has a.toNat = true := by
  simp only [hostStore, hf, Bool.false_or, List.any_eq_true]

/-- HD1: a read is a breach in a window the running command writes (R256). -/
theorem hostLoad_hostFault_iff {s : State} (hf : s.hostFault = false) (a : Addr) :
    (hostLoad a s).hostFault = true ↔ ∃ w ∈ s.writeWindows, w.has a.toNat = true := by
  simp only [hostLoad, hf, Bool.false_or, List.any_eq_true]

/-- HD3, HD5 and HD6 as an issue breaks them (R256). -/
theorem issueBreach_iff (s : State) (c : Instr) (o : Operands) :
    issueBreach s c o = true ↔
      (∃ w ∈ commandWindows c o, ∃ w' ∈ s.nonPlain ++ s.otherWindows, w.overlaps w' = true) ∨
        (c = .rleDecode ∨ c = .hufDecode) ∧ ∃ a ∈ s.released, o.src.has a = true := by
  unfold issueBreach State.meetsOther
  dsimp only
  rw [Bool.or_eq_true, any_meets_iff]
  simp only [Bool.and_eq_true, Bool.or_eq_true, beq_iff_eq, List.any_eq_true]

/-- An issue sets HOSTFAULT exactly when it breaks a duty (R256). -/
theorem issueWord_hostFault {s : State} (hf : s.hostFault = false) (v : Slot) :
    (s.issueWord v).hostFault = issueBreach s (decodeCommand v) s.regs := by
  simp only [State.issueWord, decodeCommand, hf, Bool.false_or]

/-- HD3 and HD6 as a change of the platform breaks them (R230, R256). -/
theorem platformChange_hostFault_iff {s : State} (hf : s.hostFault = false) (others nonPlain : List Window) :
    (platformChange others nonPlain s).hostFault = true ↔
      ∃ w ∈ s.readWindows ++ s.writeWindows, ∃ w' ∈ nonPlain ++ others, w.overlaps w' = true := by
  simp only [platformChange, hf, Bool.false_or, any_meets_iff]

/-! ### Released bytes -/

/-- HUF_RELEASE of a live region releases its bytes, and those released before stay so (HD5, R213). -/
theorem mem_hufRelease_released {s : State} (h : s.latched.srcBase ≠ 0) (x : Nat) :
    x ∈ (hufRelease s).released ↔
      x ∈ s.released ∨ ∃ w, s.liveRegion s.latched.srcBase = some w ∧ w.has x = true := by
  have hreleased : (hufRelease s).released =
      (s.liveRegion s.latched.srcBase).elim [] (fun w => List.range' w.base w.len) ++ s.released :=
    congrArg State.released (if_neg h)
  rw [hreleased, List.mem_append, or_comm]
  cases s.liveRegion s.latched.srcBase with
  | none => simp
  | some w => simp [List.mem_range'_1, Window.has_iff]

/-- A register access releases nothing and writes no released byte (HD5). -/
theorem hostWrite_released (width offset : Nat) (v : Slot) (s : State) :
    (hostWrite width offset v s).released = s.released := by
  rcases hostWrite_cases width offset v s with hw | hw | ⟨-, ⟨-, w, hw⟩ | ⟨regs, hw⟩⟩ <;>
    exact (congrArg State.released hw).trans rfl

/-- A byte written anew is no longer one of a released region, and every other one stays (HD5). -/
theorem mem_hostStore_released (s : State) (a : Addr) (v : Byte) (x : Nat) :
    x ∈ (hostStore a v s).released ↔ x ∈ s.released ∧ x ≠ a.toNat := by
  simp only [hostStore, List.mem_filter, bne_iff_ne]

/-- Settles O57: what each event and HUF_RELEASE make of HOSTFAULT and of the released bytes. -/
theorem hostDutiesJudged : Obligations.HostDutiesJudged := by
  refine ⟨fun s a v hf => ⟨hostStore_hostFault_iff hf a v, hostLoad_hostFault_iff hf a⟩, fun s v hf hb => ?_,
    fun s others nonPlain hf => platformChange_hostFault_iff hf others nonPlain, fun _ _ _ => rfl,
    fun s h => mem_hufRelease_released h, fun s width offset v => hostWrite_released width offset v s,
    mem_hostStore_released⟩
  rw [hostWrite_cmd (.inl rfl) hb, issueWord_hostFault hf]
  exact issueBreach_iff s _ _

end Sys2Proof.Machine
end

section
/-! SUPPORT. Buffer memory: a memory in canonical form is determined by what it reads as (20_memory.md R61, R64;
notes/assumptions/5.md). Its first entry stands at the lowest address that reads as other than an unlisted byte. -/

namespace Sys2Proof.Machine

theorem Memory.read_head (k : Nat) (v : Byte) (m : Memory) : Memory.read ((k, v) :: m) k = v := if_pos rfl

section
variable {k : Nat} {v : Byte} {m : Memory} (hm : Memory.wf ((k, v) :: m) = true)
include hm

theorem Memory.head_ne_blankByte_of_wf : v ≠ blankByte := by
  simp only [Memory.wf, Bool.and_eq_true, bne_iff_ne] at hm
  exact hm.1.1

theorem Memory.wf_tail : m.wf = true := by
  simp only [Memory.wf, Bool.and_eq_true] at hm
  exact hm.2

/-- No address below the first entry's reads as a listed byte. -/
theorem Memory.head_le_of_read_ne {a : Nat} (ha : Memory.read ((k, v) :: m) a ≠ blankByte) : k ≤ a :=
  Nat.le_of_not_lt fun hlt => ha (Memory.read_of_lt hm hlt)

/-- A canonical memory with an entry does not read as the empty one. -/
theorem Memory.not_forall_read_eq_blankByte : ¬ ∀ a, Memory.read ((k, v) :: m) a = blankByte :=
  fun h => Memory.head_ne_blankByte_of_wf hm ((Memory.read_head k v m).symm.trans (h k))

/-- Of two canonical memories that read alike, neither begins below the other: the byte first listed in the one is
listed in the other. -/
theorem Memory.head_le_head {l : Nat} {w : Byte} {m' : Memory} (hm' : Memory.wf ((l, w) :: m') = true)
    (h : ∀ a, Memory.read ((k, v) :: m) a = Memory.read ((l, w) :: m') a) : k ≤ l :=
  Memory.head_le_of_read_ne hm (by
    rw [h l, Memory.read_head]
    exact Memory.head_ne_blankByte_of_wf hm')

/-- Canonical memories that read alike and begin at one address still read alike without their first entries. -/
theorem Memory.read_tail_congr {w : Byte} {m' : Memory} (hm' : Memory.wf ((k, w) :: m') = true)
    (h : ∀ a, Memory.read ((k, v) :: m) a = Memory.read ((k, w) :: m') a) (a : Nat) : m.read a = m'.read a := by
  by_cases ha : k = a
  · rw [Memory.read_tail_of_le hm ha.ge, Memory.read_tail_of_le hm' ha.ge]
  · simpa only [Memory.read_cons, if_neg ha] using h a

end

/-- Settles O14, by induction on the first memory: the first entries agree in address, each being the lowest, and so in
byte, and the rests read alike. -/
theorem canonicalMemoryExtensional : Obligations.CanonicalMemoryExtensional := by
  intro m
  induction m with
  | nil =>
    rintro (_ | ⟨⟨l, w⟩, m'⟩) - hm' h
    · rfl
    · exact absurd (fun a => (h a).symm) (Memory.not_forall_read_eq_blankByte hm')
  | cons cell m ih =>
    obtain ⟨k, v⟩ := cell
    rintro (_ | ⟨⟨l, w⟩, m'⟩) hm hm' h
    · exact absurd h (Memory.not_forall_read_eq_blankByte hm)
    · obtain rfl : k = l :=
        Nat.le_antisymm (Memory.head_le_head hm hm' h) (Memory.head_le_head hm' hm fun a => (h a).symm)
      obtain rfl : v = w := by simpa only [Memory.read_head] using h k
      rw [ih m' (Memory.wf_tail hm) (Memory.wf_tail hm') (Memory.read_tail_congr hm hm' h)]

end Sys2Proof.Machine
end
